-- ==== Sys2Proof/Word.lean ====
section
/-! DEFINITION. The units of data the spec counts in: bytes and 32-bit words (spec/00_scope.md section 5). -/

namespace Sys2Proof

/-- A byte: 8 bits (00_scope.md section 5). -/
abbrev Byte := BitVec 8

/-- A 32-bit word: a request word, an address, a byte count, a payload (30_encoding.md R80, R90). -/
abbrev Word := BitVec 32

end Sys2Proof
end

