-- ==== Sys2Proof/Syntax.lean ====
section
/-! DEFINITION. The syntax: bus modes, catalog commands, host operation codes, and the one inductive `Instr`
with a constructor for every row of spec/opcode_table.json. -/

namespace Sys2Proof

/-- The bus mode, BF's BusMode (10_state.md R21): `legacy` codes as 0, `octal` as 1. -/
inductive Mode where
  | legacy
  | octal
deriving DecidableEq, Repr, Inhabited

/-- The thirteen catalog commands (40_command_catalog.md R121), in index order 0 to 12. -/
inductive Cmd where
  | wren | rsten | rst | rdsr | rdcr2 | wrcr2 | rdid | rdcr | dtrd8 | pp4b | se | be | ce
deriving DecidableEq, Repr, Inhabited

/-- The unit of BF's `erase(address, unit)` (30_encoding.md R111). -/
inductive EraseUnit where
  | sector | block | chip
deriving DecidableEq, Repr, Inhabited

/-! The host operation codes `hop` (30_encoding.md R81). -/

abbrev hopInit : BitVec 4 := 0x1
abbrev hopReadId : BitVec 4 := 0x2
abbrev hopReadStatus : BitVec 4 := 0x3
abbrev hopReadCfg : BitVec 4 := 0x4
abbrev hopReadCfg2 : BitVec 4 := 0x5
abbrev hopWriteCfg2 : BitVec 4 := 0x6
abbrev hopRead : BitVec 4 := 0x7
abbrev hopProgram : BitVec 4 := 0x8
abbrev hopEraseSector : BitVec 4 := 0x9
abbrev hopEraseBlock : BitVec 4 := 0xA
abbrev hopEraseChip : BitVec 4 := 0xB
abbrev hopMmapEnable : BitVec 4 := 0xC
abbrev hopMmapDisable : BitVec 4 := 0xD

/-- One constructor per row of spec/opcode_table.json: the thirteen host operations with the operands R81 gives
them, the three reserved codes (R108), and the wire commands, `L` for a LEGACY8 row and `O` for an OCTAL16 row
(R105), each with the operands its transaction carries (R128 to R140): an address where the catalog's address
kind is OPERAND, the register value of WRCR2, the length of an array read, the bytes of a page program. -/
inductive Instr where
  | init
  | readId
  | readStatus
  | readCfg
  | readCfg2 (addr : Word)
  | writeCfg2 (addr : Word) (val : Byte)
  | read (addr len : Word)
  | program (addr len : Word) (wdata : List Byte)
  | eraseSector (addr : Word)
  | eraseBlock (addr : Word)
  | eraseChip
  | mmapEnable
  | mmapDisable
  | reservedHop0
  | reservedHopE
  | reservedHopF
  | wrenL
  | wrenO
  | rstenL
  | rstenO
  | rstL
  | rstO
  | rdsrL
  | rdsrO
  | rdcr2L (addr : Word)
  | rdcr2O (addr : Word)
  | wrcr2L (addr : Word) (val : Byte)
  | wrcr2O (addr : Word) (val : Byte)
  | rdidL
  | rdidO
  | dtrd8O (addr len : Word)
  | pp4bO (addr : Word) (data : List Byte)
  | seO (addr : Word)
  | beO (addr : Word)
  | ceO
  | rdcrL
  | rdcrO
deriving DecidableEq, Repr, Inhabited

end Sys2Proof
end

