-- ==== Sys2Proof/Machine/Transport.lean ====
section
/-! DEFINITION. The data that crosses the transport interface (30_encoding.md section 3 and 4): transaction
descriptors, the five calls, their answers, and the reference chip's state (20_memory.md R73). -/

namespace Sys2Proof.Machine

/-- Opcode length (R102 `isz`). -/
inductive OpSize where
  | op8 | op16
deriving DecidableEq, Repr, Inhabited

/-- Lines of a phase (R102). -/
inductive Lines where
  | l1 | l8
deriving DecidableEq, Repr, Inhabited

/-- Rate of a phase (R102). -/
inductive Rate where
  | str | dtr
deriving DecidableEq, Repr, Inhabited

/-- Data direction (R102 `dd`). -/
inductive Dir where
  | none | read | write
deriving DecidableEq, Repr, Inhabited

/-- A transaction descriptor (R102). -/
structure TD where
  opcode : BitVec 16
  isz : OpSize
  iw : Lines
  ir : Rate
  ap : Bool
  aw : Lines
  ar : Rate
  addr : Word
  dd : Dir
  dw : Lines
  dr : Rate
  dlen : Word
  dummy : BitVec 5
deriving DecidableEq, Repr, Inhabited

/-- The five calls of the transport interface (R100). -/
inductive Call where
  | execCmd (td : TD)
  | execRead (td : TD)
  | execWrite (td : TD) (bytes : List Byte)
  | mmapEnable (tdr tdw : TD)
  | mmapDisable
deriving DecidableEq, Repr, Inhabited

/-- A transport error code `e`: eight bits, not zero (R101, 92_eei_decisions.md D28). -/
structure TErr where
  code : BitVec 8
  nonzero : code ≠ 0
deriving DecidableEq, Repr

/-- `T_TIMEOUT` (R101). -/
def TErr.timeout : TErr := ⟨0x01, by decide⟩

/-- `T_BUSFAULT` (R101). -/
def TErr.busFault : TErr := ⟨0x02, by decide⟩

/-- The environment's answer to a call: `Ok`, with the bytes of a read, or `Err(e)` (R100). -/
inductive Answer where
  | ok (bytes : List Byte)
  | err (e : TErr)
deriving DecidableEq, Repr

/-- The transport calls made so far with their answers, oldest first. The free values of Config.lean are applied
to it, so that an environment may answer by anything it has seen. -/
abbrev History := List (Call × Answer)

/-- Memory as (address, byte) pairs; its canonical form is `Memory.wf` in Machine/Memory.lean. -/
abbrev Memory := List Host.Cell

/-- The reference chip of `ENV_REF` (20_memory.md R73). `WIP` is `0 < busyLeft`: the Status reads that will still
show it set (R74 "a finite, unknown number of later Status reads"). `rstArmed` remembers that RSTEN was the last
transaction (R74 "RSTEN followed at once by RST"). -/
structure Chip where
  link : Mode
  wel : Bool
  busyLeft : Nat
  rstArmed : Bool
  cr2 : Memory
  arr : Memory
  id : Byte × Byte × Byte
deriving DecidableEq, Repr, Inhabited

end Sys2Proof.Machine
end

