-- ==== Sys2Proof/Config.lean ====
section
/-! DEFINITION. The constants BF fixes (00_scope.md R6), the configuration record `CFG` and its reference value
(R7), and the free values: what the environment answers where the spec leaves it to the environment. -/

namespace Sys2Proof

namespace Config

/-- `PAGE` (R6). -/
abbrev page : Nat := 256
/-- `SECTOR` (R6). -/
abbrev sector : Nat := 4096
/-- `BLOCK` (R6). -/
abbrev block : Nat := 65536
/-- `CAPACITY` (R6): 32 MiB. -/
abbrev capacity : Nat := 0x02000000
/-- Identification read length (R6). -/
abbrev idLen : Nat := 3
/-- Dummy cycles of the memory-mapped read template (R6). -/
abbrev templateDummy : BitVec 5 := 20
/-- `CR2_ADDR_MODE` (R6). -/
abbrev cr2AddrMode : Word := 0
/-- The Configuration-2 byte with only `CR2_DOPI_BIT`, bit 1, set (R6). -/
abbrev cr2Dopi : Byte := 0x02

/-- FREE VALUE (log 4): the error, if any, of a call whose answer nothing prescribes (R100, 93 U7, U8). -/
opaque envErr : Machine.History → Machine.Call → Option Machine.TErr

/-- FREE VALUE (log 4): byte `i` of the data a read returns where nothing prescribes it (93 U10, U11). -/
opaque envByte : Machine.History → Machine.Call → Nat → Byte

/-- FREE VALUE (log 24): how many Status reads after the cycle this call starts show WIP set (R74). -/
opaque busyCount : Machine.History → Machine.Call → Nat

/-- FREE VALUE (log 23): what a transaction the chip does not recognise makes of the chip (R73, 93 U12). -/
opaque chipDraw : Machine.History → Machine.Call → Machine.Chip → Machine.Chip

end Config

/-- The row of Read Configuration Register, present only when `RDCR_VALID` (R7, 92 D14): the cells `RDCR_L`,
`RDCR_O`, `RDCR_O_ADDR` (`none` is NONE, `some c` is CONST(c)), `RDCR_O_DUMMY`, `RDCR_L_DUMMY`. -/
structure RdcrRow where
  l : BitVec 8
  o : BitVec 16
  oAddr : Option Word
  oDummy : BitVec 5
  lDummy : BitVec 5
deriving DecidableEq, Repr, Inhabited

/-- The configuration record `CFG` (R7). `rdcr` is `some` exactly when `RDCR_VALID`; `regAddrO` is `none` for NONE
and `some c` for CONST(c); `mmapBase` and `mmapSize` are `none` while OPEN. -/
structure Cfg where
  pollLimit : Nat
  wipBit : Fin 8
  dummyRead : BitVec 5
  dummyRegO : BitVec 5
  dummyRegL : BitVec 5
  regAddrO : Option Word
  rdcr : Option RdcrRow
  initMismatchFatal : Bool
  mmapBase : Option Word
  mmapSize : Option Word
deriving DecidableEq, Repr, Inhabited

/-- `CFG_REF` (R7). -/
def Cfg.ref : Cfg where
  pollLimit := 0
  wipBit := 0
  dummyRead := 20
  dummyRegO := 4
  dummyRegL := 0
  regAddrO := some 0
  rdcr := none
  initMismatchFatal := false
  mmapBase := none
  mmapSize := none

end Sys2Proof
end

