-- ==== Sys2Proof/Machine/Catalog.lean ====
section
/-! DEFINITION. `command_catalog_rom` (40_command_catalog.md): pure data, two modes by thirteen commands. -/

namespace Sys2Proof.Machine

/-- The address kind of a row (R121). -/
inductive AddrKind where
  | none
  | operand
  | const (k : Word)
deriving DecidableEq, Repr, Inhabited

/-- A valid catalog row (R121); an invalid row is the absence of one. A Legacy opcode's bits 15:8 are 0. -/
structure Row where
  opcode : BitVec 16
  ak : AddrKind
  dd : Dir
  dstr : Bool
  dummy : BitVec 5
deriving DecidableEq, Repr, Inhabited

/-- The index number of a command (R121). -/
def Cmd.index (c : Cmd) : Nat :=
  match c with
  | .wren => 0 | .rsten => 1 | .rst => 2 | .rdsr => 3 | .rdcr2 => 4 | .wrcr2 => 5 | .rdid => 6
  | .rdcr => 7 | .dtrd8 => 8 | .pp4b => 9 | .se => 10 | .be => 11 | .ce => 12

/-- The address kind a parameter NONE or CONST(c) stands for (R7, R126). -/
def fixedKind (p : Option Word) : AddrKind :=
  match p with
  | .none => .none
  | .some c => .const c

/-- `CAT[Legacy]` (R122). -/
def legacyRow (cfg : Cfg) (c : Cmd) : Option Row :=
  match c with
  | .wren => some ⟨0x06, .none, .none, false, 0⟩
  | .rsten => some ⟨0x66, .none, .none, false, 0⟩
  | .rst => some ⟨0x99, .none, .none, false, 0⟩
  | .rdsr => some ⟨0x05, .none, .read, false, cfg.dummyRegL⟩
  | .rdcr2 => some ⟨0x71, .operand, .read, false, cfg.dummyRegL⟩
  | .wrcr2 => some ⟨0x72, .operand, .write, false, 0⟩
  | .rdid => some ⟨0x9F, .none, .read, false, cfg.dummyRegL⟩
  | .rdcr => cfg.rdcr.map fun r => ⟨r.l.setWidth 16, .none, .read, false, r.lDummy⟩
  | .dtrd8 => none
  | .pp4b => none
  | .se => none
  | .be => none
  | .ce => none

/-- `CAT[Octal]` (R123). -/
def octalRow (cfg : Cfg) (c : Cmd) : Option Row :=
  match c with
  | .wren => some ⟨0x06F9, .none, .none, false, 0⟩
  | .rsten => some ⟨0x6699, .none, .none, false, 0⟩
  | .rst => some ⟨0x9966, .none, .none, false, 0⟩
  | .rdsr => some ⟨0x05FA, fixedKind cfg.regAddrO, .read, false, cfg.dummyRegO⟩
  | .rdcr2 => some ⟨0x718E, .operand, .read, false, cfg.dummyRegO⟩
  | .wrcr2 => some ⟨0x728D, .operand, .write, false, 0⟩
  | .rdid => some ⟨0x9F60, fixedKind cfg.regAddrO, .read, true, cfg.dummyRegO⟩
  | .rdcr => cfg.rdcr.map fun r => ⟨r.o, fixedKind r.oAddr, .read, false, r.oDummy⟩
  | .dtrd8 => some ⟨0xEE11, .operand, .read, false, cfg.dummyRead⟩
  | .pp4b => some ⟨0x12ED, .operand, .write, false, 0⟩
  | .se => some ⟨0x21DE, .operand, .none, false, 0⟩
  | .be => some ⟨0xDC23, .operand, .none, false, 0⟩
  | .ce => some ⟨0x609F, .none, .none, false, 0⟩

/-- `CAT[m][c]` (R121). -/
def catalog (cfg : Cfg) (m : Mode) (c : Cmd) : Option Row :=
  match m with
  | .legacy => legacyRow cfg c
  | .octal => octalRow cfg c

/-- The `dstr` cell of a row, no where there is no row (R125). -/
def singleRate (cfg : Cfg) (m : Mode) (c : Cmd) : Bool :=
  match catalog cfg m c with
  | some r => r.dstr
  | none => false

end Sys2Proof.Machine
end

