-- ==== Sys2Proof/Machine/Builder.lean ====
section
/-! DEFINITION. `transaction_descriptor_builder` (41_transaction_builder.md), the packed form of a descriptor
(30_encoding.md R103) and the two memory-mapped templates (45_memory_mapped.md R232). -/

namespace Sys2Proof.Machine

/-- Opcode length of a mode (R143). -/
def Mode.opSize (m : Mode) : OpSize :=
  match m with
  | .legacy => .op8
  | .octal => .op16

/-- Lines of a phase in a mode (R143). -/
def Mode.lines (m : Mode) : Lines :=
  match m with
  | .legacy => .l1
  | .octal => .l8

/-- Rate of the instruction phase, and of an address phase, in a mode (R143, R144). -/
def Mode.rate (m : Mode) : Rate :=
  match m with
  | .legacy => .str
  | .octal => .dtr

/-- Rate of a data phase: double only in Octal mode and only where the row is not `dstr` (R145). -/
def dataRate (m : Mode) (dstr : Bool) : Rate :=
  match m, dstr with
  | .octal, false => .dtr
  | _, _ => .str

/-- The descriptor of a valid row (R141). -/
def Row.describe (r : Row) (m : Mode) (a n : Word) : TD where
  opcode := r.opcode
  isz := Mode.opSize m
  iw := Mode.lines m
  ir := Mode.rate m
  ap := r.ak != .none
  aw := if r.ak = .none then .l1 else Mode.lines m
  ar := if r.ak = .none then .str else Mode.rate m
  addr :=
    match r.ak with
    | .none => 0
    | .operand => a
    | .const k => k
  dd := r.dd
  dw := if r.dd = .none then .l1 else Mode.lines m
  dr := if r.dd = .none then .str else dataRate m r.dstr
  dlen := if r.dd = .none then 0 else n
  dummy := r.dummy

/-- `Build(c, m, a, n)` (R141). `none` is ProtocolViolation(PV_MODE): the row is not valid (R142). -/
def build (cfg : Cfg) (c : Cmd) (m : Mode) (a n : Word) : Option TD :=
  (catalog cfg m c).map fun r => r.describe m a n

/-- The memory-mapped read template `TPL_RD` (R232): the 8DTRD descriptor of zero address and length with the
constant 20 dummy cycles, whatever `DUMMY_READ` is. -/
def templateRead (cfg : Cfg) : TD :=
  match build cfg .dtrd8 .octal 0 0 with
  | some td => { td with dummy := Config.templateDummy }
  | none => default

/-- The memory-mapped write template `TPL_WR` (R232). -/
def templateWrite (cfg : Cfg) : TD :=
  match build cfg .pp4b .octal 0 0 with
  | some td => td
  | none => default

/-! ## The packed form (R103) -/

def OpSize.bit (z : OpSize) : BitVec 1 :=
  match z with
  | .op8 => 0
  | .op16 => 1

def Lines.bit (l : Lines) : BitVec 1 :=
  match l with
  | .l1 => 0
  | .l8 => 1

def Rate.bit (r : Rate) : BitVec 1 :=
  match r with
  | .str => 0
  | .dtr => 1

def Dir.bits (d : Dir) : BitVec 2 :=
  match d with
  | .none => 0
  | .read => 1
  | .write => 2

def OpSize.ofBit (b : Bool) : OpSize := if b then .op16 else .op8
def Lines.ofBit (b : Bool) : Lines := if b then .l8 else .l1
def Rate.ofBit (b : Bool) : Rate := if b then .dtr else .str

/-- `dd` from its code; 3 is never produced (R103, R110) and is the code of no direction. -/
def Dir.ofBits (b : BitVec 2) : Option Dir :=
  if b = 0 then some .none else if b = 1 then some .read else if b = 2 then some .write else Option.none

/-- The three words `T0 T1 T2` (R103). -/
structure Packed where
  t0 : Word
  t1 : Word
  t2 : Word
deriving DecidableEq, Repr, Inhabited

/-- `T0` (R103): the fields from bit 31 down to bit 0. -/
def TD.t0 (td : TD) : Word :=
  (td.dummy ++ (0 : BitVec 1) ++ Rate.bit td.dr ++ Lines.bit td.dw ++ Dir.bits td.dd ++ Rate.bit td.ar
    ++ Lines.bit td.aw ++ BitVec.ofBool td.ap ++ Rate.bit td.ir ++ Lines.bit td.iw ++ OpSize.bit td.isz
    ++ td.opcode).setWidth 32

/-- The packed form of a descriptor (R103). -/
def TD.pack (td : TD) : Packed := ⟨td.t0, td.addr, td.dlen⟩

/-- The descriptor a packed form stands for; none where bit 26 is not 0 or `dd` is 3 (R103). -/
def Packed.unpack (p : Packed) : Option TD :=
  if p.t0.getLsbD 26 then none
  else
    (Dir.ofBits (p.t0.extractLsb' 22 2)).map fun dd =>
      { opcode := p.t0.extractLsb' 0 16
        isz := OpSize.ofBit (p.t0.getLsbD 16)
        iw := Lines.ofBit (p.t0.getLsbD 17)
        ir := Rate.ofBit (p.t0.getLsbD 18)
        ap := p.t0.getLsbD 19
        aw := Lines.ofBit (p.t0.getLsbD 20)
        ar := Rate.ofBit (p.t0.getLsbD 21)
        addr := p.t1
        dd := dd
        dw := Lines.ofBit (p.t0.getLsbD 24)
        dr := Rate.ofBit (p.t0.getLsbD 25)
        dlen := p.t2
        dummy := p.t0.extractLsb' 27 5 }

/-! ## The shape rules (30_encoding.md R104, 41 R148) -/

/-- Normal form (R104). -/
def TD.normal (td : TD) : Bool :=
  (td.ap || (td.aw == .l1 && td.ar == .str && td.addr == 0))
    && (td.dd != .none || (td.dw == .l1 && td.dr == .str && td.dlen == 0))
    && (td.isz != .op8 || td.opcode.extractLsb' 8 8 == 0)

end Sys2Proof.Machine
end

