-- ==== Sys2Proof/Machine/Operands.lean ====
section
/-! DEFINITION. Operand forms: the bit fields of a request word, wire lengths and widening of register values, the
range check, the page guard, the splitter, and the packing of payloads. -/

namespace Sys2Proof.Machine

/-! ## The fields of a request word (30_encoding.md R80) -/

/-- `hop`, W0[3:0]. -/
def hopField (w0 : Word) : BitVec 4 := w0.extractLsb' 0 4

/-- `val`, W0[15:8]. -/
def valField (w0 : Word) : Byte := w0.extractLsb' 8 8

/-- W0[7:4] or W0[31:16] is not zero (R82). -/
def reservedBitsSet (w0 : Word) : Bool :=
  w0.extractLsb' 4 4 != 0 || w0.extractLsb' 16 16 != 0

/-- The first word of a request with these fields and zero reserved bits (R80). -/
def packW0 (hop : BitVec 4) (val : Byte) : Word :=
  ((0 : BitVec 16) ++ val ++ (0 : BitVec 4) ++ hop).setWidth 32

/-! ## Register accesses (42_register_access.md) -/

/-- `WireLen(c, m, k)` (R161). -/
def wireLen (cfg : Cfg) (c : Cmd) (m : Mode) (k : Nat) : Nat :=
  if m = .octal ∧ singleRate cfg m c = false then k + k % 2 else k

/-- `Widen(v, m)` (R163): the value first, then a zero byte in Octal mode (20_memory.md R56). -/
def widen (v : Byte) (m : Mode) : List Byte :=
  match m with
  | .legacy => [v]
  | .octal => [v, 0x00]

/-! ## Array accesses (44_array_access.md) -/

/-- `InRange(a, n)` (R200); the sum is of naturals, so it cannot wrap. -/
def inRange (a : Word) (n : Nat) : Bool := decide (a.toNat + n ≤ Config.capacity)

/-- `PageOK(a, n)` (R203). -/
def pageOk (a : Word) (n : Nat) : Bool :=
  decide (1 ≤ n) && decide (n ≤ Config.page - a.toNat % Config.page)

/-- `Chunk(a, left)` (R204). -/
def chunkLen (a left : Nat) : Nat := min (Config.page - a % Config.page) left

/-- The chunks `(a_j, c_j)` the splitter makes of `left` bytes at `a` (R205, R206), at most `fuel` of them. -/
def chunksFuel (fuel a left : Nat) : List (Nat × Nat) :=
  match fuel with
  | 0 => []
  | f + 1 =>
    if left = 0 then []
    else (a, chunkLen a left) :: chunksFuel f (a + chunkLen a left) (left - chunkLen a left)

/-- The chunks of `PROGRAM addr, len` (R206): `len` is fuel enough, every chunk holding a byte at least. -/
def chunks (addr len : Nat) : List (Nat × Nat) := chunksFuel len addr len

/-! ## Payloads (30_encoding.md R93, 20_memory.md R58) -/

/-- `zext_32(b)`. -/
def bytePayload (b : Byte) : Word := b.setWidth 32

/-- Byte `i` of a list, 0 past its end. -/
def byteAt (bs : List Byte) (i : Nat) : Byte := bs.getD i 0

/-- READ_ID: `{0x00, i2, i1, i0}`. -/
def idPayload (bs : List Byte) : Word :=
  ((0 : BitVec 8) ++ byteAt bs 2 ++ byteAt bs 1 ++ byteAt bs 0).setWidth 32

/-- INIT: `{m, 0000000, V_OLD, V_NEW, V_RB}`. -/
def initPayload (m : Bool) (vOld vNew vRb : Byte) : Word :=
  (BitVec.ofBool m ++ (0 : BitVec 7) ++ vOld ++ vNew ++ vRb).setWidth 32

end Sys2Proof.Machine
end

