-- ==== Sys2Proof/WellFormed.lean ====
section
/-! DEFINITION. The checks that make an instruction term one the hardware can be given. -/

namespace Sys2Proof

/-- The configuration has an RDCR row whose Legacy opcode is no other Legacy row's (the spec leaves the opcode open,
40_command_catalog.md R135). -/
def Cfg.rdcrLegacyOk (cfg : Cfg) : Bool :=
  match cfg.rdcr with
  | none => false
  | some r => !([0x06, 0x66, 0x99, 0x05, 0x71, 0x72, 0x9F].contains r.l)

/-- The same of the Octal opcode. -/
def Cfg.rdcrOctalOk (cfg : Cfg) : Bool :=
  match cfg.rdcr with
  | none => false
  | some r =>
    !([0x06F9, 0x6699, 0x9966, 0x05FA, 0x718E, 0x728D, 0x9F60, 0xEE11, 0x12ED, 0x21DE, 0xDC23, 0x609F].contains r.o)

/-- Well-formedness under a configuration: PROGRAM's data has `len` bytes (30_encoding.md R82), an array read has a
byte at least (44_array_access.md R201), a page program stays in one page (R203), and the RDCR commands exist only
where the configuration has their row (40_command_catalog.md R135). Every other term is well formed. -/
def Instr.wellFormed (cfg : Cfg) (i : Instr) : Bool :=
  match i with
  | .program _ len wdata => decide (wdata.length = len.toNat)
  | .dtrd8O _ len => decide (1 ≤ len.toNat)
  | .pp4bO addr data => Machine.pageOk addr data.length
  | .rdcrL => cfg.rdcrLegacyOk
  | .rdcrO => cfg.rdcrOctalOk
  | .init => true
  | .readId => true
  | .readStatus => true
  | .readCfg => true
  | .readCfg2 _ => true
  | .writeCfg2 _ _ => true
  | .read _ _ => true
  | .eraseSector _ => true
  | .eraseBlock _ => true
  | .eraseChip => true
  | .mmapEnable => true
  | .mmapDisable => true
  | .reservedHop0 => true
  | .reservedHopE => true
  | .reservedHopF => true
  | .wrenL => true
  | .wrenO => true
  | .rstenL => true
  | .rstenO => true
  | .rstL => true
  | .rstO => true
  | .rdsrL => true
  | .rdsrO => true
  | .rdcr2L _ => true
  | .rdcr2O _ => true
  | .wrcr2L _ _ => true
  | .wrcr2O _ _ => true
  | .rdidL => true
  | .rdidO => true
  | .seO _ => true
  | .beO _ => true
  | .ceO => true

end Sys2Proof
end

