-- ==== Sys2Proof/Decode.lean ====
section
/-! DEFINITION. The decoder, total on any words and rejecting by name, and after it the encoder. Two ports carry
words: the host port a request (30_encoding.md R80), the transport port a packed descriptor with its write data
(R103). -/

namespace Sys2Proof

/-- The words of an instruction: a host request `W0 W1 W2` with its write-data stream (R80), or a wire command as
the packed descriptor that carries it with the bytes it writes (R102, R103). -/
inductive Words where
  | host (w0 w1 w2 : Word) (wdata : List Byte)
  | wire (p : Machine.Packed) (data : List Byte)
deriving DecidableEq, Repr, Inhabited

/-- Why words are rejected. -/
inductive DecodeError where
  /-- W0[7:4] or W0[31:16] is not zero in a request with a code that is not reserved (R82). -/
  | reservedBits
  /-- The write-data stream of a PROGRAM request has not `len` bytes: no host can present this (R82). -/
  | streamLength
  /-- The packed words stand for no descriptor (bit 26 set, or `dd` 3, R103). -/
  | malformed
  /-- No row of the mode's table has this opcode (R105, R110). -/
  | unknownOpcode
  /-- The descriptor is not the one the builder makes for this opcode (R141). -/
  | shape
  /-- The data phase is not the one the command has (R131 to R140). -/
  | dataPhase
deriving DecidableEq, Repr, Inhabited

/-! ## Decoding -/

/-- The instruction of a request whose fields are these (R81). -/
def decodeOperation (hop : BitVec 4) (val : Byte) (addr len : Word) (wdata : List Byte) : Except DecodeError Instr :=
  if hop = hopInit then .ok .init
  else if hop = hopReadId then .ok .readId
  else if hop = hopReadStatus then .ok .readStatus
  else if hop = hopReadCfg then .ok .readCfg
  else if hop = hopReadCfg2 then .ok (.readCfg2 addr)
  else if hop = hopWriteCfg2 then .ok (.writeCfg2 addr val)
  else if hop = hopRead then .ok (.read addr len)
  else if hop = hopProgram then
    if wdata.length = len.toNat then .ok (.program addr len wdata) else .error .streamLength
  else if hop = hopEraseSector then .ok (.eraseSector addr)
  else if hop = hopEraseBlock then .ok (.eraseBlock addr)
  else if hop = hopEraseChip then .ok .eraseChip
  else if hop = hopMmapEnable then .ok .mmapEnable
  else .ok .mmapDisable

/-- A host request (R80 to R82, R108). A reserved code is its own row whatever the other bits are. -/
def decodeHost (w0 w1 w2 : Word) (wdata : List Byte) : Except DecodeError Instr :=
  if Machine.hopField w0 = 0x0 then .ok .reservedHop0
  else if Machine.hopField w0 = 0xE then .ok .reservedHopE
  else if Machine.hopField w0 = 0xF then .ok .reservedHopF
  else if Machine.reservedBitsSet w0 then .error .reservedBits
  else decodeOperation (Machine.hopField w0) (Machine.valField w0) w1 w2 wdata

/-- The mode whose table a descriptor's opcode is looked up in: the opcode's length tells it (R105). -/
def opcodeMode (z : Machine.OpSize) : Mode :=
  match z with
  | .op8 => .legacy
  | .op16 => .octal

/-- The commands in the order an opcode is looked up: the rows the spec fixes, then the parameter row RDCR (log 30). -/
def lookupOrder : List Cmd :=
  [.wren, .rsten, .rst, .rdsr, .rdcr2, .wrcr2, .rdid, .dtrd8, .pp4b, .se, .be, .ce, .rdcr]

/-- The first command in that order whose row in the mode has this opcode. -/
def findCommand (cfg : Cfg) (m : Mode) (op : BitVec 16) : Option Cmd :=
  lookupOrder.find? fun c =>
    match Machine.catalog cfg m c with
    | some r => r.opcode == op
    | none => false

/-- The instruction `i`, if its data phase is as it should be. -/
def whenPhase (good : Bool) (i : Instr) : Except DecodeError Instr :=
  if good then .ok i else .error .dataPhase

/-- The instruction a command in a mode stands for, from the address, the length and the data of its transaction
(40_command_catalog.md R128 to R140; 42_register_access.md R161, R163). -/
def assemble (cfg : Cfg) (m : Mode) (c : Cmd) (a : Word) (n : Nat) (data : List Byte) : Except DecodeError Instr :=
  match m, c with
  | .legacy, .wren => whenPhase (data.isEmpty && n == 0) .wrenL
  | .octal, .wren => whenPhase (data.isEmpty && n == 0) .wrenO
  | .legacy, .rsten => whenPhase (data.isEmpty && n == 0) .rstenL
  | .octal, .rsten => whenPhase (data.isEmpty && n == 0) .rstenO
  | .legacy, .rst => whenPhase (data.isEmpty && n == 0) .rstL
  | .octal, .rst => whenPhase (data.isEmpty && n == 0) .rstO
  | .legacy, .rdsr => whenPhase (data.isEmpty && n == Machine.wireLen cfg .rdsr .legacy 1) .rdsrL
  | .octal, .rdsr => whenPhase (data.isEmpty && n == Machine.wireLen cfg .rdsr .octal 1) .rdsrO
  | .legacy, .rdcr2 => whenPhase (data.isEmpty && n == Machine.wireLen cfg .rdcr2 .legacy 1) (.rdcr2L a)
  | .octal, .rdcr2 => whenPhase (data.isEmpty && n == Machine.wireLen cfg .rdcr2 .octal 1) (.rdcr2O a)
  | .legacy, .wrcr2 =>
    whenPhase (data == Machine.widen (Machine.byteAt data 0) .legacy && n == data.length)
      (.wrcr2L a (Machine.byteAt data 0))
  | .octal, .wrcr2 =>
    whenPhase (data == Machine.widen (Machine.byteAt data 0) .octal && n == data.length)
      (.wrcr2O a (Machine.byteAt data 0))
  | .legacy, .rdid => whenPhase (data.isEmpty && n == Machine.wireLen cfg .rdid .legacy Config.idLen) .rdidL
  | .octal, .rdid => whenPhase (data.isEmpty && n == Machine.wireLen cfg .rdid .octal Config.idLen) .rdidO
  | .legacy, .rdcr => whenPhase (data.isEmpty && n == Machine.wireLen cfg .rdcr .legacy 1) .rdcrL
  | .octal, .rdcr => whenPhase (data.isEmpty && n == Machine.wireLen cfg .rdcr .octal 1) .rdcrO
  | .octal, .dtrd8 => whenPhase (data.isEmpty && decide (1 ≤ n)) (.dtrd8O a (BitVec.ofNat 32 n))
  | .octal, .pp4b => whenPhase (data.length == n && Machine.pageOk a n) (.pp4bO a data)
  | .octal, .se => whenPhase (data.isEmpty && n == 0) (.seO a)
  | .octal, .be => whenPhase (data.isEmpty && n == 0) (.beO a)
  | .octal, .ce => whenPhase (data.isEmpty && n == 0) .ceO
  | .legacy, .dtrd8 => .error .unknownOpcode
  | .legacy, .pp4b => .error .unknownOpcode
  | .legacy, .se => .error .unknownOpcode
  | .legacy, .be => .error .unknownOpcode
  | .legacy, .ce => .error .unknownOpcode

/-- A wire command from its descriptor and write data: the opcode names the row, the rest must be what the builder
makes of that row (R141). -/
def decodeDescriptor (cfg : Cfg) (td : Machine.TD) (data : List Byte) : Except DecodeError Instr :=
  match findCommand cfg (opcodeMode td.isz) td.opcode with
  | none => .error .unknownOpcode
  | some c =>
    if Machine.build cfg c (opcodeMode td.isz) td.addr td.dlen = some td then
      assemble cfg (opcodeMode td.isz) c td.addr td.dlen.toNat data
    else .error .shape

/-- The decoder. The configuration tells the catalog cells the spec leaves open (00_scope.md R7). -/
def decode (cfg : Cfg) (w : Words) : Except DecodeError Instr :=
  match w with
  | .host w0 w1 w2 wdata => decodeHost w0 w1 w2 wdata
  | .wire p data =>
    match p.unpack with
    | none => .error .malformed
    | some td => decodeDescriptor cfg td data

/-! ## Encoding -/

/-- The transaction of a wire command: its command, mode, address operand, data length and data written
(42_register_access.md R162 to R164, R171; 44_array_access.md R201, R203, R207). None for a host operation. -/
def Instr.transaction (cfg : Cfg) (i : Instr) : Option (Cmd × Mode × Word × Nat × List Byte) :=
  match i with
  | .wrenL => some (.wren, .legacy, 0, 0, [])
  | .wrenO => some (.wren, .octal, 0, 0, [])
  | .rstenL => some (.rsten, .legacy, 0, 0, [])
  | .rstenO => some (.rsten, .octal, 0, 0, [])
  | .rstL => some (.rst, .legacy, 0, 0, [])
  | .rstO => some (.rst, .octal, 0, 0, [])
  | .rdsrL => some (.rdsr, .legacy, 0, Machine.wireLen cfg .rdsr .legacy 1, [])
  | .rdsrO => some (.rdsr, .octal, 0, Machine.wireLen cfg .rdsr .octal 1, [])
  | .rdcr2L a => some (.rdcr2, .legacy, a, Machine.wireLen cfg .rdcr2 .legacy 1, [])
  | .rdcr2O a => some (.rdcr2, .octal, a, Machine.wireLen cfg .rdcr2 .octal 1, [])
  | .wrcr2L a v => some (.wrcr2, .legacy, a, Machine.wireLen cfg .wrcr2 .legacy 1, Machine.widen v .legacy)
  | .wrcr2O a v => some (.wrcr2, .octal, a, Machine.wireLen cfg .wrcr2 .octal 1, Machine.widen v .octal)
  | .rdidL => some (.rdid, .legacy, 0, Machine.wireLen cfg .rdid .legacy Config.idLen, [])
  | .rdidO => some (.rdid, .octal, 0, Machine.wireLen cfg .rdid .octal Config.idLen, [])
  | .dtrd8O a n => some (.dtrd8, .octal, a, n.toNat, [])
  | .pp4bO a data => some (.pp4b, .octal, a, data.length, data)
  | .seO a => some (.se, .octal, a, 0, [])
  | .beO a => some (.be, .octal, a, 0, [])
  | .ceO => some (.ce, .octal, 0, 0, [])
  | .rdcrL => some (.rdcr, .legacy, 0, Machine.wireLen cfg .rdcr .legacy 1, [])
  | .rdcrO => some (.rdcr, .octal, 0, Machine.wireLen cfg .rdcr .octal 1, [])
  | .init => none
  | .readId => none
  | .readStatus => none
  | .readCfg => none
  | .readCfg2 _ => none
  | .writeCfg2 _ _ => none
  | .read _ _ => none
  | .program _ _ _ => none
  | .eraseSector _ => none
  | .eraseBlock _ => none
  | .eraseChip => none
  | .mmapEnable => none
  | .mmapDisable => none
  | .reservedHop0 => none
  | .reservedHopE => none
  | .reservedHopF => none

/-- The words of a wire transaction; none where the configuration has no such row (R142). -/
def encodeTransaction (cfg : Cfg) (t : Cmd × Mode × Word × Nat × List Byte) : Option Words :=
  match t with
  | (c, m, a, n, data) => (Machine.build cfg c m a (BitVec.ofNat 32 n)).map fun td => .wire td.pack data

/-- The encoder. Operand fields an operation does not use are written as zero (R82 ignores them). -/
def encode (cfg : Cfg) (i : Instr) : Option Words :=
  match i with
  | .init => some (.host (Machine.packW0 hopInit 0) 0 0 [])
  | .readId => some (.host (Machine.packW0 hopReadId 0) 0 0 [])
  | .readStatus => some (.host (Machine.packW0 hopReadStatus 0) 0 0 [])
  | .readCfg => some (.host (Machine.packW0 hopReadCfg 0) 0 0 [])
  | .readCfg2 addr => some (.host (Machine.packW0 hopReadCfg2 0) addr 0 [])
  | .writeCfg2 addr val => some (.host (Machine.packW0 hopWriteCfg2 val) addr 0 [])
  | .read addr len => some (.host (Machine.packW0 hopRead 0) addr len [])
  | .program addr len wdata => some (.host (Machine.packW0 hopProgram 0) addr len wdata)
  | .eraseSector addr => some (.host (Machine.packW0 hopEraseSector 0) addr 0 [])
  | .eraseBlock addr => some (.host (Machine.packW0 hopEraseBlock 0) addr 0 [])
  | .eraseChip => some (.host (Machine.packW0 hopEraseChip 0) 0 0 [])
  | .mmapEnable => some (.host (Machine.packW0 hopMmapEnable 0) 0 0 [])
  | .mmapDisable => some (.host (Machine.packW0 hopMmapDisable 0) 0 0 [])
  | .reservedHop0 => some (.host 0x0 0 0 [])
  | .reservedHopE => some (.host 0xE 0 0 [])
  | .reservedHopF => some (.host 0xF 0 0 [])
  | .wrenL => (Instr.transaction cfg .wrenL).bind (encodeTransaction cfg)
  | .wrenO => (Instr.transaction cfg .wrenO).bind (encodeTransaction cfg)
  | .rstenL => (Instr.transaction cfg .rstenL).bind (encodeTransaction cfg)
  | .rstenO => (Instr.transaction cfg .rstenO).bind (encodeTransaction cfg)
  | .rstL => (Instr.transaction cfg .rstL).bind (encodeTransaction cfg)
  | .rstO => (Instr.transaction cfg .rstO).bind (encodeTransaction cfg)
  | .rdsrL => (Instr.transaction cfg .rdsrL).bind (encodeTransaction cfg)
  | .rdsrO => (Instr.transaction cfg .rdsrO).bind (encodeTransaction cfg)
  | .rdcr2L a => (Instr.transaction cfg (.rdcr2L a)).bind (encodeTransaction cfg)
  | .rdcr2O a => (Instr.transaction cfg (.rdcr2O a)).bind (encodeTransaction cfg)
  | .wrcr2L a v => (Instr.transaction cfg (.wrcr2L a v)).bind (encodeTransaction cfg)
  | .wrcr2O a v => (Instr.transaction cfg (.wrcr2O a v)).bind (encodeTransaction cfg)
  | .rdidL => (Instr.transaction cfg .rdidL).bind (encodeTransaction cfg)
  | .rdidO => (Instr.transaction cfg .rdidO).bind (encodeTransaction cfg)
  | .dtrd8O a n => (Instr.transaction cfg (.dtrd8O a n)).bind (encodeTransaction cfg)
  | .pp4bO a data => (Instr.transaction cfg (.pp4bO a data)).bind (encodeTransaction cfg)
  | .seO a => (Instr.transaction cfg (.seO a)).bind (encodeTransaction cfg)
  | .beO a => (Instr.transaction cfg (.beO a)).bind (encodeTransaction cfg)
  | .ceO => (Instr.transaction cfg .ceO).bind (encodeTransaction cfg)
  | .rdcrL => (Instr.transaction cfg .rdcrL).bind (encodeTransaction cfg)
  | .rdcrO => (Instr.transaction cfg .rdcrO).bind (encodeTransaction cfg)

/-! ## One word of the opcode table -/

/-- The shortest data phase a command's transaction has: the register widths of R161, three identification bytes,
one byte of array data (20_memory.md R63). -/
def shortestPhase (cfg : Cfg) (m : Mode) (c : Cmd) : Nat :=
  match c with
  | .wren => 0 | .rsten => 0 | .rst => 0 | .se => 0 | .be => 0 | .ce => 0
  | .rdsr => Machine.wireLen cfg .rdsr m 1
  | .rdcr2 => Machine.wireLen cfg .rdcr2 m 1
  | .wrcr2 => Machine.wireLen cfg .wrcr2 m 1
  | .rdcr => Machine.wireLen cfg .rdcr m 1
  | .rdid => Machine.wireLen cfg .rdid m Config.idLen
  | .dtrd8 => 1
  | .pp4b => 1

/-- The words of a wire command whose opcode is `op` and whose other bits are all 0: address 0, the shortest data
phase, zero bytes (log 29). -/
def zeroWire (cfg : Cfg) (m : Mode) (op : BitVec 16) : Option Words :=
  match findCommand cfg m op with
  | none => none
  | some c =>
    (Machine.build cfg c m 0 (BitVec.ofNat 32 (shortestPhase cfg m c))).map fun td =>
      .wire td.pack (if td.dd = .write then List.replicate (shortestPhase cfg m c) 0 else [])

/-- The words an instruction of spec/opcode_table.json stands for: 8 bits are a LEGACY8 opcode and 16 bits an
OCTAL16 opcode where the reference catalog has it, anything else a host request `W0 W1 W2` (log 29). -/
def tableWords (nbits w : Nat) : Words :=
  match
    (if nbits = 8 then zeroWire Cfg.ref .legacy (BitVec.ofNat 16 w)
     else if nbits = 16 then zeroWire Cfg.ref .octal (BitVec.ofNat 16 w) else none) with
  | some ws => ws
  | none => .host (BitVec.ofNat 32 w) (BitVec.ofNat 32 (w >>> 32)) (BitVec.ofNat 32 (w >>> 64)) []

/-- The instruction the decoder reads from an instruction of the table whose bits are `w`. -/
def decodeTableWord (nbits w : Nat) : Option Instr :=
  match decode Cfg.ref (tableWords nbits w) with
  | .ok i => some i
  | .error _ => none

end Sys2Proof
end

