-- ==== Sys2Proof/Machine/State.lean ====
section
/-! DEFINITION. State as plain data: the engine's registers (10_state.md R20 to R31), the configuration, the host
port, the environment, and the stops. -/

namespace Sys2Proof.Machine

/-- The 28 states of the sequencer, the block's program counter (10_state.md R30). -/
inductive Seq where
  | idle
  | initRsten | initRst | initPoll | initRdcr2 | initWren | initWrcr2 | initFlip | initVerify
  | ridRd
  | rsrRd
  | rcrRd
  | rc2Rd
  | wc2Wren | wc2Wr | wc2Poll
  | rdRd
  | pgSplit | pgWren | pgPp | pgPoll | pgAdv
  | erWren | erCmd | erPoll
  | mmEn
  | mmDis
  | resp
deriving DecidableEq, Repr, Inhabited

/-- A host request as it stands on the port: three words and the write-data stream (30_encoding.md R80). -/
structure Request where
  w0 : Word
  w1 : Word
  w2 : Word
  wdata : List Byte
deriving DecidableEq, Repr, Inhabited

/-- A response (30_encoding.md R90); the register `RSP` is one (R31). -/
structure Response where
  status : BitVec 4
  sub : BitVec 4
  info : BitVec 8
  payload : Word
  done : Word
  rdata : List Byte
deriving DecidableEq, Repr, Inhabited

/-- The operands of the request in flight that no register holds (10_state.md R20 "the request in flight and its
data"; log 9). -/
structure InFlight where
  addr : Word
  len : Word
  wdata : List Byte
deriving DecidableEq, Repr, Inhabited

/-- Which environment answers the transport calls (00_scope.md R8): any environment at all, or the reference
environment `ENV_REF` of 20_memory.md R73 to R76 (log 19). -/
inductive EnvKind where
  | any
  | reference
deriving DecidableEq, Repr, Inhabited

/-- The environment: transport and chip. `script` holds the answers ANY environment gives next, before the free
values (log 4); `busy` the busy counts `ENV_REF` uses next, before the free values (log 24); `mm` is the transport's
memory-mapped flag (R73). -/
structure Env where
  kind : EnvKind
  script : List Answer
  busy : List Nat
  mm : Bool
  chip : Chip
deriving DecidableEq, Repr

/-- The state of the machine. -/
structure State where
  /-- `CFG` (00_scope.md R7); no step writes it (log 1). -/
  cfg : Cfg
  /-- `MODE` (R21). -/
  mode : Mode
  /-- `FAULT` (R24). -/
  fault : Bool
  /-- `INIT_MISMATCH` (R26). -/
  initMismatch : Bool
  /-- `MMAP_EN` (R27). -/
  mmapEn : Bool
  /-- `FAULT_CAUSE` (R25). -/
  faultCause : BitVec 4
  /-- `FAULT_OP` (R25). -/
  faultOp : BitVec 4
  /-- `FAULT_INFO` (R25). -/
  faultInfo : BitVec 8
  /-- `DONE` (R28). -/
  done : Word
  /-- `SEQ` (R30). -/
  seq : Seq
  /-- `HOP` (R31). -/
  hop : BitVec 4
  /-- `A_CUR` (R31). -/
  aCur : Word
  /-- `N_LEFT` (R31). -/
  nLeft : Word
  /-- `OFF` (R31). -/
  off : Word
  /-- `CHUNK` (R31). -/
  chunk : BitVec 9
  /-- `POLL_N` (R31, 60_exceptions.md R265). -/
  pollN : Nat
  /-- `V_OLD` (R31). -/
  vOld : Byte
  /-- `V_NEW` (R31). -/
  vNew : Byte
  /-- `V_RB` (R31). -/
  vRb : Byte
  /-- `RBUF` (R31). -/
  rbuf : List Byte
  /-- `RSP` (R31). -/
  rsp : Response
  /-- The request in flight (R20). -/
  inFlight : InFlight
  /-- The reset input (70_reset_and_hazards.md R290); the outside raises it between steps (log 17). -/
  rst : Bool
  /-- The requests the host presents, in order, the head standing at the port (30_encoding.md R83; log 8). -/
  host : List Request
  /-- The responses handed to the host, oldest first (R90). -/
  responses : List Response
  /-- The environment (R8). -/
  env : Env
  /-- The transport calls made and their answers, oldest first (20_memory.md R67; log 7). -/
  trace : History
deriving DecidableEq, Repr

/-- Why the machine stops. -/
inductive Fault where
  /-- Raised by `step` alone, in sequencer state ER_CMD with a HOP that is no erase code: the state reads an operand
  register the operation in flight did not load (R31: "the model is wrong, not the hardware"). Safe: no run of the
  hardware is there (log 15). -/
  | seqReadsUnloadedHop
deriving DecidableEq, Repr

/-- Why a step has no meaning. -/
inductive Refusal where
  /-- Raised by an arm of `exec` for an instruction that has no meaning yet. Safe. -/
  | notModelled (mnemonic : String)
  /-- Raised by `step` alone, in IDLE, when the request at the host port is a PROGRAM whose write-data stream has not
  `len` bytes: R82 says it cannot be expressed. Safe: no host presents it (log 14). -/
  | inexpressibleRequest
deriving DecidableEq, Repr

/-- The chip at power-up (20_memory.md R73); contents the spec leaves open as log 20 and log 21 say. -/
def Chip.powerUp : Chip where
  link := .legacy
  wel := false
  busyLeft := 0
  rstArmed := false
  cr2 := []
  arr := []
  id := (0, 0, 0)

/-- Any environment, nothing scripted, the chip at power-up. -/
def Env.powerUp : Env where
  kind := .any
  script := []
  busy := []
  mm := false
  chip := Chip.powerUp

/-- A response with every field 0. -/
def Response.zero : Response := ⟨0, 0, 0, 0, 0, []⟩

/-- The machine right after reset (10_state.md R37, 70_reset_and_hazards.md R290, R293), with the configuration
`CFG_REF`, nothing at the host port, and the environment at power-up (R291, R292). The operand registers, whose
reset values R37 calls unspecified, are zero or empty (log 3). -/
def State.reset : State where
  cfg := Cfg.ref
  mode := .legacy
  fault := false
  initMismatch := false
  mmapEn := false
  faultCause := 0
  faultOp := 0
  faultInfo := 0
  done := 0
  seq := .idle
  hop := 0
  aCur := 0
  nLeft := 0
  off := 0
  chunk := 0
  pollN := 0
  vOld := 0
  vNew := 0
  vRb := 0
  rbuf := []
  rsp := Response.zero
  inFlight := ⟨0, 0, []⟩
  rst := false
  host := []
  responses := []
  env := Env.powerUp
  trace := []

end Sys2Proof.Machine
end

