-- ==== Sys2Proof/Machine/Memory.lean ====
section
/-! DEFINITION. Byte memory as a list of (address, byte) pairs in one canonical form: addresses strictly rising and
below a limit, no entry equal to what an unlisted address reads as. Two memories are of this kind: the flash array
(20_memory.md R50) and the Configuration-2 registers (R51). -/

namespace Sys2Proof.Machine

/-- What an unlisted byte of the flash array reads as: an erased cell (log 20). -/
def arrFill : Byte := 0xFF

/-- What an unlisted Configuration-2 register reads as (log 21). -/
def cr2Fill : Byte := 0x00

/-- The Configuration-2 space has 32-bit addresses (R51). -/
def cr2Limit : Nat := 4294967296

/-- The canonical form above an address: every entry past `lo`, rising, below `limit`, none equal to `fill`. -/
def Memory.wfFrom (fill : Byte) (limit lo : Nat) (m : Memory) : Bool :=
  match m with
  | [] => true
  | (a, b) :: rest =>
    decide (lo ≤ a) && decide (a < limit) && (b != fill) && Memory.wfFrom fill limit (a + 1) rest

/-- The canonical form. -/
def Memory.wf (fill : Byte) (limit : Nat) (m : Memory) : Bool := Memory.wfFrom fill limit 0 m

/-- Reading one byte. -/
def Memory.read (fill : Byte) (m : Memory) (a : Nat) : Byte :=
  match m with
  | [] => fill
  | (k, b) :: rest => if k = a then b else Memory.read fill rest a

/-- The entry of one byte in front of a memory whose entries lie past it; none where it is the fill byte. -/
def Memory.entry (fill : Byte) (a : Nat) (v : Byte) (rest : Memory) : Memory :=
  if v = fill then rest else (a, v) :: rest

/-- Writing one byte: the entry goes to its place, and writing the fill byte removes it. -/
def Memory.write (fill : Byte) (m : Memory) (a : Nat) (v : Byte) : Memory :=
  match m with
  | [] => Memory.entry fill a v []
  | (k, b) :: rest =>
    if k < a then (k, b) :: Memory.write fill rest a v
    else if k = a then Memory.entry fill a v rest
    else Memory.entry fill a v ((k, b) :: rest)

/-- `n` bytes from `a` on, in rising address (20_memory.md R55). -/
def Memory.readRange (fill : Byte) (m : Memory) (a n : Nat) : List Byte :=
  (List.range n).map fun i => Memory.read fill m (a + i)

/-- Every byte of `[lo, hi)` set to the fill byte: an erase (R75). -/
def Memory.clear (m : Memory) (lo hi : Nat) : Memory :=
  m.filter fun p => decide (p.1 < lo) || decide (hi ≤ p.1)

/-- Programming: byte `i` of the data is ANDed into address `a + i` (R75). -/
def Memory.program (fill : Byte) (m : Memory) (a : Nat) (data : List Byte) : Memory :=
  match data with
  | [] => m
  | d :: rest => Memory.program fill (Memory.write fill m a (Memory.read fill m a &&& d)) (a + 1) rest

/-- The canonical memory that holds the entries of a list below the limit, later entries first. -/
def Memory.ofEntries (fill : Byte) (limit : Nat) (l : Memory) : Memory :=
  match l with
  | [] => []
  | (a, b) :: rest =>
    if a < limit then Memory.write fill (Memory.ofEntries fill limit rest) a b else Memory.ofEntries fill limit rest

/-- One byte of the flash array. -/
def Chip.arrayByte (c : Chip) (a : Nat) : Byte := Memory.read arrFill c.arr a

/-- One Configuration-2 register of the chip. -/
def Chip.cr2Byte (c : Chip) (a : Word) : Byte := Memory.read cr2Fill c.cr2 a.toNat

/-- Both memories of a chip are in canonical form. -/
def Chip.wf (c : Chip) : Bool :=
  Memory.wf arrFill Config.capacity c.arr && Memory.wf cr2Fill cr2Limit c.cr2

/-- A chip with the same contents in canonical form. -/
def Chip.canonical (c : Chip) : Chip :=
  { c with
    arr := Memory.ofEntries arrFill Config.capacity c.arr
    cr2 := Memory.ofEntries cr2Fill cr2Limit c.cr2 }

end Sys2Proof.Machine
end

