-- ==== Sys2Proof/Machine/Chip.lean ====
section
/-! DEFINITION. The environment behind the transport interface: any environment at all (00_scope.md R8, 30_encoding.md
R100), and the reference environment `ENV_REF` (20_memory.md R73 to R76). -/

namespace Sys2Proof.Machine

/-- The bytes a call's answer holds: `td.dlen` for a read, none otherwise (R100). -/
def Call.dataLen (c : Call) : Nat :=
  match c with
  | .execRead td => td.dlen.toNat
  | .execCmd _ => 0
  | .execWrite _ _ => 0
  | .mmapEnable _ _ => 0
  | .mmapDisable => 0

/-- `n` bytes: those given, then free values. -/
def fitBytes (h : History) (c : Call) (n : Nat) (bs : List Byte) : List Byte :=
  (List.range n).map fun i => bs.getD i (Config.envByte h c i)

/-- An answer that keeps the interface's contract on the number of bytes (R100). -/
def Answer.fit (h : History) (c : Call) (a : Answer) : Answer :=
  match a with
  | .ok bs => .ok (fitBytes h c c.dataLen bs)
  | .err e => .err e

/-- The answer nothing prescribes: an error or not, and any bytes (93 U8, U10). -/
def freeAnswer (h : History) (c : Call) : Answer :=
  match Config.envErr h c with
  | some e => .err e
  | none => .ok (fitBytes h c c.dataLen [])

/-! ## Any environment (log 4) -/

/-- The next answer of any environment: the scripted one, or a free one. `MmapDisable` has no answer and cannot
fail (R100). -/
def Env.anyAnswer (e : Env) (h : History) (c : Call) : Answer :=
  match c with
  | .mmapDisable => .ok []
  | .execCmd _ | .execRead _ | .execWrite _ _ | .mmapEnable _ _ =>
    match e.script with
    | [] => freeAnswer h c
    | a :: _ => a.fit h c

/-- The environment after it: the scripted answer is used up. -/
def Env.anyNext (e : Env) (c : Call) : Env :=
  match c with
  | .mmapDisable => e
  | .execCmd _ | .execRead _ | .execWrite _ _ | .mmapEnable _ _ => { e with script := e.script.tail }

/-! ## The reference environment (R73 to R76) -/

/-- `WIP` (R73). -/
def Chip.wip (c : Chip) : Bool := decide (0 < c.busyLeft)

/-- The Status byte: WIP at `CFG.WIP_BIT`, WEL at bit 1 (R74), and 0 elsewhere: 0x03 in a cycle, 0x00 after it
(95_test_vectors.md section 4; log 26). -/
def Chip.statusByte (cfg : Cfg) (c : Chip) : Byte :=
  (if c.wip then (1 : Byte) <<< cfg.wipBit.val else 0) ||| (if c.wel then 0x02 else 0)

/-- The address range of an array command lies in the array (20_memory.md R50; log 22). -/
def arrayRangeOk (c : Cmd) (td : TD) (data : List Byte) : Bool :=
  match c with
  | .dtrd8 => inRange td.addr td.dlen.toNat
  | .pp4b => inRange td.addr data.length
  | .se => inRange td.addr 1
  | .be => inRange td.addr 1
  | .wren => true | .rsten => true | .rst => true | .rdsr => true | .rdcr2 => true | .wrcr2 => true
  | .rdid => true | .rdcr => true | .ce => true

/-- The command a chip recognises in a descriptor: opcode space and shape are those of its link mode (R73), and
its effect is described: RST only directly after RSTEN in Legacy mode (R74), array addresses in the array. None
is an unrecognised transaction (log 22, log 23). -/
def Chip.recognise (cfg : Cfg) (chip : Chip) (td : TD) (data : List Byte) : Option Cmd :=
  match findCommand cfg (opcodeMode td.isz) td.opcode with
  | none => none
  | some c =>
    if opcodeMode td.isz = chip.link ∧ build cfg c chip.link td.addr td.dlen = some td
        ∧ arrayRangeOk c td data = true ∧ (c = .rst → chip.rstArmed = true ∧ chip.link = .legacy) then
      some c
    else none

/-- The bytes a recognised read returns; the second byte of a register read in Octal mode is any value (R74). -/
def Chip.readBytes (cfg : Cfg) (chip : Chip) (c : Cmd) (td : TD) : List Byte :=
  match c with
  | .rdsr => [chip.statusByte cfg]
  | .rdcr2 => [chip.cr2Byte td.addr]
  | .rdid => [chip.id.1, chip.id.2.1, chip.id.2.2]
  | .dtrd8 => Memory.readRange arrFill chip.arr td.addr.toNat td.dlen.toNat
  | .rdcr => [] | .wren => [] | .rsten => [] | .rst => [] | .wrcr2 => [] | .pp4b => [] | .se => [] | .be => []
  | .ce => []

/-- The start of the unit of `size` bytes that contains `a` (20_memory.md R60). -/
def unitStart (a : Word) (size : Nat) : Nat := a.toNat / size * size

/-- The busy count of the next cycle: the given one, or a free one (R74; log 24). -/
def Env.nextBusy (e : Env) (h : History) (call : Call) : Nat :=
  match e.busy with
  | [] => Config.busyCount h call
  | b :: _ => b

/-- An internal cycle of `b` busy Status reads starts; WEL is cleared when it ends (R74). MODEL'S CHOICE: where `b` is
0 the cycle is over at once (log 24), and where an earlier cycle still runs its remaining busy reads are forgotten,
the new count taking their place (log 36). -/
def Chip.startCycle (chip : Chip) (b : Nat) : Chip :=
  { chip with busyLeft := b, wel := chip.wel && decide (0 < b) }

/-- A Status read: one busy read fewer; WEL is cleared when the cycle ends (R74). MODEL'S CHOICE: the busy time of RST is
a cycle like the others, so a WEL that a WREN set during it is cleared at its end too (log 37). -/
def Chip.afterStatusRead (chip : Chip) : Chip :=
  { chip with busyLeft := chip.busyLeft - 1, wel := chip.wel && !(chip.busyLeft == 1) }

/-- The Configuration-2 write of an enabled chip: the byte, and the switch to Octal at address 0 with bit 1 set
(R74). -/
def Chip.writeCr2 (chip : Chip) (a : Word) (v : Byte) : Chip :=
  { chip with
    cr2 := Memory.write cr2Fill chip.cr2 a.toNat v
    link := if a = Config.cr2AddrMode ∧ v.getLsbD 1 = true then .octal else chip.link }

/-- The chip's contents after a recognised command, before any cycle it starts. A write-class command without WEL is
ignored; a page program whose range leaves its page is too (R74, R75). -/
def Chip.afterCommand (chip : Chip) (c : Cmd) (td : TD) (data : List Byte) : Chip :=
  match c with
  | .wren => { chip with wel := true, rstArmed := false }
  | .rsten => { chip with rstArmed := true }
  | .rst => { Chip.powerUp with arr := chip.arr, id := chip.id, link := chip.link }
  | .rdsr => { chip.afterStatusRead with rstArmed := false }
  | .wrcr2 => { (if chip.wel then chip.writeCr2 td.addr (byteAt data 0) else chip) with rstArmed := false }
  | .pp4b =>
    { chip with
      rstArmed := false
      arr := if chip.wel && pageOk td.addr data.length then Memory.program arrFill chip.arr td.addr.toNat data
             else chip.arr }
  | .se =>
    { chip with
      rstArmed := false
      arr := if chip.wel then
          Memory.clear chip.arr (unitStart td.addr Config.sector) (unitStart td.addr Config.sector + Config.sector)
        else chip.arr }
  | .be =>
    { chip with
      rstArmed := false
      arr := if chip.wel then
          Memory.clear chip.arr (unitStart td.addr Config.block) (unitStart td.addr Config.block + Config.block)
        else chip.arr }
  | .ce => { chip with rstArmed := false, arr := if chip.wel then Memory.clear chip.arr 0 Config.capacity else chip.arr }
  | .rdcr2 => { chip with rstArmed := false }
  | .rdid => { chip with rstArmed := false }
  | .rdcr => { chip with rstArmed := false }
  | .dtrd8 => { chip with rstArmed := false }

/-- A recognised command starts an internal cycle: RST always (log 37), a write-class command where it is not
ignored. -/
def Chip.startsCycle (chip : Chip) (c : Cmd) (td : TD) (data : List Byte) : Bool :=
  match c with
  | .rst => true
  | .wrcr2 => chip.wel
  | .pp4b => chip.wel && pageOk td.addr data.length
  | .se => chip.wel
  | .be => chip.wel
  | .ce => chip.wel
  | .wren => false | .rsten => false | .rdsr => false | .rdcr2 => false | .rdid => false | .rdcr => false
  | .dtrd8 => false

/-- The environment after a recognised command. -/
def Env.afterCommand (e : Env) (h : History) (call : Call) (c : Cmd) (td : TD) (data : List Byte) : Env :=
  if e.chip.startsCycle c td data then
    { e with
      chip := (e.chip.afterCommand c td data).startCycle (e.nextBusy h call)
      busy := e.busy.tail }
  else { e with chip := e.chip.afterCommand c td data }

/-- The descriptor of a bus transaction and the data it writes; none for the memory-mapped calls. -/
def Call.transaction (c : Call) : Option (TD × List Byte) :=
  match c with
  | .execCmd td => some (td, [])
  | .execRead td => some (td, [])
  | .execWrite td bytes => some (td, bytes)
  | .mmapEnable _ _ => none
  | .mmapDisable => none

/-- The answer of `ENV_REF`: every recognised transaction returns `Ok`; an unrecognised one anything (R73). The
memory-mapped calls return `Ok` (R76). -/
def Env.refAnswer (e : Env) (cfg : Cfg) (h : History) (call : Call) : Answer :=
  match call.transaction with
  | none => .ok []
  | some (td, data) =>
    match e.chip.recognise cfg td data with
    | some c => .ok (fitBytes h call call.dataLen (e.chip.readBytes cfg c td))
    | none => freeAnswer h call

/-- `ENV_REF` after a call (R73 to R76). -/
def Env.refNext (e : Env) (cfg : Cfg) (h : History) (call : Call) : Env :=
  match call.transaction with
  | none =>
    match call with
    | .mmapEnable _ _ => { e with mm := true }
    | .mmapDisable => { e with mm := false }
    | .execCmd _ | .execRead _ | .execWrite _ _ => e
  | some (td, data) =>
    match e.chip.recognise cfg td data with
    | some c => e.afterCommand h call c td data
    | none => { e with chip := (Config.chipDraw h call e.chip).canonical }

/-- The environment's answer to a call (30_encoding.md R100). -/
def Env.answer (e : Env) (cfg : Cfg) (h : History) (call : Call) : Answer :=
  match e.kind with
  | .any => e.anyAnswer h call
  | .reference => e.refAnswer cfg h call

/-- The environment after a call. -/
def Env.next (e : Env) (cfg : Cfg) (h : History) (call : Call) : Env :=
  match e.kind with
  | .any => e.anyNext call
  | .reference => e.refNext cfg h call

end Sys2Proof.Machine
end

