-- ==== Sys2Proof/Machine/Flags.lean ====
section
/-! DEFINITION. Codes and flags: the status and sub-cause codes, the STATUS and PROGRESS words, the response words,
the write-in-progress test and the mismatch test. -/

namespace Sys2Proof.Machine

/-- The sub-causes of a ProtocolViolation (30_encoding.md R92). -/
inductive Violation where
  | encoding | mode | page | range | mmap | faulted
deriving DecidableEq, Repr, Inhabited

/-- The exceptions (60_exceptions.md R250). -/
inductive Exn where
  | protocolViolation (v : Violation)
  | transportFault (e : TErr)
  | completionTimeout
  | initMismatch
deriving DecidableEq, Repr

/-- The sub-cause codes (R92). -/
def Violation.code (v : Violation) : BitVec 4 :=
  match v with
  | .encoding => 1
  | .mode => 2
  | .page => 3
  | .range => 4
  | .mmap => 5
  | .faulted => 6

/-- The status code of an exception (R91). -/
def Exn.code (e : Exn) : BitVec 4 :=
  match e with
  | .protocolViolation _ => 1
  | .transportFault _ => 2
  | .completionTimeout => 3
  | .initMismatch => 4

/-- Whether an exception sets FAULT (R91, R256). -/
def Exn.sticky (e : Exn) : Bool :=
  match e with
  | .protocolViolation _ => false
  | .transportFault _ => true
  | .completionTimeout => true
  | .initMismatch => true

/-- The `sub` field of an exception's response (R256). -/
def Exn.sub (e : Exn) : BitVec 4 :=
  match e with
  | .protocolViolation v => v.code
  | .transportFault _ => 0
  | .completionTimeout => 0
  | .initMismatch => 0

/-- The `info` field of an exception's response, and `FAULT_INFO` (R256). -/
def Exn.info (e : Exn) : BitVec 8 :=
  match e with
  | .protocolViolation _ => 0
  | .transportFault t => t.code
  | .completionTimeout => 0
  | .initMismatch => 0

/-- The WIP flag of a Status byte: bit `CFG.WIP_BIT` (10_state.md R29). -/
def wipSet (cfg : Cfg) (b : Byte) : Bool := b.getLsbD cfg.wipBit.val

/-- The bound of a poll is reached after `n` Status reads (42_register_access.md R166). -/
def pollExhausted (cfg : Cfg) (n : Nat) : Bool := cfg.pollLimit != 0 && decide (cfg.pollLimit ≤ n)

/-- The mismatch test at the end of INIT, all eight bits (43_init_sequencer.md R189). -/
def mismatch (vNew vRb : Byte) : Bool := vRb != vNew

/-- `BUSY` (10_state.md R30). -/
def State.busy (s : State) : Bool := s.seq != .idle

/-- The bit of `MODE`: 0 Legacy, 1 Octal (R21). -/
def modeBit (m : Mode) : Bool := m == .octal

/-- The `STATUS` word (R33), from bit 31 down. -/
def State.statusWord (s : State) : Word :=
  ((0 : BitVec 8) ++ s.faultInfo ++ s.faultOp ++ s.faultCause ++ (0 : BitVec 3) ++ BitVec.ofBool s.mmapEn
    ++ BitVec.ofBool s.initMismatch ++ BitVec.ofBool s.fault ++ BitVec.ofBool s.busy
    ++ BitVec.ofBool (modeBit s.mode)).setWidth 32

/-- The `PROGRESS` word (R33). -/
def State.progressWord (s : State) : Word := s.done

/-- Response word `Q0` (R90). -/
def Response.q0 (r : Response) : Word := ((0 : BitVec 16) ++ r.info ++ r.sub ++ r.status).setWidth 32

/-- Response word `Q1` (R90). -/
def Response.q1 (r : Response) : Word := r.payload

/-- Response word `Q2` (R90). -/
def Response.q2 (r : Response) : Word := r.done

end Sys2Proof.Machine
end

