-- ==== Sys2Proof/Machine/Ops.lean ====
section
/-! DEFINITION. The operations every meaning is made of: the transport call, taking an exception and refusing
(60_exceptions.md R252, R256), the response and the return to IDLE (R255, R261), acceptance (R253), the shared bus
transactions and the completion poll (42_register_access.md), and reset (70_reset_and_hazards.md R290). -/

namespace Sys2Proof.Machine

/-! ## The transport call -/

/-- What the environment answers a call made now. -/
def State.answerTo (s : State) (call : Call) : Answer := s.env.answer s.cfg s.trace call

/-- The state after a call: only the environment moves on and the call is recorded (10_state.md R20; 20_memory.md
R64, R67). -/
def State.called (s : State) (call : Call) : State :=
  { s with env := s.env.next s.cfg s.trace call, trace := s.trace ++ [(call, s.answerTo call)] }

/-! ## Exceptions, refusals, responses -/

/-- `raise E(info)` (60_exceptions.md R256): the one exception entry. A sticky exception sets FAULT and its record;
the response is prepared and the sequencer goes to RESP. InitMismatch alone carries the INIT payload. -/
def State.raise (s : State) (e : Exn) : State :=
  { s with
    fault := s.fault || e.sticky
    faultCause := if e.sticky then e.code else s.faultCause
    faultOp := if e.sticky then s.hop else s.faultOp
    faultInfo := if e.sticky then e.info else s.faultInfo
    rsp :=
      { status := e.code
        sub := e.sub
        info := e.info
        payload := if e = .initMismatch then initPayload true s.vOld s.vNew s.vRb else 0
        done := s.done
        rdata := [] }
    seq := .resp }

/-- `refuse(s)` (60_exceptions.md R253): a ProtocolViolation before any bus activity. -/
def State.refuse (s : State) (v : Violation) : State :=
  { s with
    rsp := { status := 1, sub := v.code, info := 0, payload := 0, done := s.done, rdata := [] }
    seq := .resp }

/-- `respond(OK, ...)` (60_exceptions.md R255). -/
def State.respondOk (s : State) (payload : Word) (rdata : List Byte) : State :=
  { s with
    rsp := { status := 0, sub := 0, info := 0, payload := payload, done := s.done, rdata := rdata }
    seq := .resp }

/-- The step of state RESP (R255), the only return from an exception there is (R261): the response goes to the
host and the sequencer to IDLE. MODEL'S CHOICE: the operand registers, which have no defined value between operations
(10_state.md R31), keep theirs (log 35). -/
def State.deliver (s : State) : State :=
  { s with responses := s.responses ++ [s.rsp], seq := .idle }

/-- `pc <- q`. -/
def State.goto (s : State) (q : Seq) : State := { s with seq := q }

/-! ## Acceptance (60_exceptions.md R253) -/

/-- Checks 1, 3 and 4 for a code that is not reserved. -/
def State.commonViolation (s : State) (h : BitVec 4) : Option Violation :=
  if s.fault then some .faulted
  else if h = hopInit ∧ s.mode = .octal then some .mode
  else if h ≠ hopInit ∧ s.mode = .legacy then some .mode
  else if s.mmapEn = true ∧ h ≠ hopMmapEnable ∧ h ≠ hopMmapDisable then some .mmap
  else none

/-- Acceptance of an operation: `own` is its check 5, `req` its operands, `load` what it loads and where it starts.
MODEL'S CHOICE: the operand registers that the operation does not load keep their old values, where 10_state.md R31
and 93 U21 give them none (log 35). While BUSY the request is held, neither accepted nor refused (30_encoding.md R83);
that `exec` then answers the same state is the model's form of it (log 18). -/
def State.accept (s : State) (h : BitVec 4) (own : Option Violation) (req : InFlight) (load : State → State) : State :=
  if s.busy then s
  else
    match s.commonViolation h with
    | some v => s.refuse v
    | none =>
      match own with
      | some v => s.refuse v
      | none => load { s with hop := h, inFlight := req }

/-- Checks 1 and 2 for a request with a reserved code or reserved bits set (R253, 30_encoding.md R82, R108). -/
def State.refuseEncoding (s : State) : State :=
  if s.busy then s
  else if s.fault then s.refuse .faulted
  else s.refuse .encoding

/-- The range check as check 5 (44_array_access.md R200). -/
def rangeCheck (a : Word) (n : Nat) : Option Violation := if inRange a n then none else some .range

/-! ## Bus transactions -/

/-- `try` around a transport call (00_scope.md section 5): an error raises TransportFault in the same step
(60_exceptions.md R257), otherwise the rest goes on with the bytes of the answer. -/
def State.attempt (s : State) (call : Call) (rest : List Byte → State → State) : State :=
  match s.answerTo call with
  | .err e => (s.called call).raise (.transportFault e)
  | .ok bs => rest bs (s.called call)

/-- A descriptor for the mode the engine is in, built as `Build(c, m, a, n)` (41_transaction_builder.md R141). A
command of the other mode's table, or a row that is not valid, is a ProtocolViolation(PV_MODE) and no call (R142). -/
def State.descriptor (s : State) (c : Cmd) (m : Mode) (a : Word) (n : Nat) : Option TD :=
  if s.mode = m then build s.cfg c m a (BitVec.ofNat 32 n) else none

/-- A command without a data phase, by `Exec` (30_encoding.md R100). -/
def State.sendCommand (s : State) (c : Cmd) (m : Mode) (a : Word) : State :=
  match s.descriptor c m a 0 with
  | none => s.raise (.protocolViolation .mode)
  | some td => s.attempt (.execCmd td) fun _ t => t

/-- A read of `n` bytes by `ExecRead`, of which `store` gets the first `k` (42_register_access.md R162). -/
def State.sendRead (s : State) (c : Cmd) (m : Mode) (a : Word) (n k : Nat) (store : List Byte → State → State) :
    State :=
  match s.descriptor c m a n with
  | none => s.raise (.protocolViolation .mode)
  | some td => s.attempt (.execRead td) fun bs t => store (bs.take k) t

/-- A write of the data by `ExecWrite`. -/
def State.sendWrite (s : State) (c : Cmd) (m : Mode) (a : Word) (data : List Byte) : State :=
  match s.descriptor c m a data.length with
  | none => s.raise (.protocolViolation .mode)
  | some td => s.attempt (.execWrite td data) fun _ t => t

/-- `x[V_RB] <- bytes[0]` (42_register_access.md R162). -/
def storeVRb (bs : List Byte) (s : State) : State := { s with vRb := byteAt bs 0 }

/-- `x[RBUF] <- bytes` (R170, 44_array_access.md R202). -/
def storeRbuf (bs : List Byte) (s : State) : State := { s with rbuf := bs }

/-- `ReadReg(c, a, 1)` with its result in V_RB (42_register_access.md R162). -/
def State.readRegister (s : State) (c : Cmd) (m : Mode) (a : Word) : State :=
  s.sendRead c m a (wireLen s.cfg c m 1) 1 storeVRb

/-! ## The completion poll (42_register_access.md R166) -/

/-- Entry of a poll: `x[POLL_N] <- 0` (log 13). -/
def State.startPoll (s : State) (q : Seq) : State := { s with pollN := 0, seq := q }

/-- What follows a Status read of the poll, its byte in V_RB: the poll returns, raises CompletionTimeout, or stays
for another read. -/
def State.afterPollRead (s : State) (finish : State → State) : State :=
  if wipSet s.cfg s.vRb = false then finish { s with pollN := s.pollN + 1 }
  else if pollExhausted s.cfg (s.pollN + 1) then ({ s with pollN := s.pollN + 1 } : State).raise .completionTimeout
  else { s with pollN := s.pollN + 1 }

/-! ## Reset (70_reset_and_hazards.md R290) -/

/-- The reset of the engine: every state element of 10_state.md R37 takes its reset value, in any state; nothing
outside the engine is touched and no call is made. The operand registers, unspecified there, take the values of
`State.reset` (log 3, log 17). -/
def State.engineReset (s : State) : State :=
  { State.reset with
    cfg := s.cfg
    host := s.host
    responses := s.responses
    env := s.env
    trace := s.trace }

end Sys2Proof.Machine
end

