-- ==== Sys2Proof/Machine/Array.lean ====
section
/-! DEFINITION. `flash_array_access_sequencer` (44_array_access.md): READ, PROGRAM and the erases, and the two steps
of PROGRAM that make no transport call. -/

namespace Sys2Proof.Machine

/-- READ (R202): a zero length responds at once, with no transport call. -/
def execRead (addr len : Word) (s : State) : Host.Outcome State Fault Refusal :=
  .next (s.accept hopRead (rangeCheck addr len.toNat) ⟨addr, len, []⟩ fun t =>
    if len = 0 then t.respondOk 0 [] else t.goto .rdRd)

/-- PROGRAM (R205): the operand registers are loaded and DONE cleared. -/
def execProgram (addr len : Word) (wdata : List Byte) (s : State) : Host.Outcome State Fault Refusal :=
  .next (s.accept hopProgram (rangeCheck addr len.toNat) ⟨addr, len, wdata⟩ fun t =>
    { t with aCur := addr, nLeft := len, off := 0, done := 0, seq := .pgSplit })

/-- ERASE_SECTOR (R208): the address is sent as given, aligned or not. -/
def execEraseSector (addr : Word) (s : State) : Host.Outcome State Fault Refusal :=
  .next (s.accept hopEraseSector (rangeCheck addr 1) ⟨addr, 0, []⟩ fun t => { t with aCur := addr, seq := .erWren })

/-- ERASE_BLOCK (R209). -/
def execEraseBlock (addr : Word) (s : State) : Host.Outcome State Fault Refusal :=
  .next (s.accept hopEraseBlock (rangeCheck addr 1) ⟨addr, 0, []⟩ fun t => { t with aCur := addr, seq := .erWren })

/-- ERASE_CHIP (R210): no address. -/
def execEraseChip (s : State) : Host.Outcome State Fault Refusal :=
  .next (s.accept hopEraseChip none ⟨0, 0, []⟩ fun t => t.goto .erWren)

/-- State PG_SPLIT (R205): the next chunk, guarded by PageOK before its Write Enable (R203), or the response. -/
def State.programSplit (s : State) : State :=
  if s.nLeft = 0 then s.respondOk 0 []
  else if pageOk s.aCur (BitVec.ofNat 9 (chunkLen s.aCur.toNat s.nLeft.toNat)).toNat then
    { s with chunk := BitVec.ofNat 9 (chunkLen s.aCur.toNat s.nLeft.toNat), seq := .pgWren }
  else
    ({ s with chunk := BitVec.ofNat 9 (chunkLen s.aCur.toNat s.nLeft.toNat) } : State).raise (.protocolViolation .page)

/-- State PG_ADV (R205): address, buffer offset and DONE advance by the chunk length. -/
def State.programAdvance (s : State) : State :=
  { s with
    aCur := s.aCur + s.chunk.setWidth 32
    off := s.off + s.chunk.setWidth 32
    nLeft := s.nLeft - s.chunk.setWidth 32
    done := s.done + s.chunk.setWidth 32
    seq := .pgSplit }

/-- The bytes of the current chunk, `wdata[OFF .. OFF + CHUNK)` (R205). -/
def State.chunkData (s : State) : List Byte := (s.inFlight.wdata.drop s.off.toNat).take s.chunk.toNat

end Sys2Proof.Machine
end

