-- ==== Sys2Proof/Machine/Init.lean ====
section
/-! DEFINITION. `octal_dtr_init_fsm` (43_init_sequencer.md): INIT, and the steps of it that make no transport call. -/

namespace Sys2Proof.Machine

/-- INIT (R181, R182): acceptance, then state INIT_RSTEN. -/
def execInit (s : State) : Host.Outcome State Fault Refusal :=
  .next (s.accept hopInit none ⟨0, 0, []⟩ fun t => t.goto .initRsten)

/-- The byte INIT writes: the byte read with bit 1 set (R186). -/
def State.initByte (s : State) : Byte := s.vOld ||| Config.cr2Dopi

/-- State INIT_FLIP (R187): `x[MODE] <- 1`, no transport call. -/
def State.initFlip (s : State) : State := { s with mode := .octal, seq := .initVerify }

/-- The end of INIT, the read-back in V_RB (R189, R190): INIT_MISMATCH is written, then the response or the
exception InitMismatch. -/
def State.initConclude (s : State) : State :=
  if mismatch s.vNew s.vRb = true ∧ s.cfg.initMismatchFatal = true then
    ({ s with initMismatch := true } : State).raise .initMismatch
  else
    ({ s with initMismatch := mismatch s.vNew s.vRb } : State).respondOk
      (initPayload (mismatch s.vNew s.vRb) s.vOld s.vNew s.vRb) []

end Sys2Proof.Machine
end

