-- ==== Sys2Proof/Machine/Mmap.lean ====
section
/-! DEFINITION. `memory_mapped_window_controller` (45_memory_mapped.md): MMAP_ENABLE and MMAP_DISABLE and the one
transport call of each. -/

namespace Sys2Proof.Machine

/-- MMAP_ENABLE (R233). -/
def execMmapEnable (s : State) : Host.Outcome State Fault Refusal :=
  .next (s.accept hopMmapEnable none ⟨0, 0, []⟩ fun t => t.goto .mmEn)

/-- MMAP_DISABLE (R235). -/
def execMmapDisable (s : State) : Host.Outcome State Fault Refusal :=
  .next (s.accept hopMmapDisable none ⟨0, 0, []⟩ fun t => t.goto .mmDis)

/-- State MM_EN (R233): the call with the two templates; MMAP_EN is set only when it returned `Ok`. -/
def State.windowEnable (s : State) : State :=
  s.attempt (.mmapEnable (templateRead s.cfg) (templateWrite s.cfg)) fun _ t =>
    ({ t with mmapEn := true } : State).respondOk 0 []

/-- State MM_DIS (R235): the call cannot fail (30_encoding.md R100). -/
def State.windowDisable (s : State) : State :=
  ({ s.called .mmapDisable with mmapEn := false } : State).respondOk 0 []

end Sys2Proof.Machine
end

