-- ==== Sys2Proof/Machine/Register.lean ====
section
/-! DEFINITION. `register_access_controller` (42_register_access.md): the register operations. Each is accepted
(60_exceptions.md R253) and goes to its first sequencer state (10_state.md R30). -/

namespace Sys2Proof.Machine

/-- READ_ID (R170). -/
def execReadId (s : State) : Host.Outcome State Fault Refusal :=
  .next (s.accept hopReadId none ⟨0, 0, []⟩ fun t => t.goto .ridRd)

/-- READ_STATUS (R167). -/
def execReadStatus (s : State) : Host.Outcome State Fault Refusal :=
  .next (s.accept hopReadStatus none ⟨0, 0, []⟩ fun t => t.goto .rsrRd)

/-- The check of READ_CFG: the catalog row RDCR is valid in the mode (R168). -/
def rdcrCheck (s : State) : Option Violation :=
  if (catalog s.cfg s.mode .rdcr).isSome then none else some .mode

/-- READ_CFG (R168). -/
def execReadCfg (s : State) : Host.Outcome State Fault Refusal :=
  .next (s.accept hopReadCfg (rdcrCheck s) ⟨0, 0, []⟩ fun t => t.goto .rcrRd)

/-- READ_CFG2 (R169): the address is not range-checked. -/
def execReadCfg2 (addr : Word) (s : State) : Host.Outcome State Fault Refusal :=
  .next (s.accept hopReadCfg2 none ⟨addr, 0, []⟩ fun t => t.goto .rc2Rd)

/-- WRITE_CFG2 (R171): A_CUR and V_NEW are loaded; address and value are not looked at. -/
def execWriteCfg2 (addr : Word) (val : Byte) (s : State) : Host.Outcome State Fault Refusal :=
  .next (s.accept hopWriteCfg2 none ⟨addr, 0, []⟩ fun t => { t with aCur := addr, vNew := val, seq := .wc2Wren })

end Sys2Proof.Machine
end

