-- ==== Sys2Proof/Machine/Reserved.lean ====
section
/-! DEFINITION. The reserved operation codes (30_encoding.md R108): each request is refused with
ProtocolViolation(PV_ENCODING), or PV_FAULTED first (60_exceptions.md R253). -/

namespace Sys2Proof.Machine

/-- `hop` 0x0. -/
def execReservedHop0 (s : State) : Host.Outcome State Fault Refusal := .next s.refuseEncoding

/-- `hop` 0xE. -/
def execReservedHopE (s : State) : Host.Outcome State Fault Refusal := .next s.refuseEncoding

/-- `hop` 0xF. -/
def execReservedHopF (s : State) : Host.Outcome State Fault Refusal := .next s.refuseEncoding

end Sys2Proof.Machine
end

