-- ==== Sys2Proof/Machine/WireLegacy.lean ====
section
/-! DEFINITION. The LEGACY8 wire commands (40_command_catalog.md R122, R128 to R135): each is one bus transaction,
built from the Legacy table and made only while `MODE` is Legacy (30_encoding.md R105, 41_transaction_builder.md
R142; log 11). -/

namespace Sys2Proof.Machine

/-- WREN (R128, 42_register_access.md R164). -/
def execWrenL (s : State) : Host.Outcome State Fault Refusal := .next (s.sendCommand .wren .legacy 0)

/-- RSTEN (R129). -/
def execRstenL (s : State) : Host.Outcome State Fault Refusal := .next (s.sendCommand .rsten .legacy 0)

/-- RST (R130). -/
def execRstL (s : State) : Host.Outcome State Fault Refusal := .next (s.sendCommand .rst .legacy 0)

/-- RDSR (R131): one byte, kept in V_RB. -/
def execRdsrL (s : State) : Host.Outcome State Fault Refusal := .next (s.readRegister .rdsr .legacy 0)

/-- RDCR2 (R132): one byte, kept in V_RB. -/
def execRdcr2L (addr : Word) (s : State) : Host.Outcome State Fault Refusal :=
  .next (s.readRegister .rdcr2 .legacy addr)

/-- WRCR2 (R133): the value as one byte (42_register_access.md R163). -/
def execWrcr2L (addr : Word) (val : Byte) (s : State) : Host.Outcome State Fault Refusal :=
  .next (s.sendWrite .wrcr2 .legacy addr (widen val .legacy))

/-- RDID (R134): three bytes, kept in RBUF. -/
def execRdidL (s : State) : Host.Outcome State Fault Refusal :=
  .next (s.sendRead .rdid .legacy 0 (wireLen s.cfg .rdid .legacy Config.idLen) Config.idLen storeRbuf)

/-- RDCR (R135): a transaction only where the configuration has the row. -/
def execRdcrL (s : State) : Host.Outcome State Fault Refusal := .next (s.readRegister .rdcr .legacy 0)

end Sys2Proof.Machine
end

