-- ==== Sys2Proof/Machine/WireOctal.lean ====
section
/-! DEFINITION. The OCTAL16 wire commands (40_command_catalog.md R123, R128 to R140): each is one bus transaction,
built from the Octal table and made only while `MODE` is Octal (30_encoding.md R105, 41_transaction_builder.md R142;
log 11). -/

namespace Sys2Proof.Machine

/-- WREN (R128, 42_register_access.md R164). -/
def execWrenO (s : State) : Host.Outcome State Fault Refusal := .next (s.sendCommand .wren .octal 0)

/-- RSTEN (R129). -/
def execRstenO (s : State) : Host.Outcome State Fault Refusal := .next (s.sendCommand .rsten .octal 0)

/-- RST (R130). -/
def execRstO (s : State) : Host.Outcome State Fault Refusal := .next (s.sendCommand .rst .octal 0)

/-- RDSR (R131): two bytes, the first kept in V_RB. -/
def execRdsrO (s : State) : Host.Outcome State Fault Refusal := .next (s.readRegister .rdsr .octal 0)

/-- RDCR2 (R132): two bytes, the first kept in V_RB. -/
def execRdcr2O (addr : Word) (s : State) : Host.Outcome State Fault Refusal :=
  .next (s.readRegister .rdcr2 .octal addr)

/-- WRCR2 (R133): the value widened to two bytes (42_register_access.md R163). -/
def execWrcr2O (addr : Word) (val : Byte) (s : State) : Host.Outcome State Fault Refusal :=
  .next (s.sendWrite .wrcr2 .octal addr (widen val .octal))

/-- RDID (R134): three bytes at single rate, kept in RBUF. -/
def execRdidO (s : State) : Host.Outcome State Fault Refusal :=
  .next (s.sendRead .rdid .octal 0 (wireLen s.cfg .rdid .octal Config.idLen) Config.idLen storeRbuf)

/-- 8DTRD (R136): `MemRead(addr, len)` (44_array_access.md R201), the bytes kept in RBUF. -/
def execDtrd8O (addr len : Word) (s : State) : Host.Outcome State Fault Refusal :=
  .next (s.sendRead .dtrd8 .octal addr len.toNat len.toNat storeRbuf)

/-- PP4B (R137): `MemWrite(addr, n, v)`; a range that leaves its page raises PV_PAGE and is never issued
(44_array_access.md R203). -/
def execPp4bO (addr : Word) (data : List Byte) (s : State) : Host.Outcome State Fault Refusal :=
  .next (if pageOk addr data.length then s.sendWrite .pp4b .octal addr data
    else s.raise (.protocolViolation .page))

/-- SE (R138): the address unchanged. -/
def execSeO (addr : Word) (s : State) : Host.Outcome State Fault Refusal := .next (s.sendCommand .se .octal addr)

/-- BE (R139): the address unchanged. -/
def execBeO (addr : Word) (s : State) : Host.Outcome State Fault Refusal := .next (s.sendCommand .be .octal addr)

/-- CE (R140): no address phase. -/
def execCeO (s : State) : Host.Outcome State Fault Refusal := .next (s.sendCommand .ce .octal 0)

/-- RDCR (R135): a transaction only where the configuration has the row. -/
def execRdcrO (s : State) : Host.Outcome State Fault Refusal := .next (s.readRegister .rdcr .octal 0)

end Sys2Proof.Machine
end

