-- ==== Sys2Proof/Machine/Dispatch.lean ====
section
/-! DEFINITION. Which meaning each instruction has. -/

namespace Sys2Proof.Machine

def exec (i : Instr) (s : State) : Host.Outcome State Fault Refusal :=
  match i with
  -- host operations (30_encoding.md R81)
  | .init => Sys2Proof.Machine.execInit s
  | .readId => Sys2Proof.Machine.execReadId s
  | .readStatus => Sys2Proof.Machine.execReadStatus s
  | .readCfg => Sys2Proof.Machine.execReadCfg s
  | .readCfg2 addr => Sys2Proof.Machine.execReadCfg2 addr s
  | .writeCfg2 addr val => Sys2Proof.Machine.execWriteCfg2 addr val s
  | .read addr len => Sys2Proof.Machine.execRead addr len s
  | .program addr len wdata => Sys2Proof.Machine.execProgram addr len wdata s
  | .eraseSector addr => Sys2Proof.Machine.execEraseSector addr s
  | .eraseBlock addr => Sys2Proof.Machine.execEraseBlock addr s
  | .eraseChip => Sys2Proof.Machine.execEraseChip s
  | .mmapEnable => Sys2Proof.Machine.execMmapEnable s
  | .mmapDisable => Sys2Proof.Machine.execMmapDisable s
  -- reserved codes (R108)
  | .reservedHop0 => Sys2Proof.Machine.execReservedHop0 s
  | .reservedHopE => Sys2Proof.Machine.execReservedHopE s
  | .reservedHopF => Sys2Proof.Machine.execReservedHopF s
  -- wire commands (40_command_catalog.md R122, R123)
  | .wrenL => Sys2Proof.Machine.execWrenL s
  | .wrenO => Sys2Proof.Machine.execWrenO s
  | .rstenL => Sys2Proof.Machine.execRstenL s
  | .rstenO => Sys2Proof.Machine.execRstenO s
  | .rstL => Sys2Proof.Machine.execRstL s
  | .rstO => Sys2Proof.Machine.execRstO s
  | .rdsrL => Sys2Proof.Machine.execRdsrL s
  | .rdsrO => Sys2Proof.Machine.execRdsrO s
  | .rdcr2L addr => Sys2Proof.Machine.execRdcr2L addr s
  | .rdcr2O addr => Sys2Proof.Machine.execRdcr2O addr s
  | .wrcr2L addr val => Sys2Proof.Machine.execWrcr2L addr val s
  | .wrcr2O addr val => Sys2Proof.Machine.execWrcr2O addr val s
  | .rdidL => Sys2Proof.Machine.execRdidL s
  | .rdidO => Sys2Proof.Machine.execRdidO s
  | .dtrd8O addr len => Sys2Proof.Machine.execDtrd8O addr len s
  | .pp4bO addr data => Sys2Proof.Machine.execPp4bO addr data s
  | .seO addr => Sys2Proof.Machine.execSeO addr s
  | .beO addr => Sys2Proof.Machine.execBeO addr s
  | .ceO => Sys2Proof.Machine.execCeO s
  | .rdcrL => Sys2Proof.Machine.execRdcrL s
  | .rdcrO => Sys2Proof.Machine.execRdcrO s

end Sys2Proof.Machine
end

