-- ==== Sys2Proof/Machine/Sequencer.lean ====
section
/-! DEFINITION. The sequencer (10_state.md R30): which wire command a state issues, what the operation does with its
answer, and what one step is. -/

namespace Sys2Proof.Machine

/-- What a sequencer state that makes a bus transaction issues. -/
inductive Issued where
  /-- The wire command. -/
  | command (i : Instr)
  /-- The mode's table has no such row: `Build` raises ProtocolViolation(PV_MODE) (41_transaction_builder.md R142). -/
  | noRow
  /-- ER_CMD with a HOP that is no erase code (log 15). -/
  | unloaded
deriving DecidableEq, Repr

/-- The Legacy or the Octal form of a command, by `MODE` (10_state.md R22). -/
def byMode (m : Mode) (l o : Instr) : Issued :=
  match m with
  | .legacy => .command l
  | .octal => .command o

/-- A command of the Octal table alone (30_encoding.md R109). -/
def octalOnly (m : Mode) (o : Instr) : Issued :=
  match m with
  | .legacy => .noRow
  | .octal => .command o

/-- The erase command of the operation in flight (44_array_access.md R208 to R210). -/
def State.eraseCommand (s : State) : Issued :=
  if s.hop = hopEraseSector then octalOnly s.mode (.seO s.aCur)
  else if s.hop = hopEraseBlock then octalOnly s.mode (.beO s.aCur)
  else if s.hop = hopEraseChip then octalOnly s.mode .ceO
  else .unloaded

/-- The wire command a state issues (R30); `none` for the states that issue none: IDLE, RESP, INIT_FLIP, PG_SPLIT,
PG_ADV, and MM_EN and MM_DIS, whose call is no bus transaction. -/
def State.issue (s : State) : Option Issued :=
  match s.seq with
  | .initRsten => some (byMode s.mode .rstenL .rstenO)
  | .initRst => some (byMode s.mode .rstL .rstO)
  | .initPoll | .wc2Poll | .pgPoll | .erPoll | .rsrRd => some (byMode s.mode .rdsrL .rdsrO)
  | .initRdcr2 | .initVerify => some (byMode s.mode (.rdcr2L Config.cr2AddrMode) (.rdcr2O Config.cr2AddrMode))
  | .initWren | .wc2Wren | .pgWren | .erWren => some (byMode s.mode .wrenL .wrenO)
  | .initWrcr2 => some (byMode s.mode (.wrcr2L Config.cr2AddrMode s.vNew) (.wrcr2O Config.cr2AddrMode s.vNew))
  | .ridRd => some (byMode s.mode .rdidL .rdidO)
  | .rcrRd => some (byMode s.mode .rdcrL .rdcrO)
  | .rc2Rd => some (byMode s.mode (.rdcr2L s.inFlight.addr) (.rdcr2O s.inFlight.addr))
  | .wc2Wr => some (byMode s.mode (.wrcr2L s.aCur s.vNew) (.wrcr2O s.aCur s.vNew))
  | .rdRd => some (octalOnly s.mode (.dtrd8O s.inFlight.addr s.inFlight.len))
  | .pgPp => some (octalOnly s.mode (.pp4bO s.aCur s.chunkData))
  | .erCmd => some s.eraseCommand
  | .idle | .initFlip | .pgSplit | .pgAdv | .mmEn | .mmDis | .resp => none

/-- The registers a state writes before its call: INIT_WRCR2 alone, `x[V_NEW] <- x[V_OLD] | 0x02`
(43_init_sequencer.md R182). -/
def State.prepare (s : State) : State :=
  if s.seq = .initWrcr2 then { s with vNew := s.initByte } else s

/-- What the operation in flight does after the call of its state returned `Ok`, the bytes in V_RB or RBUF
(R166 to R171, R182, R202, R205, R207). A call that raised left the sequencer in RESP, where nothing is added. -/
def State.advance (s : State) : State :=
  match s.seq with
  | .initRsten => s.goto .initRst
  | .initRst => s.startPoll .initPoll
  | .initPoll => s.afterPollRead fun t => t.goto .initRdcr2
  | .initRdcr2 => { s with vOld := s.vRb, seq := .initWren }
  | .initWren => s.goto .initWrcr2
  | .initWrcr2 => s.goto .initFlip
  | .initVerify => s.initConclude
  | .ridRd => s.respondOk (idPayload s.rbuf) []
  | .rsrRd => s.respondOk (bytePayload s.vRb) []
  | .rcrRd => s.respondOk (bytePayload s.vRb) []
  | .rc2Rd => s.respondOk (bytePayload s.vRb) []
  | .wc2Wren => s.goto .wc2Wr
  | .wc2Wr => s.startPoll .wc2Poll
  | .wc2Poll => s.afterPollRead fun t => t.respondOk 0 []
  | .rdRd => s.respondOk 0 s.rbuf
  | .pgWren => s.goto .pgPp
  | .pgPp => s.startPoll .pgPoll
  | .pgPoll => s.afterPollRead fun t => t.goto .pgAdv
  | .erWren => s.goto .erCmd
  | .erCmd => s.startPoll .erPoll
  | .erPoll => s.afterPollRead fun t => t.respondOk 0 []
  | .idle | .initFlip | .pgSplit | .pgAdv | .mmEn | .mmDis | .resp => s

/-- What one step does. -/
inductive Plan where
  /-- The step is settled without an instruction. -/
  | settled (o : Host.Outcome State Fault Refusal)
  /-- The host request decodes to `i`, which runs in `s`. -/
  | accept (i : Instr) (s : State)
  /-- The sequencer issues the wire command `i`, which runs in `s`, and then the operation goes on. -/
  | call (i : Instr) (s : State)

/-- IDLE (60_exceptions.md R253): the request at the port is taken; with none the engine does nothing
(70_reset_and_hazards.md R293). Reserved bits set in W0 are refused (30_encoding.md R82). -/
def State.planIdle (s : State) : Plan :=
  match s.host with
  | [] => .settled (.next s)
  | r :: rest =>
    match decodeHost r.w0 r.w1 r.w2 r.wdata with
    | .ok i => .accept i { s with host := rest }
    | .error .reservedBits => .settled (.next ({ s with host := rest } : State).refuseEncoding)
    | .error .streamLength => .settled (.refused .inexpressibleRequest)
    | .error .malformed => .settled (.refused .inexpressibleRequest)
    | .error .unknownOpcode => .settled (.refused .inexpressibleRequest)
    | .error .shape => .settled (.refused .inexpressibleRequest)
    | .error .dataPhase => .settled (.refused .inexpressibleRequest)

/-- The step of a state that issues a bus transaction. -/
def State.planCall (s : State) (x : Issued) : Plan :=
  match x with
  | .command i => .call i s
  | .noRow => .settled (.next (s.raise (.protocolViolation .mode)))
  | .unloaded => .settled (.fault .seqReadsUnloadedHop)

/-- The step a state takes: the reset input first (70_reset_and_hazards.md R290), then by sequencer state (R30). -/
def State.plan (s : State) : Plan :=
  if s.rst then .settled (.next s.engineReset)
  else
    match s.prepare.issue with
    | some x => s.prepare.planCall x
    | none =>
      match s.seq with
      | .resp => .settled (.next s.deliver)
      | .initFlip => .settled (.next s.initFlip)
      | .pgSplit => .settled (.next s.programSplit)
      | .pgAdv => .settled (.next s.programAdvance)
      | .mmEn => .settled (.next s.windowEnable)
      | .mmDis => .settled (.next s.windowDisable)
      | .idle => s.planIdle
      | .initRsten | .initRst | .initPoll | .initRdcr2 | .initWren | .initWrcr2 | .initVerify | .ridRd | .rsrRd
      | .rcrRd | .rc2Rd | .wc2Wren | .wc2Wr | .wc2Poll | .rdRd | .pgWren | .pgPp | .pgPoll | .erWren | .erCmd
      | .erPoll => .settled (.next s)

/-- What a wire command's next state becomes: the operation in flight goes on. -/
def resume (o : Host.Outcome State Fault Refusal) : Host.Outcome State Fault Refusal :=
  match o with
  | .next t => .next t.advance
  | .fault r => .fault r
  | .refused r => .refused r

/-- The state with the sequencer, the mode and the operand registers such that the next step issues the wire
command (log 10); a host operation is issued from the port, not from here. -/
def State.placeWire (s : State) (i : Instr) : State :=
  match i with
  | .wrenL => { s with rst := false, mode := .legacy, seq := .initWren }
  | .wrenO => { s with rst := false, mode := .octal, seq := .wc2Wren }
  | .rstenL => { s with rst := false, mode := .legacy, seq := .initRsten }
  | .rstenO => { s with rst := false, mode := .octal, seq := .initRsten }
  | .rstL => { s with rst := false, mode := .legacy, seq := .initRst }
  | .rstO => { s with rst := false, mode := .octal, seq := .initRst }
  | .rdsrL => { s with rst := false, mode := .legacy, seq := .rsrRd }
  | .rdsrO => { s with rst := false, mode := .octal, seq := .rsrRd }
  | .rdcr2L a => { s with rst := false, mode := .legacy, seq := .rc2Rd, inFlight := { s.inFlight with addr := a } }
  | .rdcr2O a => { s with rst := false, mode := .octal, seq := .rc2Rd, inFlight := { s.inFlight with addr := a } }
  | .wrcr2L a v => { s with rst := false, mode := .legacy, seq := .wc2Wr, aCur := a, vNew := v }
  | .wrcr2O a v => { s with rst := false, mode := .octal, seq := .wc2Wr, aCur := a, vNew := v }
  | .rdidL => { s with rst := false, mode := .legacy, seq := .ridRd }
  | .rdidO => { s with rst := false, mode := .octal, seq := .ridRd }
  | .dtrd8O a n =>
    { s with rst := false, mode := .octal, seq := .rdRd, inFlight := { s.inFlight with addr := a, len := n } }
  | .pp4bO a data =>
    { s with
      rst := false
      mode := .octal
      seq := .pgPp
      aCur := a
      off := 0
      chunk := BitVec.ofNat 9 data.length
      inFlight := { s.inFlight with wdata := data } }
  | .seO a => { s with rst := false, mode := .octal, seq := .erCmd, hop := hopEraseSector, aCur := a }
  | .beO a => { s with rst := false, mode := .octal, seq := .erCmd, hop := hopEraseBlock, aCur := a }
  | .ceO => { s with rst := false, mode := .octal, seq := .erCmd, hop := hopEraseChip }
  | .rdcrL => { s with rst := false, mode := .legacy, seq := .rcrRd }
  | .rdcrO => { s with rst := false, mode := .octal, seq := .rcrRd }
  | .init | .readId | .readStatus | .readCfg | .readCfg2 _ | .writeCfg2 _ _ | .read _ _ | .program _ _ _
  | .eraseSector _ | .eraseBlock _ | .eraseChip | .mmapEnable | .mmapDisable | .reservedHop0 | .reservedHopE
  | .reservedHopF => s

/-- The state in which the next step takes these words: a request at the host port of an idle engine, a wire command
at the sequencer state that issues it (log 10). -/
def State.placeWords (s : State) (w : Words) : State :=
  match w with
  | .host w0 w1 w2 wdata => { s with rst := false, seq := .idle, host := ⟨w0, w1, w2, wdata⟩ :: s.host }
  | .wire p data =>
    match decode Cfg.ref (.wire p data) with
    | .ok i => s.placeWire i
    | .error _ => s

end Sys2Proof.Machine
end

