-- ==== Sys2Proof/Machine/Step.lean ====
section
/-! DEFINITION. One step of the engine (10_state.md R30) and the placing of an instruction for it. -/

namespace Sys2Proof.Machine

/-- One step: at most one instruction and at most one transport call. -/
def step (s : State) : Host.Outcome State Fault Refusal :=
  match s.plan with
  | .settled o => o
  | .accept i t => exec i t
  | .call i t => resume (exec i t)

/-- The state with an instruction of spec/opcode_table.json placed where the next step takes it (log 10). -/
def State.withFetchWord (s : State) (nbits w : Nat) : State := s.placeWords (tableWords nbits w)

end Sys2Proof.Machine
end

