-- ==== Sys2Proof/Safety.lean ====
section
/-! DEFINITION. What claims are made in: which states a run reaches (`Consistent`), which transport calls the engine
makes (`Call.wellShaped`), the Write Enable pairing, and what a host can present. -/

namespace Sys2Proof.Machine

/-! ## States -/

/-- The states of INIT before and at the flip (43_init_sequencer.md R182). -/
def Seq.beforeFlip (q : Seq) : Bool :=
  [Seq.initRsten, .initRst, .initPoll, .initRdcr2, .initWren, .initWrcr2, .initFlip].contains q

/-- The states in which no operation is in flight or its response waits. -/
def Seq.settledState (q : Seq) : Bool := q == .idle || q == .resp

/-- The states of PROGRAM (44_array_access.md R205). -/
def Seq.inProgram (q : Seq) : Bool := [Seq.pgSplit, .pgWren, .pgPp, .pgPoll, .pgAdv].contains q

/-- The states of PROGRAM in which a chunk is in work. -/
def Seq.inChunk (q : Seq) : Bool := [Seq.pgWren, .pgPp, .pgPoll, .pgAdv].contains q

/-- The states of an erase (R207). -/
def Seq.inErase (q : Seq) : Bool := [Seq.erWren, .erCmd, .erPoll].contains q

/-- The states that issue a write-class command, directly after a Write Enable (20_memory.md R69). -/
def Seq.afterWren (q : Seq) : Bool := [Seq.initWrcr2, .wc2Wr, .pgPp, .erCmd].contains q

/-- HOP holds the code of the operation whose states these are (10_state.md R30, R31). -/
def Seq.hopAgrees (q : Seq) (h : BitVec 4) : Bool :=
  match q with
  | .initRsten | .initRst | .initPoll | .initRdcr2 | .initWren | .initWrcr2 | .initFlip | .initVerify => h == hopInit
  | .ridRd => h == hopReadId
  | .rsrRd => h == hopReadStatus
  | .rcrRd => h == hopReadCfg
  | .rc2Rd => h == hopReadCfg2
  | .wc2Wren | .wc2Wr | .wc2Poll => h == hopWriteCfg2
  | .rdRd => h == hopRead
  | .pgSplit | .pgWren | .pgPp | .pgPoll | .pgAdv => h == hopProgram
  | .erWren | .erCmd | .erPoll => h == hopEraseSector || h == hopEraseBlock || h == hopEraseChip
  | .mmEn => h == hopMmapEnable
  | .mmDis => h == hopMmapDisable
  | .idle | .resp => true

/-- The registers of a PROGRAM in flight (44_array_access.md R205, R212): the buffer has `len` bytes, OFF of them are
behind, N_LEFT ahead, A_CUR and DONE follow OFF, and the range lies in the array. -/
structure ProgramRegs (s : State) : Prop where
  buffer : s.inFlight.wdata.length = s.inFlight.len.toNat
  parts : s.off.toNat + s.nLeft.toNat = s.inFlight.len.toNat
  address : s.aCur.toNat = s.inFlight.addr.toNat + s.off.toNat
  doneIsOff : s.done = s.off
  range : s.inFlight.addr.toNat + s.inFlight.len.toNat ≤ Config.capacity

/-- The invariant of the engine: which combinations of registers a run reaches. -/
structure Consistent (s : State) : Prop where
  /-- The fault record is 0 while FAULT is (10_state.md R25). -/
  noFaultNoRecord : s.fault = false → s.faultCause = 0 ∧ s.faultOp = 0 ∧ s.faultInfo = 0
  /-- FAULT stops the engine (60_exceptions.md R254). -/
  faultStops : s.fault = true → s.seq.settledState = true
  /-- In Legacy mode only INIT runs (43_init_sequencer.md R181), and nothing that needs Octal has happened. -/
  legacyOnlyInit : s.mode = .legacy →
    (s.seq.settledState = true ∨ s.seq.beforeFlip = true) ∧ s.mmapEn = false ∧ s.initMismatch = false
  /-- In Octal mode INIT is past its flip (R187, R193). -/
  octalPastFlip : s.mode = .octal → s.seq.beforeFlip = false
  /-- While the window is enabled only the two window operations run (45_memory_mapped.md R231). -/
  windowAlone : s.mmapEn = true → s.seq.settledState = true ∨ s.seq = .mmEn ∨ s.seq = .mmDis
  /-- HOP is the operation in flight (10_state.md R31). -/
  hopAgrees : s.seq.hopAgrees s.hop = true
  /-- The registers of a PROGRAM in flight. -/
  programRegs : s.seq.inProgram = true → ProgramRegs s
  /-- The chunk in work is the splitter's (R204). -/
  chunkRegs : s.seq.inChunk = true →
    1 ≤ s.nLeft.toNat ∧ s.chunk.toNat = chunkLen s.aCur.toNat s.nLeft.toNat
  /-- READ_CFG runs only where the catalog has its row (42_register_access.md R168). -/
  rdcrRow : s.seq = .rcrRd → s.cfg.rdcr ≠ none
  /-- An erase address lies in the array (44_array_access.md R200). -/
  eraseRange : s.seq.inErase = true → s.hop ≠ hopEraseChip → s.aCur.toNat < Config.capacity

/-! ## Transport calls -/

/-- A descriptor has one of the two profiles (41_transaction_builder.md R148): all single-line single-rate with an
8-bit opcode, or eight-line double-rate with a 16-bit one, but for the data rate of RDID. -/
def TD.profile (td : TD) : Bool :=
  match td.isz with
  | .op8 =>
    td.iw == .l1 && td.ir == .str && td.aw == .l1 && td.ar == .str && td.dw == .l1 && td.dr == .str
  | .op16 =>
    td.iw == .l8 && td.ir == .dtr && (!td.ap || (td.aw == .l8 && td.ar == .dtr))
      && (td.dd == .none || (td.dw == .l8 && (td.dr == .dtr || td.opcode == 0x9F60)))

/-- The Octal opcode of a register-class command with an even length (42_register_access.md R172): RDSR, RDCR2, WRCR2,
and RDCR where the configuration has its row with an opcode that is no other row's (log 30). -/
def registerOpcode (cfg : Cfg) (op : BitVec 16) : Bool :=
  [0x05FA, 0x718E, 0x728D].contains op || (cfg.rdcrOctalOk && cfg.rdcr.any fun r => r.o == op)

/-- A register-class transaction in Octal mode moves an even number of bytes (42_register_access.md R172). -/
def TD.evenRegister (cfg : Cfg) (td : TD) : Bool :=
  !(td.isz == .op16 && registerOpcode cfg td.opcode) || td.dlen.toNat % 2 == 0

/-- A transport call as the engine makes them: normal form (30_encoding.md R104), profile (R148), register lengths
(R172), the call that fits the data phase and the length of its data (R100), and a page program inside one page
(44_array_access.md R203). -/
def Call.wellShaped (cfg : Cfg) (c : Call) : Bool :=
  match c with
  | .execCmd td => td.normal && td.profile && td.dd == .none
  | .execRead td => td.normal && td.profile && td.evenRegister cfg && td.dd == .read
  | .execWrite td bytes =>
    td.normal && td.profile && td.evenRegister cfg && td.dd == .write && bytes.length == td.dlen.toNat
      && (td.opcode != 0x12ED || pageOk td.addr bytes.length)
  | .mmapEnable tdr tdw => tdr.normal && tdr.profile && tdw.normal && tdw.profile
  | .mmapDisable => true

/-- A Write Enable transaction, of either mode (40_command_catalog.md R128). -/
def Call.isWren (c : Call) : Bool :=
  match c with
  | .execCmd td => td.opcode == 0x0006 || td.opcode == 0x06F9
  | .execRead _ | .execWrite _ _ | .mmapEnable _ _ | .mmapDisable => false

/-- A transaction that must be preceded by a Write Enable: page program and Configuration-2 write, sector, block and
chip erase (20_memory.md R69). -/
def Call.needsWren (c : Call) : Bool :=
  match c with
  | .execCmd td => td.opcode == 0x21DE || td.opcode == 0xDC23 || td.opcode == 0x609F
  | .execWrite _ _ => true
  | .execRead _ | .mmapEnable _ _ | .mmapDisable => false

/-- Every transaction that needs one directly follows a Write Enable; `prev` says whether one has just been made. -/
def wrenPairedFrom (prev : Bool) (h : History) : Bool :=
  match h with
  | [] => true
  | (c, _) :: rest => (!c.needsWren || prev) && wrenPairedFrom c.isWren rest

/-- The Write Enable pairing of a whole trace (R69). -/
def wrenPaired (h : History) : Bool := wrenPairedFrom false h

/-- The last call of a trace is a Write Enable. -/
def endsInWren (h : History) : Bool :=
  match h.getLast? with
  | some (c, _) => c.isWren
  | none => false

/-- The pairing holds so far, and a state that issues a write-class command stands directly after a Write Enable. -/
structure WrenDiscipline (s : State) : Prop where
  paired : wrenPaired s.trace = true
  ready : s.seq.afterWren = true → endsInWren s.trace = true

/-- Every call made so far is well shaped under the engine's configuration. -/
def TraceShaped (s : State) : Prop := s.trace.all (fun p => p.1.wellShaped s.cfg) = true

/-! ## The host -/

/-- A request a host can present: a PROGRAM request brings exactly `len` bytes (30_encoding.md R82). -/
def Request.expressible (r : Request) : Bool :=
  match decodeHost r.w0 r.w1 r.w2 r.wdata with
  | .ok _ => true
  | .error e => e == .reservedBits

/-- Every request at the host port can be presented. -/
def State.hostExpressible (s : State) : Bool := s.host.all Request.expressible

/-! ## Runs -/

/-- `n` steps. -/
def run (n : Nat) (s : State) : Host.Outcome State Fault Refusal :=
  match n with
  | 0 => .next s
  | k + 1 =>
    match step s with
    | .next t => run k t
    | .fault r => .fault r
    | .refused r => .refused r

/-- The descriptor the builder makes for a command in a mode (41_transaction_builder.md R141); the default one where
the mode's table has no such row. -/
def transactionOf (cfg : Cfg) (c : Cmd) (m : Mode) (a n : Word) : TD := (build cfg c m a n).getD default

/-- The answers to a completion poll's Status reads: those that show WIP set, then one that shows it clear. -/
structure Poll where
  busy : List (List Byte)
  last : List Byte
deriving DecidableEq, Repr

/-- The answers, in order. -/
def Poll.answers (p : Poll) : List Answer := (p.busy ++ [p.last]).map Answer.ok

/-- How many Status reads the poll makes (42_register_access.md R166). -/
def Poll.reads (p : Poll) : Nat := p.busy.length + 1

/-- The poll returns: each read has the bytes of a Status read in the mode, WIP is set in all but the last, and the
bound is not reached before. -/
structure PollReturns (cfg : Cfg) (m : Mode) (p : Poll) : Prop where
  sizes : ∀ bs ∈ p.busy ++ [p.last], bs.length = if m = .octal then 2 else 1
  busySet : ∀ bs ∈ p.busy, (byteAt bs 0).getLsbD cfg.wipBit.val = true
  lastClear : (byteAt p.last 0).getLsbD cfg.wipBit.val = false
  bound : cfg.pollLimit = 0 ∨ p.reads ≤ cfg.pollLimit

/-- The Status reads of a poll with their answers. -/
def Poll.history (cfg : Cfg) (m : Mode) (p : Poll) : History :=
  p.answers.map fun a => (.execRead (transactionOf cfg .rdsr m 0 (if m = .octal then 2 else 1)), a)

/-- The transport calls of one chunk of a PROGRAM (44_array_access.md R205): Write Enable, page program with the
chunk's slice of the buffer, the poll. `addr` is where the buffer starts. -/
def chunkHistory (cfg : Cfg) (addr : Nat) (wdata : List Byte) (chunk : Nat × Nat) (p : Poll) : History :=
  [(.execCmd (transactionOf cfg .wren .octal 0 0), .ok []),
   (.execWrite (transactionOf cfg .pp4b .octal (BitVec.ofNat 32 chunk.1) (BitVec.ofNat 32 chunk.2))
      ((wdata.drop (chunk.1 - addr)).take chunk.2), .ok [])]
    ++ p.history cfg .octal

/-- The engine between operations, ready to accept: no fault, idle, no reset pending (60_exceptions.md R253). -/
def State.ready (s : State) : Bool := !s.rst && s.seq == .idle && !s.fault

end Sys2Proof.Machine
end

