-- ==== Sys2Proof/Certificates/Slice0/Obligations.lean ====
section
/-! DEFINITION. The statements for the provers. A state in which `mode`, `seq` and the like are arbitrary is any
state of the type; a statement that needs a state some run reaches says so by `Consistent`. -/

open Sys2Proof Sys2Proof.Machine

/-! ## Encodings -/

/-- Words written out from 30_encoding.md R80, R81 and R103 and the examples of 40_command_catalog.md decode to the
instructions they stand for. -/
def Obligations.SpecWordsDecode : Prop :=
  decode Cfg.ref (.host 0x00000001 0 0 []) = .ok .init
  ∧ decode Cfg.ref (.host 0x00000706 0x00000300 0 []) = .ok (.writeCfg2 0x300 0x07)
  ∧ decode Cfg.ref (.host 0x00000007 0x00001000 0x00000010 []) = .ok (.read 0x1000 16)
  ∧ decode Cfg.ref (.host 0x00000008 0x000000F0 0x00000002 [0xA5, 0x5A]) = .ok (.program 0xF0 2 [0xA5, 0x5A])
  ∧ decode Cfg.ref (.host 0x0000000D 0 0 []) = .ok .mmapDisable
  ∧ decode Cfg.ref (.host 0x0000000E 0 0 []) = .ok .reservedHopE
  ∧ decode Cfg.ref (.host 0x00010001 0 0 []) = .error .reservedBits
  ∧ decode Cfg.ref (.wire ⟨0x00000006, 0, 0⟩ []) = .ok .wrenL
  ∧ decode Cfg.ref (.wire ⟨0x00880072, 0, 1⟩ [0x02]) = .ok (.wrcr2L 0 0x02)
  ∧ decode Cfg.ref (.wire ⟨0x237F05FA, 0, 2⟩ []) = .ok .rdsrO
  ∧ decode Cfg.ref (.wire ⟨0xA37FEE11, 0x00001000, 0x00000010⟩ []) = .ok (.dtrd8O 0x1000 16)
  ∧ decode Cfg.ref (.wire ⟨0x003F21DE, 0x00012345, 0⟩ []) = .ok (.seO 0x12345)

/-- Decode and encode agree: under every configuration, every well-formed instruction, host operation, reserved code
or wire command, with every operand, has words, and they decode to it. That an RDCR command is well formed only where
its opcode is no other row's is the model's choice (log 30). -/
def Obligations.DecodeEncodeAgree : Prop :=
  ∀ (cfg : Cfg) (i : Instr), i.wellFormed cfg = true →
    ∃ w, encode cfg i = some w ∧ decode cfg w = .ok i

/-- The other direction for wire commands: the words of a transaction that decode to an instruction are the words
that instruction encodes to, so no bit of them is free. -/
def Obligations.WireWordsHaveOneMeaning : Prop :=
  ∀ (cfg : Cfg) (p : Packed) (data : List Byte) (i : Instr),
    decode cfg (.wire p data) = .ok i → encode cfg i = some (.wire p data)

/-- What the decoder reads is well formed (30_encoding.md R82, 44_array_access.md R201, R203; 40_command_catalog.md
R135). That a well-formed RDCR command also has an opcode that is no other row's is the model's choice (log 30). -/
def Obligations.DecodedIsWellFormed : Prop :=
  ∀ (cfg : Cfg) (w : Words) (i : Instr), decode cfg w = .ok i → i.wellFormed cfg = true

/-- The packed form of a descriptor, field by field (30_encoding.md R103). -/
def Obligations.PackedDescriptorLayout : Prop :=
  ∀ td : TD,
    td.pack.t0.extractLsb' 0 16 = td.opcode
    ∧ td.pack.t0.getLsbD 16 = decide (td.isz = .op16)
    ∧ td.pack.t0.getLsbD 17 = decide (td.iw = .l8)
    ∧ td.pack.t0.getLsbD 18 = decide (td.ir = .dtr)
    ∧ td.pack.t0.getLsbD 19 = td.ap
    ∧ td.pack.t0.getLsbD 20 = decide (td.aw = .l8)
    ∧ td.pack.t0.getLsbD 21 = decide (td.ar = .dtr)
    ∧ td.pack.t0.extractLsb' 22 2 = (match td.dd with | .none => 0 | .read => 1 | .write => 2)
    ∧ td.pack.t0.getLsbD 24 = decide (td.dw = .l8)
    ∧ td.pack.t0.getLsbD 25 = decide (td.dr = .dtr)
    ∧ td.pack.t0.getLsbD 26 = false
    ∧ td.pack.t0.extractLsb' 27 5 = td.dummy
    ∧ td.pack.t1 = td.addr
    ∧ td.pack.t2 = td.dlen
    ∧ td.pack.unpack = some td

/-! ## Catalog, builder, register widths -/

/-- The Legacy table, cell by cell (40_command_catalog.md R122): opcode, address kind, direction, `dstr`, dummy; an
invalid row is no row; every data phase is single-rate whatever `dstr` is. -/
def Obligations.LegacyTable : Prop :=
  ∀ cfg : Cfg,
    catalog cfg .legacy .wren = some ⟨0x06, .none, .none, false, 0⟩
    ∧ catalog cfg .legacy .rsten = some ⟨0x66, .none, .none, false, 0⟩
    ∧ catalog cfg .legacy .rst = some ⟨0x99, .none, .none, false, 0⟩
    ∧ catalog cfg .legacy .rdsr = some ⟨0x05, .none, .read, false, cfg.dummyRegL⟩
    ∧ catalog cfg .legacy .rdcr2 = some ⟨0x71, .operand, .read, false, cfg.dummyRegL⟩
    ∧ catalog cfg .legacy .wrcr2 = some ⟨0x72, .operand, .write, false, 0⟩
    ∧ catalog cfg .legacy .rdid = some ⟨0x9F, .none, .read, false, cfg.dummyRegL⟩
    ∧ (cfg.rdcr = none → catalog cfg .legacy .rdcr = none)
    ∧ (∀ r, cfg.rdcr = some r →
        catalog cfg .legacy .rdcr = some ⟨r.l.setWidth 16, .none, .read, false, r.lDummy⟩)
    ∧ (∀ c, c ∈ [Cmd.dtrd8, .pp4b, .se, .be, .ce] → catalog cfg .legacy c = none)
    ∧ Cfg.ref.dummyRegL = 0 ∧ Cfg.ref.rdcr = none
    ∧ (∀ (r : Row) (a n : Word), (r.describe .legacy a n).dr = .str)

/-- The Octal table, cell by cell (40_command_catalog.md R123). -/
def Obligations.OctalTable : Prop :=
  ∀ cfg : Cfg,
    let regAddr : AddrKind := match cfg.regAddrO with | none => .none | some c => .const c
    catalog cfg .octal .wren = some ⟨0x06F9, .none, .none, false, 0⟩
    ∧ catalog cfg .octal .rsten = some ⟨0x6699, .none, .none, false, 0⟩
    ∧ catalog cfg .octal .rst = some ⟨0x9966, .none, .none, false, 0⟩
    ∧ catalog cfg .octal .rdsr = some ⟨0x05FA, regAddr, .read, false, cfg.dummyRegO⟩
    ∧ catalog cfg .octal .rdcr2 = some ⟨0x718E, .operand, .read, false, cfg.dummyRegO⟩
    ∧ catalog cfg .octal .wrcr2 = some ⟨0x728D, .operand, .write, false, 0⟩
    ∧ catalog cfg .octal .rdid = some ⟨0x9F60, regAddr, .read, true, cfg.dummyRegO⟩
    ∧ (cfg.rdcr = none → catalog cfg .octal .rdcr = none)
    ∧ (∀ r, cfg.rdcr = some r →
        catalog cfg .octal .rdcr =
          some ⟨r.o, (match r.oAddr with | none => .none | some c => .const c), .read, false, r.oDummy⟩)
    ∧ catalog cfg .octal .dtrd8 = some ⟨0xEE11, .operand, .read, false, cfg.dummyRead⟩
    ∧ catalog cfg .octal .pp4b = some ⟨0x12ED, .operand, .write, false, 0⟩
    ∧ catalog cfg .octal .se = some ⟨0x21DE, .operand, .none, false, 0⟩
    ∧ catalog cfg .octal .be = some ⟨0xDC23, .operand, .none, false, 0⟩
    ∧ catalog cfg .octal .ce = some ⟨0x609F, .none, .none, false, 0⟩
    ∧ Cfg.ref.regAddrO = some 0 ∧ Cfg.ref.dummyRegO = 4 ∧ Cfg.ref.dummyRead = 20 ∧ Cfg.ref.rdcr = none

/-- `Build(c, m, a, n)` as a whole (41_transaction_builder.md R141). -/
def Obligations.BuildFollowsRow : Prop :=
  ∀ (cfg : Cfg) (c : Cmd) (m : Mode) (a n : Word),
    (catalog cfg m c = none → build cfg c m a n = none)
    ∧ ∀ r, catalog cfg m c = some r →
      ∃ td, build cfg c m a n = some td
        ∧ td.opcode = r.opcode
        ∧ td.isz = (if m = .legacy then .op8 else .op16)
        ∧ td.iw = (if m = .legacy then .l1 else .l8)
        ∧ td.ir = (if m = .legacy then .str else .dtr)
        ∧ (r.ak = .none → td.ap = false ∧ td.aw = .l1 ∧ td.ar = .str ∧ td.addr = 0)
        ∧ (r.ak = .operand → td.ap = true ∧ td.aw = td.iw ∧ td.ar = td.ir ∧ td.addr = a)
        ∧ (∀ k, r.ak = .const k → td.ap = true ∧ td.aw = td.iw ∧ td.ar = td.ir ∧ td.addr = k)
        ∧ (r.dd = .none → td.dd = .none ∧ td.dw = .l1 ∧ td.dr = .str ∧ td.dlen = 0)
        ∧ (r.dd ≠ .none → td.dd = r.dd ∧ td.dw = td.iw ∧ td.dlen = n
            ∧ td.dr = (if m = .octal ∧ r.dstr = false then .dtr else .str))
        ∧ td.dummy = r.dummy

/-- The profiles of built descriptors (41_transaction_builder.md R148). -/
def Obligations.BuiltDescriptorProfiles : Prop :=
  ∀ (cfg : Cfg) (c : Cmd) (m : Mode) (a n : Word) (td : TD), build cfg c m a n = some td →
    td.normal = true
    ∧ (m = .legacy → td.isz = .op8 ∧ td.opcode.extractLsb' 8 8 = 0 ∧ td.iw = .l1 ∧ td.ir = .str
        ∧ (td.ap = true → td.aw = .l1 ∧ td.ar = .str) ∧ (td.dd ≠ .none → td.dw = .l1 ∧ td.dr = .str))
    ∧ (m = .octal → td.isz = .op16 ∧ td.iw = .l8 ∧ td.ir = .dtr
        ∧ (td.ap = true → td.aw = .l8 ∧ td.ar = .dtr)
        ∧ (td.dd ≠ .none → td.dw = .l8 ∧ (c ≠ .rdid → td.dr = .dtr)))
    ∧ ∃ r, catalog cfg m c = some r ∧ (td.ap = true ↔ r.ak ≠ .none) ∧ td.dd = r.dd

/-- `WireLen` and `Widen` (42_register_access.md R161, R163). -/
def Obligations.RegisterWidths : Prop :=
  (∀ (cfg : Cfg) (c : Cmd) (m : Mode) (k : Nat),
    wireLen cfg c m k =
      (if m = .octal ∧ ¬ (∃ r, catalog cfg m c = some r ∧ r.dstr = true) then k + k % 2 else k))
  ∧ (∀ cfg : Cfg, wireLen cfg .rdsr .legacy 1 = 1 ∧ wireLen cfg .rdsr .octal 1 = 2
      ∧ wireLen cfg .rdid .legacy 3 = 3 ∧ wireLen cfg .rdid .octal 3 = 3)
  ∧ (∀ v : Byte, widen v .legacy = [v] ∧ widen v .octal = [v, 0x00])
  ∧ (∀ (cfg : Cfg) (v : Byte) (m : Mode), (widen v m).length = wireLen cfg .wrcr2 m 1)

/-- The two memory-mapped templates, under every configuration (45_memory_mapped.md R232). -/
def Obligations.TemplatesAreFixed : Prop :=
  ∀ cfg : Cfg,
    (∃ td, build cfg .dtrd8 .octal 0 0 = some td ∧ templateRead cfg = { td with dummy := 20 })
    ∧ build cfg .pp4b .octal 0 0 = some (templateWrite cfg)
    ∧ (templateRead cfg).pack = ⟨0xA37FEE11, 0, 0⟩
    ∧ (templateWrite cfg).pack = ⟨0x03BF12ED, 0, 0⟩
    ∧ (cfg.dummyRead = 20 → build cfg .dtrd8 .octal 0 0 = some (templateRead cfg))

/-! ## Acceptance -/

/-- Acceptance of a request, the whole of 60_exceptions.md R253: the checks in order, each refusal, and what an
accepted request loads and where it starts. That the operand registers the operation does not load keep their values,
which 10_state.md R31 and 93 U21 leave open, and that the request's operands are held with 0 for those it does not
use, is the model's choice (log 35, log 9). -/
def Obligations.AcceptanceInOrder : Prop :=
  ∀ (s : State) (r : Request) (rest : List Request),
    s.rst = false → s.seq = .idle → s.host = r :: rest → r.expressible = true →
    ∃ t, step s = .next t ∧
      let u : State := { s with host := rest }
      let h : BitVec 4 := r.w0.extractLsb' 0 4
      let refused : BitVec 4 → Prop := fun sub =>
        t = { u with rsp := ⟨1, sub, 0, 0, s.done, []⟩, seq := .resp }
      if s.fault = true then refused 6
      else if r.w0.extractLsb' 4 4 ≠ 0 ∨ r.w0.extractLsb' 16 16 ≠ 0 ∨ h = 0x0 ∨ h = 0xE ∨ h = 0xF then refused 1
      else if h = 0x1 ∧ s.mode = .octal then refused 2
      else if h ≠ 0x1 ∧ s.mode = .legacy then refused 2
      else if s.mmapEn = true ∧ h ≠ 0xC ∧ h ≠ 0xD then refused 5
      else if h = 0x4 ∧ catalog s.cfg s.mode .rdcr = none then refused 2
      else if (h = 0x7 ∨ h = 0x8) ∧ ¬ (r.w1.toNat + r.w2.toNat ≤ 0x02000000) then refused 4
      else if (h = 0x9 ∨ h = 0xA) ∧ ¬ (r.w1.toNat + 1 ≤ 0x02000000) then refused 4
      else
        t.hop = h ∧ t.trace = s.trace ∧ t.mode = s.mode ∧ t.fault = false ∧ t.host = rest
        ∧ (h = 0x1 → t = { u with hop := h, inFlight := ⟨0, 0, []⟩, seq := .initRsten })
        ∧ (h = 0x2 → t = { u with hop := h, inFlight := ⟨0, 0, []⟩, seq := .ridRd })
        ∧ (h = 0x3 → t = { u with hop := h, inFlight := ⟨0, 0, []⟩, seq := .rsrRd })
        ∧ (h = 0x4 → t = { u with hop := h, inFlight := ⟨0, 0, []⟩, seq := .rcrRd })
        ∧ (h = 0x5 → t = { u with hop := h, inFlight := ⟨r.w1, 0, []⟩, seq := .rc2Rd })
        ∧ (h = 0x6 → t = { u with hop := h, inFlight := ⟨r.w1, 0, []⟩, aCur := r.w1,
                                  vNew := r.w0.extractLsb' 8 8, seq := .wc2Wren })
        ∧ (h = 0x7 → r.w2 ≠ 0 → t = { u with hop := h, inFlight := ⟨r.w1, r.w2, []⟩, seq := .rdRd })
        ∧ (h = 0x7 → r.w2 = 0 → t = { u with hop := h, inFlight := ⟨r.w1, r.w2, []⟩,
                                             rsp := ⟨0, 0, 0, 0, s.done, []⟩, seq := .resp })
        ∧ (h = 0x8 → t = { u with hop := h, inFlight := ⟨r.w1, r.w2, r.wdata⟩, aCur := r.w1, nLeft := r.w2,
                                  off := 0, done := 0, seq := .pgSplit })
        ∧ (h = 0x9 ∨ h = 0xA → t = { u with hop := h, inFlight := ⟨r.w1, 0, []⟩, aCur := r.w1, seq := .erWren })
        ∧ (h = 0xB → t = { u with hop := h, inFlight := ⟨0, 0, []⟩, seq := .erWren })
        ∧ (h = 0xC → t = { u with hop := h, inFlight := ⟨0, 0, []⟩, seq := .mmEn })
        ∧ (h = 0xD → t = { u with hop := h, inFlight := ⟨0, 0, []⟩, seq := .mmDis })

/-- The reserved codes and non-zero reserved bits are refused with PV_ENCODING, no transport call, no change of
state but the response (30_encoding.md R108). -/
def Obligations.ReservedEncodingsRefused : Prop :=
  (∀ (s : State) (i : Instr), i ∈ [Instr.reservedHop0, .reservedHopE, .reservedHopF] →
    s.seq = .idle → s.fault = false →
    exec i s = .next { s with rsp := ⟨1, 1, 0, 0, s.done, []⟩, seq := .resp })
  ∧ (∀ (s : State) (r : Request) (rest : List Request), s.rst = false → s.seq = .idle → s.fault = false →
    s.host = r :: rest →
    (r.w0.extractLsb' 0 4 = 0x0 ∨ r.w0.extractLsb' 0 4 = 0xE ∨ r.w0.extractLsb' 0 4 = 0xF
      ∨ r.w0.extractLsb' 4 4 ≠ 0 ∨ r.w0.extractLsb' 16 16 ≠ 0) →
    step s = .next { s with host := rest, rsp := ⟨1, 1, 0, 0, s.done, []⟩, seq := .resp })

/-- A request is taken only in IDLE: no step in any other state touches the host port (30_encoding.md R83, the second
clause). The first clause, that `exec` of a host operation or a reserved code in such a state leaves the machine as it
is, is the model's choice, which no step runs (log 18). -/
def Obligations.BusyHoldsRequests : Prop :=
  (∀ (s : State) (i : Instr), s.seq ≠ .idle → i.transaction s.cfg = none → exec i s = .next s)
  ∧ (∀ s t : State, s.seq ≠ .idle → step s = .next t → t.host = s.host)

/-! ## The host operations complete -/

/-- INIT is accepted in Legacy mode and starts at INIT_RSTEN; nothing else changes. That the operand registers it does
not load keep their values is the model's choice (log 35, log 9). -/
def Obligations.InitAccepted : Prop :=
  ∀ s : State, s.seq = .idle → s.fault = false → s.mode = .legacy → s.mmapEn = false →
    exec .init s = .next { s with hop := 0x1, inFlight := ⟨0, 0, []⟩, seq := .initRsten }

/-- The register operations are accepted in Octal mode with the window disabled; READ_CFG where the catalog has its
row. Nothing else changes; of the operand registers an operation does not load that is the model's choice (log 35,
log 9). -/
def Obligations.RegisterOperationsAccepted : Prop :=
  ∀ (s : State) (addr : Word) (val : Byte),
    s.seq = .idle → s.fault = false → s.mode = .octal → s.mmapEn = false →
    exec .readId s = .next { s with hop := 0x2, inFlight := ⟨0, 0, []⟩, seq := .ridRd }
    ∧ exec .readStatus s = .next { s with hop := 0x3, inFlight := ⟨0, 0, []⟩, seq := .rsrRd }
    ∧ (s.cfg.rdcr ≠ none → exec .readCfg s = .next { s with hop := 0x4, inFlight := ⟨0, 0, []⟩, seq := .rcrRd })
    ∧ (s.cfg.rdcr = none → exec .readCfg s = .next { s with rsp := ⟨1, 2, 0, 0, s.done, []⟩, seq := .resp })
    ∧ exec (.readCfg2 addr) s = .next { s with hop := 0x5, inFlight := ⟨addr, 0, []⟩, seq := .rc2Rd }
    ∧ exec (.writeCfg2 addr val) s =
        .next { s with hop := 0x6, inFlight := ⟨addr, 0, []⟩, aCur := addr, vNew := val, seq := .wc2Wren }

/-- READ and PROGRAM in range are accepted, the sum taken without wrapping, and refused with PV_RANGE out of range
(44_array_access.md R200, R202, R205, R211). That the operand registers they do not load keep their values is the
model's choice (log 35, log 9). -/
def Obligations.ReadAndProgramAccepted : Prop :=
  ∀ (s : State) (addr len : Word) (wdata : List Byte),
    s.seq = .idle → s.fault = false → s.mode = .octal → s.mmapEn = false →
    (addr.toNat + len.toNat ≤ 0x02000000 →
      (len ≠ 0 → exec (.read addr len) s = .next { s with hop := 0x7, inFlight := ⟨addr, len, []⟩, seq := .rdRd })
      ∧ (len = 0 → exec (.read addr len) s =
          .next { s with hop := 0x7, inFlight := ⟨addr, len, []⟩, rsp := ⟨0, 0, 0, 0, s.done, []⟩, seq := .resp })
      ∧ exec (.program addr len wdata) s =
          .next { s with hop := 0x8, inFlight := ⟨addr, len, wdata⟩, aCur := addr, nLeft := len, off := 0, done := 0,
                         seq := .pgSplit })
    ∧ (0x02000000 < addr.toNat + len.toNat →
      exec (.read addr len) s = .next { s with rsp := ⟨1, 4, 0, 0, s.done, []⟩, seq := .resp }
      ∧ exec (.program addr len wdata) s = .next { s with rsp := ⟨1, 4, 0, 0, s.done, []⟩, seq := .resp })

/-- The erases are accepted, aligned or not, the address kept as given, and refused with PV_RANGE past the array
(44_array_access.md R200, R207 to R210). That the operand registers they do not load keep their values is the model's
choice (log 35, log 9). -/
def Obligations.ErasesAccepted : Prop :=
  ∀ (s : State) (addr : Word),
    s.seq = .idle → s.fault = false → s.mode = .octal → s.mmapEn = false →
    (addr.toNat < 0x02000000 →
      exec (.eraseSector addr) s = .next { s with hop := 0x9, inFlight := ⟨addr, 0, []⟩, aCur := addr, seq := .erWren }
      ∧ exec (.eraseBlock addr) s =
          .next { s with hop := 0xA, inFlight := ⟨addr, 0, []⟩, aCur := addr, seq := .erWren })
    ∧ (0x02000000 ≤ addr.toNat →
      exec (.eraseSector addr) s = .next { s with rsp := ⟨1, 4, 0, 0, s.done, []⟩, seq := .resp }
      ∧ exec (.eraseBlock addr) s = .next { s with rsp := ⟨1, 4, 0, 0, s.done, []⟩, seq := .resp })
    ∧ exec .eraseChip s = .next { s with hop := 0xB, inFlight := ⟨0, 0, []⟩, seq := .erWren }

/-- MMAP_ENABLE and MMAP_DISABLE are accepted in Octal mode whatever MMAP_EN is; then the one transport call of each:
the two templates, MMAP_EN set only on `Ok`, and a disable that cannot fail (45_memory_mapped.md R233 to R236). That
the operand registers they do not load keep their values is the model's choice (log 35, log 9). -/
def Obligations.WindowOperations : Prop :=
  (∀ s : State, s.seq = .idle → s.fault = false → s.mode = .octal →
    exec .mmapEnable s = .next { s with hop := 0xC, inFlight := ⟨0, 0, []⟩, seq := .mmEn }
    ∧ exec .mmapDisable s = .next { s with hop := 0xD, inFlight := ⟨0, 0, []⟩, seq := .mmDis })
  ∧ (∀ s : State, s.rst = false → s.seq = .mmEn →
    let c : Call := .mmapEnable (templateRead s.cfg) (templateWrite s.cfg)
    (∀ bs, s.answerTo c = .ok bs →
      step s = .next { s with env := s.env.next s.cfg s.trace c, trace := s.trace ++ [(c, .ok bs)], mmapEn := true,
                              rsp := ⟨0, 0, 0, 0, s.done, []⟩, seq := .resp })
    ∧ (∀ e, s.answerTo c = .err e →
      step s = .next { s with env := s.env.next s.cfg s.trace c, trace := s.trace ++ [(c, .err e)], fault := true,
                              faultCause := 2, faultOp := s.hop, faultInfo := e.code,
                              rsp := ⟨2, 0, e.code, 0, s.done, []⟩, seq := .resp }))
  ∧ (∀ s : State, s.rst = false → s.seq = .mmDis →
    step s = .next { s with env := s.env.next s.cfg s.trace .mmapDisable, trace := s.trace ++ [(.mmapDisable, .ok [])],
                            mmapEn := false, rsp := ⟨0, 0, 0, 0, s.done, []⟩, seq := .resp })

/-! ## The wire commands complete -/

/-- WREN, RSTEN and RST of the Legacy table: one `Exec` of an 8-bit opcode on one line at single rate, nothing else
(40_command_catalog.md R128 to R130). -/
def Obligations.LegacyCommandsComplete : Prop :=
  ∀ (s : State) (p : Instr × BitVec 16),
    p ∈ [(Instr.wrenL, (0x06 : BitVec 16)), (.rstenL, 0x66), (.rstL, 0x99)] → s.mode = .legacy →
    let c : Call := .execCmd ⟨p.2, .op8, .l1, .str, false, .l1, .str, 0, .none, .l1, .str, 0, 0⟩
    ∀ bs, s.answerTo c = .ok bs →
      exec p.1 s = .next { s with env := s.env.next s.cfg s.trace c, trace := s.trace ++ [(c, .ok bs)] }

/-- The Legacy register reads: one byte into V_RB, three identification bytes into RBUF (40_command_catalog.md R131,
R132, R134; 42_register_access.md R162). That a wire command taken alone writes V_RB or RBUF is the model's choice
(log 11, log 12). -/
def Obligations.LegacyReadsComplete : Prop :=
  ∀ (s : State) (addr : Word), s.mode = .legacy →
    (let c : Call := .execRead ⟨0x05, .op8, .l1, .str, false, .l1, .str, 0, .read, .l1, .str, 1, s.cfg.dummyRegL⟩
     ∀ b, s.answerTo c = .ok [b] → exec .rdsrL s =
       .next { s with env := s.env.next s.cfg s.trace c, trace := s.trace ++ [(c, .ok [b])], vRb := b })
    ∧ (let c : Call := .execRead ⟨0x71, .op8, .l1, .str, true, .l1, .str, addr, .read, .l1, .str, 1, s.cfg.dummyRegL⟩
       ∀ b, s.answerTo c = .ok [b] → exec (.rdcr2L addr) s =
         .next { s with env := s.env.next s.cfg s.trace c, trace := s.trace ++ [(c, .ok [b])], vRb := b })
    ∧ (let c : Call := .execRead ⟨0x9F, .op8, .l1, .str, false, .l1, .str, 0, .read, .l1, .str, 3, s.cfg.dummyRegL⟩
       ∀ b0 b1 b2, s.answerTo c = .ok [b0, b1, b2] → exec .rdidL s =
         .next { s with env := s.env.next s.cfg s.trace c, trace := s.trace ++ [(c, .ok [b0, b1, b2])],
                        rbuf := [b0, b1, b2] })

/-- WREN, RSTEN, RST, SE, BE and CE of the Octal table: one `Exec` of a 16-bit opcode on eight lines at double rate,
the erase address unchanged, no address phase for CE (40_command_catalog.md R128 to R130, R138 to R140). -/
def Obligations.OctalCommandsComplete : Prop :=
  ∀ (s : State) (addr : Word), s.mode = .octal →
    (∀ p ∈ [(Instr.wrenO, (0x06F9 : BitVec 16)), (.rstenO, 0x6699), (.rstO, 0x9966), (.ceO, 0x609F)],
      let c : Call := .execCmd ⟨p.2, .op16, .l8, .dtr, false, .l1, .str, 0, .none, .l1, .str, 0, 0⟩
      ∀ bs, s.answerTo c = .ok bs →
        exec p.1 s = .next { s with env := s.env.next s.cfg s.trace c, trace := s.trace ++ [(c, .ok bs)] })
    ∧ (∀ p ∈ [(Instr.seO addr, (0x21DE : BitVec 16)), (.beO addr, 0xDC23)],
      let c : Call := .execCmd ⟨p.2, .op16, .l8, .dtr, true, .l8, .dtr, addr, .none, .l1, .str, 0, 0⟩
      ∀ bs, s.answerTo c = .ok bs →
        exec p.1 s = .next { s with env := s.env.next s.cfg s.trace c, trace := s.trace ++ [(c, .ok bs)] })

/-- The Octal register reads: two bytes of which the first goes to V_RB, three single-rate identification bytes into
RBUF (40_command_catalog.md R131, R132, R134; 42_register_access.md R161, R162; log 11, log 12). -/
def Obligations.OctalReadsComplete : Prop :=
  ∀ (s : State) (addr : Word), s.mode = .octal →
    let ap := s.cfg.regAddrO.isSome
    let aw : Lines := if s.cfg.regAddrO.isSome then .l8 else .l1
    let ar : Rate := if s.cfg.regAddrO.isSome then .dtr else .str
    let fixed : Word := s.cfg.regAddrO.getD 0
    (let c : Call := .execRead ⟨0x05FA, .op16, .l8, .dtr, ap, aw, ar, fixed, .read, .l8, .dtr, 2, s.cfg.dummyRegO⟩
     ∀ b pad, s.answerTo c = .ok [b, pad] → exec .rdsrO s =
       .next { s with env := s.env.next s.cfg s.trace c, trace := s.trace ++ [(c, .ok [b, pad])], vRb := b })
    ∧ (let c : Call := .execRead ⟨0x718E, .op16, .l8, .dtr, true, .l8, .dtr, addr, .read, .l8, .dtr, 2, s.cfg.dummyRegO⟩
       ∀ b pad, s.answerTo c = .ok [b, pad] → exec (.rdcr2O addr) s =
         .next { s with env := s.env.next s.cfg s.trace c, trace := s.trace ++ [(c, .ok [b, pad])], vRb := b })
    ∧ (let c : Call := .execRead ⟨0x9F60, .op16, .l8, .dtr, ap, aw, ar, fixed, .read, .l8, .str, 3, s.cfg.dummyRegO⟩
       ∀ b0 b1 b2, s.answerTo c = .ok [b0, b1, b2] → exec .rdidO s =
         .next { s with env := s.env.next s.cfg s.trace c, trace := s.trace ++ [(c, .ok [b0, b1, b2])],
                        rbuf := [b0, b1, b2] })

/-- The Configuration-2 writes: the value alone in Legacy mode, the value and a zero byte in Octal mode
(40_command_catalog.md R133; 42_register_access.md R163, R171). -/
def Obligations.ConfigurationWritesComplete : Prop :=
  ∀ (s : State) (addr : Word) (v : Byte),
    (s.mode = .legacy →
      let c : Call := .execWrite ⟨0x72, .op8, .l1, .str, true, .l1, .str, addr, .write, .l1, .str, 1, 0⟩ [v]
      ∀ bs, s.answerTo c = .ok bs → exec (.wrcr2L addr v) s =
        .next { s with env := s.env.next s.cfg s.trace c, trace := s.trace ++ [(c, .ok bs)] })
    ∧ (s.mode = .octal →
      let c : Call := .execWrite ⟨0x728D, .op16, .l8, .dtr, true, .l8, .dtr, addr, .write, .l8, .dtr, 2, 0⟩ [v, 0x00]
      ∀ bs, s.answerTo c = .ok bs → exec (.wrcr2O addr v) s =
        .next { s with env := s.env.next s.cfg s.trace c, trace := s.trace ++ [(c, .ok bs)] })

/-- 8DTRD reads `len` bytes into RBUF in one transaction; PP4B writes its bytes in one transaction when they stay in
one page (40_command_catalog.md R136, R137; 44_array_access.md R201, R203; log 11). -/
def Obligations.ArrayTransfersComplete : Prop :=
  ∀ (s : State) (addr : Word), s.mode = .octal →
    (∀ len : Word,
      let c : Call := .execRead ⟨0xEE11, .op16, .l8, .dtr, true, .l8, .dtr, addr, .read, .l8, .dtr, len, s.cfg.dummyRead⟩
      ∀ bs, s.answerTo c = .ok bs → exec (.dtrd8O addr len) s =
        .next { s with env := s.env.next s.cfg s.trace c, trace := s.trace ++ [(c, .ok bs)], rbuf := bs })
    ∧ (∀ data : List Byte, 1 ≤ data.length → data.length ≤ 256 - addr.toNat % 256 →
      let c : Call := .execWrite ⟨0x12ED, .op16, .l8, .dtr, true, .l8, .dtr, addr, .write, .l8, .dtr,
        BitVec.ofNat 32 data.length, 0⟩ data
      ∀ bs, s.answerTo c = .ok bs → exec (.pp4bO addr data) s =
        .next { s with env := s.env.next s.cfg s.trace c, trace := s.trace ++ [(c, .ok bs)] })

/-- RDCR where the configuration has its row: one byte into V_RB (40_command_catalog.md R135; log 11, log 12). -/
def Obligations.ConfigurationReadsComplete : Prop :=
  ∀ (s : State) (r : RdcrRow), s.cfg.rdcr = some r →
    (s.mode = .legacy →
      let c : Call := .execRead ⟨r.l.setWidth 16, .op8, .l1, .str, false, .l1, .str, 0, .read, .l1, .str, 1, r.lDummy⟩
      ∀ b, s.answerTo c = .ok [b] → exec .rdcrL s =
        .next { s with env := s.env.next s.cfg s.trace c, trace := s.trace ++ [(c, .ok [b])], vRb := b })
    ∧ (s.mode = .octal →
      let c : Call := .execRead ⟨r.o, .op16, .l8, .dtr, r.oAddr.isSome, (if r.oAddr.isSome then .l8 else .l1),
        (if r.oAddr.isSome then .dtr else .str), r.oAddr.getD 0, .read, .l8, .dtr, 2, r.oDummy⟩
      ∀ b pad, s.answerTo c = .ok [b, pad] → exec .rdcrO s =
        .next { s with env := s.env.next s.cfg s.trace c, trace := s.trace ++ [(c, .ok [b, pad])], vRb := b })

/-- A wire command of the other mode's table, or of a row the configuration does not have, raises
ProtocolViolation(PV_MODE) and makes no call (41_transaction_builder.md R142). That a command of the other mode's
table counts as a row that is not there is the model's choice (log 11). -/
def Obligations.WrongTableNotBuilt : Prop :=
  ∀ (s : State) (i : Instr) (c : Cmd) (m : Mode) (a : Word) (n : Nat) (data : List Byte),
    i.transaction s.cfg = some (c, m, a, n, data) →
    (i.wellFormed s.cfg = true ∨ c = .rdcr) →
    (m ≠ s.mode ∨ catalog s.cfg m c = none) →
    exec i s = .next { s with rsp := ⟨1, 2, 0, 0, s.done, []⟩, seq := .resp }

/-- The page guard (44_array_access.md R203): PG_SPLIT tests the chunk before its Write Enable. That the wire command
PP4B, taken alone, tests its own range too and raises PV_PAGE without a call (the second clause) is the model's choice
(log 11). -/
def Obligations.PageGuard : Prop :=
  (∀ (a : Word) (n : Nat), pageOk a n = true ↔ 1 ≤ n ∧ n ≤ 256 - a.toNat % 256)
  ∧ (∀ (s : State) (addr : Word) (data : List Byte), pageOk addr data.length = false →
    exec (.pp4bO addr data) s = .next { s with rsp := ⟨1, 3, 0, 0, s.done, []⟩, seq := .resp })
  ∧ (∀ s : State, s.rst = false → s.seq = .pgSplit → s.nLeft ≠ 0 →
    ∃ t, step s = .next t ∧ t.trace = s.trace ∧ t.seq = .pgWren
      ∧ t.chunk.toNat = min (256 - s.aCur.toNat % 256) s.nLeft.toNat ∧ pageOk t.aCur t.chunk.toNat = true)

/-! ## A step runs the decoded instruction -/

/-- One step is `exec` of the decoded instruction: of the request at the host port of an idle engine, the request
taken off the port; of the wire command a sequencer state issues, followed by `State.advance`, what the operation in
flight does with its answer; and of any words placed by `State.placeWords` that decode to a wire command
(10_state.md R30, 60_exceptions.md R253). Where words are placed is the model's choice (log 10). -/
def Obligations.StepRunsDecodedInstruction : Prop :=
  (∀ (s : State) (r : Request) (rest : List Request) (i : Instr),
    s.rst = false → s.seq = .idle → s.host = r :: rest → decode s.cfg (.host r.w0 r.w1 r.w2 r.wdata) = .ok i →
    step s = exec i { s with host := rest })
  ∧ (∀ (s : State) (i : Instr), s.rst = false → s.prepare.issue = some (.command i) →
    ∃ t, exec i s.prepare = .next t ∧ step s = .next t.advance)
  ∧ (∀ (s : State) (p : Packed) (data : List Byte) (i : Instr), decode Cfg.ref (.wire p data) = .ok i →
    ∃ t, exec i (s.placeWords (.wire p data)) = .next t ∧ step (s.placeWords (.wire p data)) = .next t.advance)

/-- A wire command of the engine's mode is one transport call, whose descriptor and data are the words the command
encodes to (41_transaction_builder.md R141, 30_encoding.md R100). -/
def Obligations.WireCommandIsItsWords : Prop :=
  ∀ (s : State) (i : Instr) (m : Mode) (c : Cmd) (a : Word) (n : Nat) (data : List Byte),
    i.transaction s.cfg = some (c, m, a, n, data) → i.wellFormed s.cfg = true → s.mode = m →
    ∃ (t : State) (call : Call) (td : TD),
      exec i s = .next t ∧ t.trace = s.trace ++ [(call, s.answerTo call)]
      ∧ call.transaction = some (td, data) ∧ encode s.cfg i = some (.wire td.pack data)

/-! ## Exceptions -/

/-- TransportFault: an `Err(e)` aborts the operation in that same step; the fault record and the response are written,
no further call is made, and every other register stays as the operation had it (60_exceptions.md R256, R257;
42_register_access.md R165). `s.prepare` writes V_NEW in INIT_WRCR2 and nothing else. -/
def Obligations.TransportFaultAborts : Prop :=
  ∀ (s t : State) (c : Call) (e : TErr),
    step s = .next t → t.trace = s.trace ++ [(c, .err e)] →
    t = { s.prepare with
          env := s.env.next s.cfg s.trace c
          trace := s.trace ++ [(c, .err e)]
          fault := true
          faultCause := 2
          faultOp := s.hop
          faultInfo := e.code
          rsp := ⟨2, 0, e.code, 0, s.done, []⟩
          seq := .resp }

/-- FAULT is set by a TransportFault, a CompletionTimeout or a fatal InitMismatch and by nothing else, with its record
(10_state.md R24, R25; 60_exceptions.md R257, R258, R259). -/
def Obligations.FaultCauses : Prop :=
  ∀ s t : State, s.fault = false → step s = .next t → t.fault = true →
    t.faultOp = s.hop ∧ t.seq = .resp
    ∧ ((t.faultCause = 2 ∧ ∃ c e, t.trace = s.trace ++ [(c, .err e)] ∧ t.faultInfo = e.code ∧ c ≠ .mmapDisable
          ∧ t.rsp = ⟨2, 0, e.code, 0, s.done, []⟩)
      ∨ (t.faultCause = 3 ∧ t.faultInfo = 0 ∧ s.seq ∈ [Seq.initPoll, .wc2Poll, .pgPoll, .erPoll]
          ∧ s.cfg.pollLimit ≠ 0 ∧ s.cfg.pollLimit ≤ s.pollN + 1 ∧ t.vRb.getLsbD s.cfg.wipBit.val = true
          ∧ t.rsp = ⟨3, 0, 0, 0, s.done, []⟩)
      ∨ (t.faultCause = 4 ∧ t.faultInfo = 0 ∧ s.seq = .initVerify ∧ s.cfg.initMismatchFatal = true
          ∧ t.vRb ≠ s.vNew ∧ t.initMismatch = true
          ∧ t.rsp = ⟨4, 0, 0, initPayload true s.vOld s.vNew t.vRb, s.done, []⟩))

/-- FAULT stops the engine: while it is set, and without a reset, no step makes a transport call or changes the mode,
the fault record, the flags or DONE, and every request is answered PV_FAULTED (60_exceptions.md R254). -/
def Obligations.FaultStopsEngine : Prop :=
  (∀ (n : Nat) (s t : State), Consistent s → s.fault = true → s.rst = false → run n s = .next t →
    t.trace = s.trace ∧ t.env = s.env ∧ t.mode = s.mode ∧ t.fault = true ∧ t.faultCause = s.faultCause
    ∧ t.faultOp = s.faultOp ∧ t.faultInfo = s.faultInfo ∧ t.initMismatch = s.initMismatch ∧ t.mmapEn = s.mmapEn
    ∧ t.done = s.done)
  ∧ (∀ (s : State) (r : Request) (rest : List Request), s.fault = true → s.rst = false → s.seq = .idle →
    s.host = r :: rest → r.expressible = true →
    run 2 s = .next { s with host := rest, rsp := ⟨1, 6, 0, 0, s.done, []⟩,
                             responses := s.responses ++ [⟨1, 6, 0, 0, s.done, []⟩] })

/-! ## The completion poll -/

/-- The completion poll (42_register_access.md R166): POLL_N is 0 on entry; each step makes one Status read, keeps its
first byte in V_RB and counts it; a clear WIP bit ends the poll, the bound raises CompletionTimeout, anything else
stays for another read. That POLL_N is cleared in the step that enters the poll is the model's reading (log 13). -/
def Obligations.PollRule : Prop :=
  (∀ s t : State, s.rst = false → step s = .next t → t.seq ∈ [Seq.initPoll, .wc2Poll, .pgPoll, .erPoll] →
    t.seq = s.seq ∨ t.pollN = 0)
  ∧ (∀ (s : State), s.rst = false → s.seq ∈ [Seq.initPoll, .wc2Poll, .pgPoll, .erPoll] →
    ∃ td, build s.cfg .rdsr s.mode 0 (if s.mode = .octal then 2 else 1) = some td ∧
      ∀ (b : Byte) (pad : List Byte), s.answerTo (.execRead td) = .ok (b :: pad) →
        let u : State :=
          { s with
            env := s.env.next s.cfg s.trace (.execRead td)
            trace := s.trace ++ [(.execRead td, .ok (b :: pad))]
            vRb := b
            pollN := s.pollN + 1 }
        (b.getLsbD s.cfg.wipBit.val = false →
          (s.seq = .initPoll → step s = .next { u with seq := .initRdcr2 })
          ∧ (s.seq = .pgPoll → step s = .next { u with seq := .pgAdv })
          ∧ (s.seq = .wc2Poll ∨ s.seq = .erPoll →
              step s = .next { u with rsp := ⟨0, 0, 0, 0, s.done, []⟩, seq := .resp }))
        ∧ (b.getLsbD s.cfg.wipBit.val = true → s.cfg.pollLimit ≠ 0 → s.cfg.pollLimit ≤ s.pollN + 1 →
          step s = .next { u with fault := true, faultCause := 3, faultOp := s.hop, faultInfo := 0,
                                  rsp := ⟨3, 0, 0, 0, s.done, []⟩, seq := .resp })
        ∧ (b.getLsbD s.cfg.wipBit.val = true → (s.cfg.pollLimit = 0 ∨ s.pollN + 1 < s.cfg.pollLimit) →
          step s = .next u))

/-- The unbounded poll hangs (60_exceptions.md R262): with POLL_LIMIT 0 and every Status read showing WIP set, `n`
steps make `n` Status reads, each the same call, after the calls made before, and leave the engine in the polling state
with nothing changed but POLL_N and V_RB: no response given, no request taken. Scripted answers and the record of calls
are the model's own (log 4, log 7). -/
def Obligations.PollHangs : Prop :=
  ∀ (s : State) (answers : List (List Byte)) (more : List Answer),
    s.rst = false → s.seq ∈ [Seq.initPoll, .wc2Poll, .pgPoll, .erPoll] → s.cfg.pollLimit = 0 → s.env.kind = .any →
    s.env.script = answers.map Answer.ok ++ more →
    (∀ bs ∈ answers, ∃ b pad, bs = b :: pad ∧ b.getLsbD s.cfg.wipBit.val = true) →
    ∃ (t : State) (reads : History), run answers.length s = .next t
      ∧ t = { s with
        env := { s.env with script := more }
        trace := s.trace ++ reads
        vRb := t.vRb
        pollN := s.pollN + answers.length }
      ∧ reads.map Prod.fst =
          List.replicate answers.length
            (.execRead (transactionOf s.cfg .rdsr s.mode 0 (if s.mode = .octal then 2 else 1)))
      ∧ ∀ (i : Nat) (b : Byte) (pad : List Byte), answers[i]? = some (b :: pad) →
          ∃ q, (reads[i]?).map Prod.snd = some (.ok (b :: q))

/-! ## Steps that make no call, and the end of INIT -/

/-- The four kinds of step that make no transport call: INIT_FLIP writes MODE (43_init_sequencer.md R187), RESP hands
the response over and returns to IDLE (60_exceptions.md R255), PG_ADV advances the four registers and PG_SPLIT ends a
PROGRAM with nothing left (44_array_access.md R205); an idle engine without a request does nothing
(70_reset_and_hazards.md R293). That the operand registers keep their values as RESP goes to IDLE, and while the engine
is idle, is the model's choice (log 35): R31 and U21 give them no defined value between operations. -/
def Obligations.StepsWithoutCalls : Prop :=
  ∀ s : State, s.rst = false →
    (s.seq = .initFlip → step s = .next { s with mode := .octal, seq := .initVerify })
    ∧ (s.seq = .resp → step s = .next { s with responses := s.responses ++ [s.rsp], seq := .idle })
    ∧ (s.seq = .pgAdv → ∃ t, step s = .next t ∧ t =
        { s with aCur := t.aCur, off := t.off, nLeft := t.nLeft, done := t.done, seq := .pgSplit }
      ∧ t.aCur.toNat = (s.aCur.toNat + s.chunk.toNat) % 2 ^ 32
      ∧ t.off.toNat = (s.off.toNat + s.chunk.toNat) % 2 ^ 32
      ∧ (s.chunk.toNat ≤ s.nLeft.toNat → t.nLeft.toNat = s.nLeft.toNat - s.chunk.toNat)
      ∧ t.done.toNat = (s.done.toNat + s.chunk.toNat) % 2 ^ 32)
    ∧ (s.seq = .pgSplit → s.nLeft = 0 →
      step s = .next { s with rsp := ⟨0, 0, 0, 0, s.done, []⟩, seq := .resp })
    ∧ (s.seq = .idle → s.host = [] → step s = .next s)

/-- The end of INIT (43_init_sequencer.md R188, R189, R190): the read-back in Octal shape, all eight bits compared,
INIT_MISMATCH written, and the response or, where the configuration makes it fatal, the exception InitMismatch. -/
def Obligations.InitVerify : Prop :=
  ∀ s : State, s.rst = false → s.seq = .initVerify → s.mode = .octal →
    let c : Call := .execRead ⟨0x718E, .op16, .l8, .dtr, true, .l8, .dtr, 0, .read, .l8, .dtr, 2, s.cfg.dummyRegO⟩
    ∀ b pad, s.answerTo c = .ok [b, pad] →
      let u : State :=
        { s with env := s.env.next s.cfg s.trace c, trace := s.trace ++ [(c, .ok [b, pad])], vRb := b, seq := .resp }
      (b = s.vNew →
        step s = .next { u with initMismatch := false,
                                rsp := ⟨0, 0, 0, 0#8 ++ s.vOld ++ s.vNew ++ b, s.done, []⟩ })
      ∧ (b ≠ s.vNew → s.cfg.initMismatchFatal = false →
        step s = .next { u with initMismatch := true,
                                rsp := ⟨0, 0, 0, 0x80#8 ++ s.vOld ++ s.vNew ++ b, s.done, []⟩ })
      ∧ (b ≠ s.vNew → s.cfg.initMismatchFatal = true →
        step s = .next { u with initMismatch := true, fault := true, faultCause := 4, faultOp := s.hop,
                                faultInfo := 0,
                                rsp := ⟨4, 0, 0, 0x80#8 ++ s.vOld ++ s.vNew ++ b, s.done, []⟩ })

/-! ## Rules of the whole machine -/

/-- Who writes what, over every step without a reset: MODE is written by INIT_FLIP alone, and to 1 (10_state.md R21);
INIT_MISMATCH by the last step of INIT (R26), MMAP_EN by the two window states (R27), DONE by acceptance and PG_ADV
(R28), FAULT and its record are never cleared or rewritten once FAULT is set (R24, R25), the configuration never; and
each operand register by the states of the operations that R31 names for it, RSP by a step that ends in RESP alone.
That a register outlives its operation is the model's choice (log 35), that V_RB is written in INIT_RDCR2 its reading
(log 12). -/
def Obligations.RegisterWriters : Prop :=
  ∀ s t : State, s.rst = false → step s = .next t →
    t.mode = (if s.seq = .initFlip then .octal else s.mode)
    ∧ (s.seq ≠ .initVerify → t.initMismatch = s.initMismatch)
    ∧ (s.seq ≠ .mmEn → s.seq ≠ .mmDis → t.mmapEn = s.mmapEn)
    ∧ (s.seq ≠ .idle → s.seq ≠ .pgAdv → t.done = s.done)
    ∧ (s.seq ≠ .idle → t.hop = s.hop ∧ t.inFlight = s.inFlight ∧ t.host = s.host)
    ∧ (s.seq ≠ .idle → s.seq ≠ .pgAdv → t.aCur = s.aCur ∧ t.nLeft = s.nLeft ∧ t.off = s.off)
    ∧ (s.seq ≠ .pgSplit → t.chunk = s.chunk)
    ∧ (s.seq ∉ [Seq.initPoll, .wc2Poll, .pgPoll, .erPoll] → t.seq ∉ [Seq.initPoll, .wc2Poll, .pgPoll, .erPoll] →
        t.pollN = s.pollN)
    ∧ (s.seq ≠ .initRdcr2 → t.vOld = s.vOld)
    ∧ (s.seq ≠ .initWrcr2 → s.seq ≠ .idle → t.vNew = s.vNew)
    ∧ (s.seq ∉ [Seq.initPoll, .wc2Poll, .pgPoll, .erPoll, .rsrRd, .rcrRd, .rc2Rd, .initRdcr2, .initVerify] →
        t.vRb = s.vRb)
    ∧ (s.seq ≠ .ridRd → s.seq ≠ .rdRd → t.rbuf = s.rbuf)
    ∧ (t.seq ≠ .resp → t.rsp = s.rsp)
    ∧ (s.seq ≠ .resp → t.responses = s.responses)
    ∧ (s.fault = true → t.fault = true)
    ∧ (Consistent s → s.fault = true →
        t.faultCause = s.faultCause ∧ t.faultOp = s.faultOp ∧ t.faultInfo = s.faultInfo)
    ∧ t.cfg = s.cfg ∧ t.rst = false

/-- One step makes at most one transport call, and exactly one in every state but IDLE, RESP, INIT_FLIP, PG_SPLIT and
PG_ADV (10_state.md R30); calls are only ever added, in order (20_memory.md R67); and a bus transaction has the opcode
length of MODE (10_state.md R22, 30_encoding.md R105). -/
def Obligations.OneCallPerStep : Prop :=
  ∀ s t : State, s.rst = false → step s = .next t →
    ((s.seq ∈ [Seq.idle, .resp, .initFlip, .pgSplit, .pgAdv] → t.trace = s.trace ∧ t.env = s.env)
    ∧ ((t.trace = s.trace ∧ t.env = s.env)
        ∨ ∃ c, t.trace = s.trace ++ [(c, s.answerTo c)] ∧ t.env = s.env.next s.cfg s.trace c)
    ∧ (Consistent s → s.seq ∉ [Seq.idle, .resp, .initFlip, .pgSplit, .pgAdv] →
        ∃ c, t.trace = s.trace ++ [(c, s.answerTo c)])
    ∧ (∀ c a td data, t.trace = s.trace ++ [(c, a)] → c.transaction = some (td, data) →
        td.isz = if s.mode = .legacy then .op8 else .op16))

/-- While the window is enabled the engine makes no bus transaction: the only calls are the two memory-mapped ones
(20_memory.md R71, 45_memory_mapped.md R231). -/
def Obligations.NoBusCallWhileWindow : Prop :=
  ∀ s t : State, Consistent s → s.mmapEn = true → step s = .next t →
    t.trace = s.trace ∨ ∃ c a, t.trace = s.trace ++ [(c, a)] ∧ c.transaction = none

/-- The pad byte is never examined (42_register_access.md R162, 20_memory.md R56): two runs of a register read in
Octal mode, or of a polling state, whose environments differ in the second byte answered alone, end in states that
differ in the recorded answer alone. Scripted answers and the record of calls are the model's own (log 4, log 7); a
state that reads RDCR is one whose configuration has the row (42_register_access.md R168). -/
def Obligations.PadByteIgnored : Prop :=
  ∀ (s : State) (b p q : Byte) (more : List Answer),
    s.rst = false → s.mode = .octal → s.env.kind = .any →
    s.seq ∈ [Seq.initPoll, .wc2Poll, .pgPoll, .erPoll, .rsrRd, .rcrRd, .rc2Rd, .initRdcr2, .initVerify] →
    (s.seq = .rcrRd → s.cfg.rdcr ≠ none) →
    ∃ t u,
      step { s with env := { s.env with script := .ok [b, p] :: more } } = .next t
      ∧ step { s with env := { s.env with script := .ok [b, q] :: more } } = .next u
      ∧ { u with trace := t.trace } = t

/-! ## Whole operations, under any environment -/

/-- READ_ID, READ_STATUS, READ_CFG and READ_CFG2 from request to response (42_register_access.md R167 to R170;
30_encoding.md R93): one call each, the payload the first byte, or the three bytes, first byte lowest; READ_CFG where
the configuration has its row. Nothing else changes; of the operand registers that is the model's choice (log 35,
log 9), and scripted answers and the record of calls are its own (log 4, log 7). -/
def Obligations.RegisterReadsWhole : Prop :=
  ∀ (s : State) (r : Request) (rest : List Request) (more : List Answer),
    s.ready = true → s.mode = .octal → s.mmapEn = false → s.env.kind = .any → s.host = r :: rest →
    r.w0.extractLsb' 4 4 = 0 → r.w0.extractLsb' 16 16 = 0 →
    let u : State := { s with host := rest, env := { s.env with script := more } }
    (∀ (h : BitVec 4) (td : TD) (a : Word) (b pad : Byte),
      (h, td, a) ∈ [((0x3 : BitVec 4), transactionOf s.cfg .rdsr .octal 0 2, (0 : Word)),
                    (0x4, transactionOf s.cfg .rdcr .octal 0 2, 0),
                    (0x5, transactionOf s.cfg .rdcr2 .octal r.w1 2, r.w1)] →
      (h = 0x4 → s.cfg.rdcr ≠ none) → r.w0.extractLsb' 0 4 = h → s.env.script = .ok [b, pad] :: more →
      run 3 s = .next { u with
        hop := h
        inFlight := ⟨a, 0, []⟩
        vRb := b
        trace := s.trace ++ [(.execRead td, .ok [b, pad])]
        rsp := ⟨0, 0, 0, b.setWidth 32, s.done, []⟩
        responses := s.responses ++ [⟨0, 0, 0, b.setWidth 32, s.done, []⟩] })
    ∧ (∀ i0 i1 i2 : Byte, r.w0.extractLsb' 0 4 = 0x2 → s.env.script = .ok [i0, i1, i2] :: more →
      run 3 s = .next { u with
        hop := 0x2
        inFlight := ⟨0, 0, []⟩
        rbuf := [i0, i1, i2]
        trace := s.trace ++ [(.execRead (transactionOf s.cfg .rdid .octal 0 3), .ok [i0, i1, i2])]
        rsp := ⟨0, 0, 0, 0#8 ++ i2 ++ i1 ++ i0, s.done, []⟩
        responses := s.responses ++ [⟨0, 0, 0, 0#8 ++ i2 ++ i1 ++ i0, s.done, []⟩] })

/-- READ from request to response (44_array_access.md R202): one transaction whatever the length, the data as
answered; none for a zero length. That the operand registers it does not load keep their values is the model's choice
(log 35, log 9). -/
def Obligations.ReadWhole : Prop :=
  ∀ (s : State) (r : Request) (rest : List Request),
    s.ready = true → s.mode = .octal → s.mmapEn = false → s.host = r :: rest →
    r.w0.extractLsb' 0 4 = 0x7 → r.w0.extractLsb' 4 4 = 0 → r.w0.extractLsb' 16 16 = 0 →
    r.w1.toNat + r.w2.toNat ≤ 0x02000000 →
    let u : State := { s with host := rest, hop := 0x7, inFlight := ⟨r.w1, r.w2, []⟩ }
    (r.w2 = 0 → run 2 s = .next { u with rsp := ⟨0, 0, 0, 0, s.done, []⟩,
                                         responses := s.responses ++ [⟨0, 0, 0, 0, s.done, []⟩] })
    ∧ (∀ (bytes : List Byte) (more : List Answer),
      r.w2 ≠ 0 → bytes.length = r.w2.toNat → s.env.kind = .any → s.env.script = .ok bytes :: more →
      run 3 s = .next { u with
        rbuf := bytes
        env := { s.env with script := more }
        trace := s.trace ++ [(.execRead (transactionOf s.cfg .dtrd8 .octal r.w1 r.w2), .ok bytes)]
        rsp := ⟨0, 0, 0, 0, s.done, bytes⟩
        responses := s.responses ++ [⟨0, 0, 0, 0, s.done, bytes⟩] })

/-- WRITE_CFG2 from request to response (42_register_access.md R171): Write Enable, the widened value, the poll. That
the operand registers it does not load keep their values is the model's choice (log 35, log 9). -/
def Obligations.WriteCfg2Whole : Prop :=
  ∀ (s : State) (r : Request) (rest : List Request) (p : Poll) (more : List Answer),
    s.ready = true → s.mode = .octal → s.mmapEn = false → s.env.kind = .any → s.host = r :: rest →
    r.w0.extractLsb' 0 4 = 0x6 → r.w0.extractLsb' 4 4 = 0 → r.w0.extractLsb' 16 16 = 0 →
    PollReturns s.cfg .octal p → s.env.script = [.ok [], .ok []] ++ p.answers ++ more →
    run (p.busy.length + 5) s = .next { s with
      host := rest
      hop := 0x6
      inFlight := ⟨r.w1, 0, []⟩
      aCur := r.w1
      vNew := r.w0.extractLsb' 8 8
      pollN := p.reads
      vRb := byteAt p.last 0
      env := { s.env with script := more }
      trace := s.trace
        ++ [(.execCmd (transactionOf s.cfg .wren .octal 0 0), .ok []),
            (.execWrite (transactionOf s.cfg .wrcr2 .octal r.w1 2) [r.w0.extractLsb' 8 8, 0x00], .ok [])]
        ++ p.history s.cfg .octal
      rsp := ⟨0, 0, 0, 0, s.done, []⟩
      responses := s.responses ++ [⟨0, 0, 0, 0, s.done, []⟩] }

/-- The erases from request to response (44_array_access.md R207 to R210): Write Enable, the erase command with the
address as given or none, the poll. That the operand registers they do not load keep their values is the model's
choice (log 35, log 9). -/
def Obligations.EraseWhole : Prop :=
  ∀ (s : State) (r : Request) (rest : List Request) (p : Poll) (more : List Answer) (h : BitVec 4) (c : Cmd) (a : Word),
    (h, c, a) ∈ [((0x9 : BitVec 4), Cmd.se, r.w1), (0xA, .be, r.w1), (0xB, .ce, 0)] →
    s.ready = true → s.mode = .octal → s.mmapEn = false → s.env.kind = .any → s.host = r :: rest →
    r.w0.extractLsb' 0 4 = h → r.w0.extractLsb' 4 4 = 0 → r.w0.extractLsb' 16 16 = 0 →
    a.toNat < 0x02000000 →
    PollReturns s.cfg .octal p → s.env.script = [.ok [], .ok []] ++ p.answers ++ more →
    run (p.busy.length + 5) s = .next { s with
      host := rest
      hop := h
      inFlight := ⟨a, 0, []⟩
      aCur := if c = .ce then s.aCur else r.w1
      pollN := p.reads
      vRb := byteAt p.last 0
      env := { s.env with script := more }
      trace := s.trace
        ++ [(.execCmd (transactionOf s.cfg .wren .octal 0 0), .ok []),
            (.execCmd (transactionOf s.cfg c .octal a 0), .ok [])]
        ++ p.history s.cfg .octal
      rsp := ⟨0, 0, 0, 0, s.done, []⟩
      responses := s.responses ++ [⟨0, 0, 0, 0, s.done, []⟩] }

/-- INIT from request to response (43_init_sequencer.md R182, R183 to R188, R193): the `6 + p` calls in order, the
Legacy ones before the flip and the Octal read-back after it, and the end state. That the operand registers it does
not load keep their values is the model's choice (log 35, log 9). -/
def Obligations.InitWhole : Prop :=
  ∀ (s : State) (r : Request) (rest : List Request) (p : Poll) (more : List Answer) (old rb pad : Byte),
    s.ready = true → s.mode = .legacy → s.mmapEn = false → s.env.kind = .any → s.host = r :: rest →
    r.w0.extractLsb' 0 4 = 0x1 → r.w0.extractLsb' 4 4 = 0 → r.w0.extractLsb' 16 16 = 0 →
    PollReturns s.cfg .legacy p →
    s.env.script = [.ok [], .ok []] ++ p.answers ++ [.ok [old], .ok [], .ok [], .ok [rb, pad]] ++ more →
    (rb = old ||| 0x02 ∨ s.cfg.initMismatchFatal = false) →
    let m : Bool := rb != old ||| 0x02
    let payload : Word := BitVec.ofBool m ++ 0#7 ++ old ++ (old ||| 0x02) ++ rb
    run (p.busy.length + 10) s = .next { s with
      host := rest
      hop := 0x1
      inFlight := ⟨0, 0, []⟩
      mode := .octal
      initMismatch := m
      pollN := p.reads
      vOld := old
      vNew := old ||| 0x02
      vRb := rb
      env := { s.env with script := more }
      trace := s.trace
        ++ [(.execCmd (transactionOf s.cfg .rsten .legacy 0 0), .ok []),
            (.execCmd (transactionOf s.cfg .rst .legacy 0 0), .ok [])]
        ++ p.history s.cfg .legacy
        ++ [(.execRead (transactionOf s.cfg .rdcr2 .legacy 0 1), .ok [old]),
            (.execCmd (transactionOf s.cfg .wren .legacy 0 0), .ok []),
            (.execWrite (transactionOf s.cfg .wrcr2 .legacy 0 1) [old ||| 0x02], .ok []),
            (.execRead (transactionOf s.cfg .rdcr2 .octal 0 2), .ok [rb, pad])]
      rsp := ⟨0, 0, 0, payload, s.done, []⟩
      responses := s.responses ++ [⟨0, 0, 0, payload, s.done, []⟩] }

/-- PROGRAM from request to response (44_array_access.md R205, R206, R211): for each chunk of the splitter, in rising
address order, Write Enable, page program with its slice of the buffer, and the poll; DONE is the length at the end.
Only CHUNK, POLL_N and V_RB are left unsaid. That the operand registers it does not load keep their values is the
model's choice (log 35, log 9). -/
def Obligations.ProgramWhole : Prop :=
  ∀ (s : State) (r : Request) (rest : List Request) (polls : List Poll) (more : List Answer),
    s.ready = true → s.mode = .octal → s.mmapEn = false → s.env.kind = .any → s.host = r :: rest →
    r.w0.extractLsb' 0 4 = 0x8 → r.w0.extractLsb' 4 4 = 0 → r.w0.extractLsb' 16 16 = 0 →
    r.wdata.length = r.w2.toNat → r.w1.toNat + r.w2.toNat ≤ 0x02000000 →
    polls.length = (chunks r.w1.toNat r.w2.toNat).length → (∀ p ∈ polls, PollReturns s.cfg .octal p) →
    s.env.script = (polls.map fun p => [.ok [], .ok []] ++ p.answers).flatten ++ more →
    ∃ t, run (3 + (polls.map fun p => p.busy.length + 5).sum) s = .next t
      ∧ t = { s with
        host := rest
        hop := 0x8
        inFlight := ⟨r.w1, r.w2, r.wdata⟩
        aCur := r.w1 + r.w2
        nLeft := 0
        off := r.w2
        done := r.w2
        chunk := t.chunk
        pollN := t.pollN
        vRb := t.vRb
        env := { s.env with script := more }
        trace := s.trace
          ++ (List.zipWith (chunkHistory s.cfg r.w1.toNat r.wdata) (chunks r.w1.toNat r.w2.toNat) polls).flatten
        rsp := ⟨0, 0, 0, 0, r.w2, []⟩
        responses := s.responses ++ [⟨0, 0, 0, 0, r.w2, []⟩] }

/-- Page-split correctness (44_array_access.md R206), every clause: chunk sizes, no chunk across a page boundary, the
sum, contiguous rising addresses, page-aligned starts after the first, whole pages between the first and the last, and
how many chunks there are. -/
def Obligations.PageSplitCorrect : Prop :=
  ∀ addr len : Nat,
    let cs := chunks addr len
    (∀ p ∈ cs, 1 ≤ p.2 ∧ p.2 ≤ 256)
    ∧ (∀ p ∈ cs, p.1 / 256 = (p.1 + p.2 - 1) / 256)
    ∧ (cs.map Prod.snd).sum = len
    ∧ (∀ p, cs.head? = some p → p.1 = addr)
    ∧ (∀ (i : Nat) (p q : Nat × Nat), cs[i]? = some p → cs[i + 1]? = some q →
        q.1 = p.1 + p.2 ∧ p.1 < q.1 ∧ q.1 % 256 = 0)
    ∧ (∀ (i : Nat) (p : Nat × Nat), 0 < i → i + 1 < cs.length → cs[i]? = some p → p.2 = 256)
    ∧ cs.length = (if len = 0 then 0 else (addr + len - 1) / 256 - addr / 256 + 1)

/-! ## Invariants -/

/-- The reset state is consistent, holds canonical memories and has made no calls. -/
def Obligations.ResetIsConsistent : Prop :=
  Consistent State.reset ∧ State.reset.env.chip.wf = true ∧ TraceShaped State.reset ∧ WrenDiscipline State.reset

/-- Every step keeps the engine consistent: the fault record is 0 without FAULT, FAULT stops the engine, only INIT
runs in Legacy mode and none of it before the flip in Octal mode, only the window operations run while the window is
enabled, HOP is the operation in flight, and the registers of a PROGRAM and the range of an erase agree with the
request (10_state.md R23, R25, R31, R32; 43_init_sequencer.md R181, R193; 44_array_access.md R200, R204, R205). -/
def Obligations.ConsistentKept : Prop :=
  ∀ s t : State, Consistent s → step s = .next t → Consistent t

/-- Every step keeps every transport call well shaped: normal form, one of the two profiles, even register lengths,
data of the descriptor's length, page programs inside a page (30_encoding.md R104; 41_transaction_builder.md R148;
42_register_access.md R172; 44_array_access.md R203). RDCR is among the even registers where the configuration has its
row with an opcode that is no other row's (log 30): a trace does not tell it from that row's command otherwise. -/
def Obligations.TraceShapedKept : Prop :=
  ∀ s t : State, TraceShaped s → step s = .next t → TraceShaped t

/-- Every step keeps the Write Enable pairing (20_memory.md R69): each page-program, erase and Configuration-2 write
transaction directly follows a Write Enable. -/
def Obligations.WrenDisciplineKept : Prop :=
  ∀ s t : State, WrenDiscipline s → step s = .next t → WrenDiscipline t

/-- Every step keeps the chip's memories in canonical form, and in that form memories that read alike are equal. What
an unlisted byte reads as is the model's choice (log 20, log 21). -/
def Obligations.MemoryCanonical : Prop :=
  (∀ s t : State, s.env.chip.wf = true → step s = .next t → t.env.chip.wf = true)
  ∧ (∀ (fill : Byte) (limit : Nat) (m n : Memory), Memory.wf fill limit m = true → Memory.wf fill limit n = true →
      (∀ a, Memory.read fill m a = Memory.read fill n a) → m = n)

/-- A consistent engine with a host that presents requests that exist always has a next step, and goes on so:
nothing the spec describes stops the model. A PROGRAM request with a wrong byte count is the one a host cannot present
(30_encoding.md R82; log 14). -/
def Obligations.NoStop : Prop :=
  ∀ s : State, Consistent s → s.hostExpressible = true →
    ∃ t, step s = .next t ∧ Consistent t ∧ t.hostExpressible = true

/-! ## Reset and the words the host reads -/

/-- Reset (10_state.md R37, 70_reset_and_hazards.md R290): the values the spec gives in `State.reset`, and from any
state, in the middle of an operation too, one step to them with no transport call and nothing outside the engine
touched. That the reset input is a bit of State which the next step takes, and that the requests at the port and the
responses handed over stay while a response not yet handed over is lost, is the model's choice (log 17); that
`State.reset` has the configuration CFG_REF is log 1. -/
def Obligations.ResetLeaves : Prop :=
  (State.reset.mode = .legacy ∧ State.reset.fault = false ∧ State.reset.faultCause = 0 ∧ State.reset.faultOp = 0
    ∧ State.reset.faultInfo = 0 ∧ State.reset.initMismatch = false ∧ State.reset.mmapEn = false
    ∧ State.reset.done = 0 ∧ State.reset.seq = .idle ∧ State.reset.statusWord = 0 ∧ State.reset.progressWord = 0
    ∧ step State.reset = .next State.reset)
  ∧ (∀ s : State, s.rst = true → ∃ t, step s = .next t
    ∧ t.mode = .legacy ∧ t.fault = false ∧ t.faultCause = 0 ∧ t.faultOp = 0 ∧ t.faultInfo = 0
    ∧ t.initMismatch = false ∧ t.mmapEn = false ∧ t.done = 0 ∧ t.seq = .idle ∧ t.statusWord = 0
    ∧ t.progressWord = 0 ∧ t.trace = s.trace ∧ t.env = s.env ∧ t.cfg = s.cfg ∧ t.host = s.host
    ∧ t.responses = s.responses)

/-- The words the host reads, field by field: STATUS and PROGRESS (10_state.md R33), and the response words
(30_encoding.md R90). -/
def Obligations.HostWords : Prop :=
  (∀ s : State,
    s.statusWord.getLsbD 0 = decide (s.mode = .octal)
    ∧ s.statusWord.getLsbD 1 = decide (s.seq ≠ .idle)
    ∧ s.statusWord.getLsbD 2 = s.fault
    ∧ s.statusWord.getLsbD 3 = s.initMismatch
    ∧ s.statusWord.getLsbD 4 = s.mmapEn
    ∧ s.statusWord.extractLsb' 5 3 = 0
    ∧ s.statusWord.extractLsb' 8 4 = s.faultCause
    ∧ s.statusWord.extractLsb' 12 4 = s.faultOp
    ∧ s.statusWord.extractLsb' 16 8 = s.faultInfo
    ∧ s.statusWord.extractLsb' 24 8 = 0
    ∧ s.progressWord = s.done)
  ∧ (∀ r : Response,
    r.q0.extractLsb' 0 4 = r.status ∧ r.q0.extractLsb' 4 4 = r.sub ∧ r.q0.extractLsb' 8 8 = r.info
    ∧ r.q0.extractLsb' 16 16 = 0 ∧ r.q1 = r.payload ∧ r.q2 = r.done)

/-! ## The reference environment -/

/-- Register commands under ENV_REF in the mode of the link (20_memory.md R74): Write Enable sets WEL; a
Configuration-2 write lands only with WEL, switches the link at address 0 with bit 1 set, and leaves every other
register, the array and the identification alone; reads return the chip's bytes and change nothing, but that a Status
read takes one off the busy count and clears WEL when that ends the cycle; RSTEN and then RST puts the registers at
their power-up state, keeps the link, the array and the identification, and may leave WIP set. The memory-mapped calls
set and clear the transport's flag (R76). The position of WEL and when it clears are marked in R74 as general knowledge
(log 27). The model's choices are: which descriptors the chip recognises (log 22), that commands are carried out while
WIP is set and that a write never ends Octal mode (log 34), the power-up registers (log 21), a cycle of zero busy reads
(log 24), a cycle started in a cycle (log 36), that the busy time of RST ends like a cycle, WEL clear (log 37), and the
Status byte under another WIP_BIT than CFG_REF's (log 26). -/
def Obligations.ReferenceRegisters : Prop :=
  (∀ (s : State) (m : Mode) (a : Word) (v : Byte),
    s.env.kind = .reference → s.env.chip.link = m → s.mode = m → s.env.chip.wf = true →
    (∃ t, exec (if m = .legacy then .wrenL else .wrenO) s = .next t
      ∧ t.env = { s.env with chip := { s.env.chip with wel := true, rstArmed := false } })
    ∧ (∃ t, exec (if m = .legacy then .wrcr2L a v else .wrcr2O a v) s = .next t
      ∧ (s.env.chip.wel = true →
        (∀ x : Word, t.env.chip.cr2Byte x = if x = a then v else s.env.chip.cr2Byte x)
        ∧ t.env.chip.link = (if a = 0 ∧ v.getLsbD 1 = true then .octal else m)
        ∧ t.env.chip.arr = s.env.chip.arr ∧ t.env.chip.id = s.env.chip.id
        ∧ (t.env.chip.wel = true ↔ t.env.chip.busyLeft ≠ 0))
      ∧ (s.env.chip.wel = false → t.env = { s.env with chip := { s.env.chip with rstArmed := false } }))
    ∧ (∃ t, exec (if m = .legacy then .rdcr2L a else .rdcr2O a) s = .next t
      ∧ t.vRb = s.env.chip.cr2Byte a ∧ t.env = { s.env with chip := { s.env.chip with rstArmed := false } })
    ∧ (∃ t, exec (if m = .legacy then .rdidL else .rdidO) s = .next t
      ∧ t.rbuf = [s.env.chip.id.1, s.env.chip.id.2.1, s.env.chip.id.2.2]
      ∧ t.env = { s.env with chip := { s.env.chip with rstArmed := false } })
    ∧ (∃ t, exec (if m = .legacy then .rdsrL else .rdsrO) s = .next t
      ∧ t.vRb = (if s.env.chip.busyLeft = 0 then 0 else (1 : Byte) <<< s.cfg.wipBit.val)
          ||| (if s.env.chip.wel = true then 0x02 else 0)
      ∧ t.env = { s.env with
          chip := { s.env.chip with
            busyLeft := s.env.chip.busyLeft - 1
            wel := s.env.chip.wel && decide (s.env.chip.busyLeft ≠ 1)
            rstArmed := false } })
    ∧ (m = .legacy → ∃ t u, exec .rstenL s = .next t ∧ exec .rstL t = .next u
      ∧ u.env.chip.link = .legacy ∧ u.env.chip.wel = false ∧ u.env.chip.cr2 = Chip.powerUp.cr2
      ∧ u.env.chip.arr = s.env.chip.arr ∧ u.env.chip.id = s.env.chip.id ∧ u.env.mm = s.env.mm
      ∧ ∀ b rest, s.env.busy = b :: rest → u.env.chip.busyLeft = b ∧ u.env.busy = rest))
  ∧ (∀ s : State, s.env.kind = .reference → s.rst = false →
    (s.seq = .mmEn → ∃ t, step s = .next t ∧ t.mmapEn = true ∧ t.env = { s.env with mm := true })
    ∧ (s.seq = .mmDis → ∃ t, step s = .next t ∧ t.mmapEn = false ∧ t.env = { s.env with mm := false }))

/-- Array reads and page programs under ENV_REF (20_memory.md R75): a read returns the bytes of its range and changes
nothing; a page program with WEL clears bits of the bytes of its range, and no other byte; without WEL it is ignored.
That programming is a bitwise AND, and that WEL clears when a cycle ends, are marked in the spec as general knowledge
(log 27). The model's choices are: which descriptors the chip recognises (log 22), that commands are carried out while
WIP is set (log 34), that WEL is clear at once after a cycle of zero busy reads (log 24), and a cycle started in a cycle
(log 36). -/
def Obligations.ReferenceArray : Prop :=
  ∀ (s : State) (a : Word),
    s.env.kind = .reference → s.env.chip.link = .octal → s.mode = .octal → s.env.chip.wf = true →
    (∀ n : Word, a.toNat + n.toNat ≤ 0x02000000 →
      ∃ t, exec (.dtrd8O a n) s = .next t
        ∧ t.rbuf = (List.range n.toNat).map (fun i => s.env.chip.arrayByte (a.toNat + i))
        ∧ t.env = { s.env with chip := { s.env.chip with rstArmed := false } })
    ∧ (∀ data : List Byte, a.toNat + data.length ≤ 0x02000000 → pageOk a data.length = true →
      ∃ t, exec (.pp4bO a data) s = .next t
        ∧ (s.env.chip.wel = true →
          (∀ x, t.env.chip.arrayByte x =
            if a.toNat ≤ x ∧ x < a.toNat + data.length then
              s.env.chip.arrayByte x &&& byteAt data (x - a.toNat)
            else s.env.chip.arrayByte x)
          ∧ t.env.chip.cr2 = s.env.chip.cr2 ∧ t.env.chip.id = s.env.chip.id ∧ t.env.chip.link = .octal
          ∧ (t.env.chip.wel = true ↔ t.env.chip.busyLeft ≠ 0))
        ∧ (s.env.chip.wel = false → t.env = { s.env with chip := { s.env.chip with rstArmed := false } }))

/-- Erases under ENV_REF (20_memory.md R60, R75): with WEL every byte of the sector, the block or the array becomes
0xFF, the unit being the one that contains the address, and no other byte changes; without WEL nothing does. The
erased value 0xFF, and that WEL clears when a cycle ends, are marked in the spec as general knowledge (log 27). The
model's choices are: which descriptors the chip recognises (log 22), that commands are carried out while WIP is set
(log 34), that WEL is clear at once after a cycle of zero busy reads (log 24), and a cycle started in a cycle (log
36). -/
def Obligations.ReferenceErases : Prop :=
  ∀ (s : State) (a : Word),
    s.env.kind = .reference → s.env.chip.link = .octal → s.mode = .octal → a.toNat < 0x02000000 →
    ∀ p ∈ [(Instr.seO a, fun x : Nat => decide (x / 4096 = a.toNat / 4096)),
           (.beO a, fun x : Nat => decide (x / 65536 = a.toNat / 65536)),
           (.ceO, fun x : Nat => decide (x < 0x02000000))],
      ∃ t, exec p.1 s = .next t
        ∧ (s.env.chip.wel = true →
          (∀ x, t.env.chip.arrayByte x = if p.2 x then 0xFF else s.env.chip.arrayByte x)
          ∧ t.env.chip.cr2 = s.env.chip.cr2 ∧ t.env.chip.id = s.env.chip.id ∧ t.env.chip.link = .octal
          ∧ (t.env.chip.wel = true ↔ t.env.chip.busyLeft ≠ 0))
        ∧ (s.env.chip.wel = false → t.env = { s.env with chip := { s.env.chip with rstArmed := false } })

/-- A Configuration-2 write completes and the chip holds the value (20_memory.md R74, 42_register_access.md R171): under
ENV_REF, with the chip in Octal, a WRITE_CFG2 completes in finitely many steps with an OK response, whatever the chip's
busy count (log 24), and leaves the chip holding the value, its cycle over and WEL clear; no READ_CFG2 is run. That WEL
clears when the cycle ends is marked in R74 as general knowledge (log 27). The model's choices are: that a write of
address 0 with bit 1 clear does not end Octal mode, and that commands are carried out while WIP is set (log 34); which
descriptors the chip recognises (log 22); a cycle started in a cycle (log 36), for a chip that is busy at the start; and,
for a WIP_BIT other than CFG_REF's, the Status byte by which the poll ends (log 26). -/
def Obligations.ReferenceWriteCompletes : Prop :=
  ∀ (s : State) (r : Request) (rest : List Request),
    s.ready = true → s.mode = .octal → s.mmapEn = false → s.cfg.pollLimit = 0 → s.env.kind = .reference →
    s.env.chip.link = .octal → s.env.chip.wf = true → s.host = r :: rest →
    r.w0.extractLsb' 0 4 = 0x6 → r.w0.extractLsb' 4 4 = 0 → r.w0.extractLsb' 16 16 = 0 →
    ∃ n t, run n s = .next t ∧ t.seq = .idle ∧ t.responses = s.responses ++ [⟨0, 0, 0, 0, s.done, []⟩]
      ∧ t.env.chip.cr2Byte r.w1 = r.w0.extractLsb' 8 8 ∧ t.env.chip.busyLeft = 0 ∧ t.env.chip.wel = false
      ∧ t.env.chip.arr = s.env.chip.arr
end

