-- ==== Sys2Proof/Laws/Memory.lean ====
section
/-! SUPPORT. Memory: every operation keeps the canonical form, and what a byte reads as after each. -/

namespace Sys2Proof.Machine

variable {fill : Byte} {limit : Nat}

theorem wfFrom_cons {lo k : Nat} {b : Byte} {m : Memory} :
    Memory.wfFrom fill limit lo ((k, b) :: m) = true ↔
      lo ≤ k ∧ k < limit ∧ b ≠ fill ∧ Memory.wfFrom fill limit (k + 1) m = true := by
  simp [Memory.wfFrom, and_assoc]

theorem wfFrom_mono {lo lo' : Nat} {m : Memory} (h : Memory.wfFrom fill limit lo m = true) (hl : lo' ≤ lo) :
    Memory.wfFrom fill limit lo' m = true := by
  cases m with
  | nil => rfl
  | cons p m =>
    obtain ⟨k, b⟩ := p
    rw [wfFrom_cons] at h ⊢
    exact ⟨hl.trans h.1, h.2⟩

theorem entry_wfFrom {lo a : Nat} {v : Byte} {m : Memory} (hm : Memory.wfFrom fill limit (a + 1) m = true)
    (hl : lo ≤ a) (ha : a < limit) : Memory.wfFrom fill limit lo (Memory.entry fill a v m) = true := by
  unfold Memory.entry
  split
  · exact wfFrom_mono hm (by omega)
  · next hv => exact wfFrom_cons.2 ⟨hl, ha, hv, hm⟩

theorem write_wfFrom {m : Memory} {lo a : Nat} {v : Byte} (hm : Memory.wfFrom fill limit lo m = true)
    (hl : lo ≤ a) (ha : a < limit) : Memory.wfFrom fill limit lo (Memory.write fill m a v) = true := by
  induction m generalizing lo with
  | nil => exact entry_wfFrom rfl hl ha
  | cons p m ih =>
    obtain ⟨k, b⟩ := p
    have ⟨h1, h2, h3, h4⟩ := wfFrom_cons.1 hm
    simp only [Memory.write]
    split
    · next hk => exact wfFrom_cons.2 ⟨h1, h2, h3, ih h4 hk⟩
    · split
      · next hk => subst hk; exact entry_wfFrom h4 hl ha
      · exact entry_wfFrom (wfFrom_cons.2 ⟨by omega, h2, h3, h4⟩) hl ha

/-- A write keeps the canonical form. -/
theorem write_wf {m : Memory} {a : Nat} {v : Byte} (hm : Memory.wf fill limit m = true) (ha : a < limit) :
    Memory.wf fill limit (Memory.write fill m a v) = true := write_wfFrom hm (Nat.zero_le _) ha

theorem clear_wfFrom {m : Memory} {lo x y : Nat} (hm : Memory.wfFrom fill limit lo m = true) :
    Memory.wfFrom fill limit lo (Memory.clear m x y) = true := by
  induction m generalizing lo with
  | nil => rfl
  | cons p m ih =>
    obtain ⟨k, b⟩ := p
    have ⟨h1, h2, h3, h4⟩ := wfFrom_cons.1 hm
    simp only [Memory.clear, List.filter_cons]
    split
    · exact wfFrom_cons.2 ⟨h1, h2, h3, ih h4⟩
    · exact wfFrom_mono (ih h4) (by omega)

/-- An erase keeps the canonical form. -/
theorem clear_wf {m : Memory} {x y : Nat} (hm : Memory.wf fill limit m = true) :
    Memory.wf fill limit (Memory.clear m x y) = true := clear_wfFrom hm

/-- Programming keeps the canonical form where the data lies below the limit. -/
theorem program_wf {data : List Byte} {m : Memory} {a : Nat} (hm : Memory.wf fill limit m = true)
    (ha : a + data.length ≤ limit) : Memory.wf fill limit (Memory.program fill m a data) = true := by
  induction data generalizing m a with
  | nil => exact hm
  | cons d rest ih =>
    simp only [List.length_cons] at ha
    exact ih (write_wf hm (by omega)) (by omega)

/-- A memory made of entries is in canonical form, whatever the entries are. -/
theorem ofEntries_wf (l : Memory) : Memory.wf fill limit (Memory.ofEntries fill limit l) = true := by
  induction l with
  | nil => rfl
  | cons p l ih =>
    obtain ⟨a, b⟩ := p
    simp only [Memory.ofEntries]
    split
    · next h => exact write_wf ih h
    · exact ih

/-- The canonical chip is in canonical form. -/
theorem canonical_wf (c : Chip) : c.canonical.wf = true := by
  simp [Chip.wf, Chip.canonical, ofEntries_wf]

/-- The memory of the reset state is in canonical form. -/
theorem reset_memory_wf : State.reset.env.chip.wf = true := by decide

theorem read_of_lt {m : Memory} {lo a : Nat} (hm : Memory.wfFrom fill limit lo m = true) (ha : a < lo) :
    Memory.read fill m a = fill := by
  induction m generalizing lo with
  | nil => rfl
  | cons p m ih =>
    obtain ⟨k, b⟩ := p
    have ⟨h1, _, _, h4⟩ := wfFrom_cons.1 hm
    simp only [Memory.read]
    rw [if_neg (by omega)]
    exact ih h4 (by omega)

theorem read_entry {m : Memory} {a x : Nat} {v : Byte} (hm : Memory.wfFrom fill limit (a + 1) m = true) :
    Memory.read fill (Memory.entry fill a v m) x = if x = a then v else Memory.read fill m x := by
  unfold Memory.entry
  by_cases hv : v = fill
  · rw [if_pos hv]
    split
    · next hx => subst hx; rw [hv]; exact read_of_lt hm (by omega)
    · rfl
  · rw [if_neg hv]
    simp only [Memory.read]
    by_cases hx : a = x
    · rw [if_pos hx, if_pos hx.symm]
    · rw [if_neg hx, if_neg (fun h => hx h.symm)]

theorem read_write_from {m : Memory} {lo a x : Nat} {v : Byte} (hm : Memory.wfFrom fill limit lo m = true) :
    Memory.read fill (Memory.write fill m a v) x = if x = a then v else Memory.read fill m x := by
  induction m generalizing lo with
  | nil => exact read_entry (limit := limit) rfl
  | cons p m ih =>
    obtain ⟨k, b⟩ := p
    have ⟨h1, h2, h3, h4⟩ := wfFrom_cons.1 hm
    simp only [Memory.write]
    split
    · next hk =>
      simp only [Memory.read, ih h4]
      by_cases hx : k = x
      · rw [if_pos hx, if_neg (by omega), if_pos hx]
      · rw [if_neg hx, if_neg hx]
    · split
      · next hk =>
        subst hk
        rw [read_entry h4]
        simp only [Memory.read]
        by_cases hx : x = k
        · rw [if_pos hx, if_pos hx]
        · rw [if_neg hx, if_neg hx, if_neg (fun h => hx h.symm)]
      · exact read_entry (wfFrom_cons.2 ⟨by omega, h2, h3, h4⟩)

/-- Read after write. -/
theorem read_write {m : Memory} {a x : Nat} {v : Byte} (hm : Memory.wf fill limit m = true) :
    Memory.read fill (Memory.write fill m a v) x = if x = a then v else Memory.read fill m x :=
  read_write_from hm

theorem read_clear {m : Memory} {x y a : Nat} :
    Memory.read fill (Memory.clear m x y) a = if x ≤ a ∧ a < y then fill else Memory.read fill m a := by
  induction m with
  | nil => simp [Memory.clear, Memory.read]
  | cons p m ih =>
    obtain ⟨k, b⟩ := p
    simp only [Memory.clear, List.filter_cons] at ih ⊢
    by_cases hk : k < x ∨ y ≤ k
    · rw [if_pos (by simpa using hk)]
      simp only [Memory.read]
      by_cases ha : k = a
      · rw [if_pos ha, if_pos ha, if_neg (by omega)]
      · rw [if_neg ha, if_neg ha]; exact ih
    · rw [if_neg (by simpa using hk)]
      simp only [Memory.read]
      by_cases ha : k = a
      · rw [ih, if_pos (by omega), if_pos (by omega)]
      · rw [if_neg ha]; exact ih

/-- Programming ANDs the data into its range and changes no other byte (20_memory.md R75). -/
theorem read_program {data : List Byte} {m : Memory} {a x : Nat} (hm : Memory.wf fill limit m = true)
    (h : a + data.length ≤ limit) :
    Memory.read fill (Memory.program fill m a data) x =
      if a ≤ x ∧ x < a + data.length then Memory.read fill m x &&& data.getD (x - a) 0 else Memory.read fill m x := by
  induction data generalizing m a with
  | nil => simp [Memory.program]
  | cons d l ih =>
    simp only [List.length_cons] at h ⊢
    simp only [Memory.program]
    rw [ih (write_wf hm (by omega)) (by omega), read_write hm]
    by_cases hx : x = a
    · subst hx; rw [if_neg (by omega), if_pos rfl, if_pos (by omega)]; simp
    · rw [if_neg hx]
      by_cases h2 : a + 1 ≤ x ∧ x < a + 1 + l.length
      · rw [if_pos h2, if_pos (by omega)]
        obtain ⟨k, hk⟩ : ∃ k, x - a = k + 1 := ⟨x - a - 1, by omega⟩
        rw [hk, show x - (a + 1) = k by omega]; simp
      · rw [if_neg h2, if_neg (by omega)]

end Sys2Proof.Machine
end

