-- ==== Sys2Proof/Laws/State.lean ====
section
/-! SUPPORT. One lemma per field of State per update, true by rfl and in the simp set, so that no proof unfolds a
record update. -/

namespace Sys2Proof.Machine

/-! ### goto -/

@[simp] theorem goto_cfg (s : State) (q : Seq) : (s.goto q).cfg = s.cfg := rfl
@[simp] theorem goto_mode (s : State) (q : Seq) : (s.goto q).mode = s.mode := rfl
@[simp] theorem goto_fault (s : State) (q : Seq) : (s.goto q).fault = s.fault := rfl
@[simp] theorem goto_initMismatch (s : State) (q : Seq) : (s.goto q).initMismatch = s.initMismatch := rfl
@[simp] theorem goto_mmapEn (s : State) (q : Seq) : (s.goto q).mmapEn = s.mmapEn := rfl
@[simp] theorem goto_faultCause (s : State) (q : Seq) : (s.goto q).faultCause = s.faultCause := rfl
@[simp] theorem goto_faultOp (s : State) (q : Seq) : (s.goto q).faultOp = s.faultOp := rfl
@[simp] theorem goto_faultInfo (s : State) (q : Seq) : (s.goto q).faultInfo = s.faultInfo := rfl
@[simp] theorem goto_done (s : State) (q : Seq) : (s.goto q).done = s.done := rfl
@[simp] theorem goto_seq (s : State) (q : Seq) : (s.goto q).seq = q := rfl
@[simp] theorem goto_hop (s : State) (q : Seq) : (s.goto q).hop = s.hop := rfl
@[simp] theorem goto_aCur (s : State) (q : Seq) : (s.goto q).aCur = s.aCur := rfl
@[simp] theorem goto_nLeft (s : State) (q : Seq) : (s.goto q).nLeft = s.nLeft := rfl
@[simp] theorem goto_off (s : State) (q : Seq) : (s.goto q).off = s.off := rfl
@[simp] theorem goto_chunk (s : State) (q : Seq) : (s.goto q).chunk = s.chunk := rfl
@[simp] theorem goto_pollN (s : State) (q : Seq) : (s.goto q).pollN = s.pollN := rfl
@[simp] theorem goto_vOld (s : State) (q : Seq) : (s.goto q).vOld = s.vOld := rfl
@[simp] theorem goto_vNew (s : State) (q : Seq) : (s.goto q).vNew = s.vNew := rfl
@[simp] theorem goto_vRb (s : State) (q : Seq) : (s.goto q).vRb = s.vRb := rfl
@[simp] theorem goto_rbuf (s : State) (q : Seq) : (s.goto q).rbuf = s.rbuf := rfl
@[simp] theorem goto_rsp (s : State) (q : Seq) : (s.goto q).rsp = s.rsp := rfl
@[simp] theorem goto_inFlight (s : State) (q : Seq) : (s.goto q).inFlight = s.inFlight := rfl
@[simp] theorem goto_rst (s : State) (q : Seq) : (s.goto q).rst = s.rst := rfl
@[simp] theorem goto_host (s : State) (q : Seq) : (s.goto q).host = s.host := rfl
@[simp] theorem goto_responses (s : State) (q : Seq) : (s.goto q).responses = s.responses := rfl
@[simp] theorem goto_env (s : State) (q : Seq) : (s.goto q).env = s.env := rfl
@[simp] theorem goto_trace (s : State) (q : Seq) : (s.goto q).trace = s.trace := rfl

/-! ### startPoll -/

@[simp] theorem startPoll_cfg (s : State) (q : Seq) : (s.startPoll q).cfg = s.cfg := rfl
@[simp] theorem startPoll_mode (s : State) (q : Seq) : (s.startPoll q).mode = s.mode := rfl
@[simp] theorem startPoll_fault (s : State) (q : Seq) : (s.startPoll q).fault = s.fault := rfl
@[simp] theorem startPoll_initMismatch (s : State) (q : Seq) : (s.startPoll q).initMismatch = s.initMismatch := rfl
@[simp] theorem startPoll_mmapEn (s : State) (q : Seq) : (s.startPoll q).mmapEn = s.mmapEn := rfl
@[simp] theorem startPoll_faultCause (s : State) (q : Seq) : (s.startPoll q).faultCause = s.faultCause := rfl
@[simp] theorem startPoll_faultOp (s : State) (q : Seq) : (s.startPoll q).faultOp = s.faultOp := rfl
@[simp] theorem startPoll_faultInfo (s : State) (q : Seq) : (s.startPoll q).faultInfo = s.faultInfo := rfl
@[simp] theorem startPoll_done (s : State) (q : Seq) : (s.startPoll q).done = s.done := rfl
@[simp] theorem startPoll_seq (s : State) (q : Seq) : (s.startPoll q).seq = q := rfl
@[simp] theorem startPoll_hop (s : State) (q : Seq) : (s.startPoll q).hop = s.hop := rfl
@[simp] theorem startPoll_aCur (s : State) (q : Seq) : (s.startPoll q).aCur = s.aCur := rfl
@[simp] theorem startPoll_nLeft (s : State) (q : Seq) : (s.startPoll q).nLeft = s.nLeft := rfl
@[simp] theorem startPoll_off (s : State) (q : Seq) : (s.startPoll q).off = s.off := rfl
@[simp] theorem startPoll_chunk (s : State) (q : Seq) : (s.startPoll q).chunk = s.chunk := rfl
@[simp] theorem startPoll_pollN (s : State) (q : Seq) : (s.startPoll q).pollN = 0 := rfl
@[simp] theorem startPoll_vOld (s : State) (q : Seq) : (s.startPoll q).vOld = s.vOld := rfl
@[simp] theorem startPoll_vNew (s : State) (q : Seq) : (s.startPoll q).vNew = s.vNew := rfl
@[simp] theorem startPoll_vRb (s : State) (q : Seq) : (s.startPoll q).vRb = s.vRb := rfl
@[simp] theorem startPoll_rbuf (s : State) (q : Seq) : (s.startPoll q).rbuf = s.rbuf := rfl
@[simp] theorem startPoll_rsp (s : State) (q : Seq) : (s.startPoll q).rsp = s.rsp := rfl
@[simp] theorem startPoll_inFlight (s : State) (q : Seq) : (s.startPoll q).inFlight = s.inFlight := rfl
@[simp] theorem startPoll_rst (s : State) (q : Seq) : (s.startPoll q).rst = s.rst := rfl
@[simp] theorem startPoll_host (s : State) (q : Seq) : (s.startPoll q).host = s.host := rfl
@[simp] theorem startPoll_responses (s : State) (q : Seq) : (s.startPoll q).responses = s.responses := rfl
@[simp] theorem startPoll_env (s : State) (q : Seq) : (s.startPoll q).env = s.env := rfl
@[simp] theorem startPoll_trace (s : State) (q : Seq) : (s.startPoll q).trace = s.trace := rfl

/-! ### respondOk -/

@[simp] theorem respondOk_cfg (s : State) (p : Word) (d : List Byte) : (s.respondOk p d).cfg = s.cfg := rfl
@[simp] theorem respondOk_mode (s : State) (p : Word) (d : List Byte) : (s.respondOk p d).mode = s.mode := rfl
@[simp] theorem respondOk_fault (s : State) (p : Word) (d : List Byte) : (s.respondOk p d).fault = s.fault := rfl
@[simp] theorem respondOk_initMismatch (s : State) (p : Word) (d : List Byte) : (s.respondOk p d).initMismatch = s.initMismatch := rfl
@[simp] theorem respondOk_mmapEn (s : State) (p : Word) (d : List Byte) : (s.respondOk p d).mmapEn = s.mmapEn := rfl
@[simp] theorem respondOk_faultCause (s : State) (p : Word) (d : List Byte) : (s.respondOk p d).faultCause = s.faultCause := rfl
@[simp] theorem respondOk_faultOp (s : State) (p : Word) (d : List Byte) : (s.respondOk p d).faultOp = s.faultOp := rfl
@[simp] theorem respondOk_faultInfo (s : State) (p : Word) (d : List Byte) : (s.respondOk p d).faultInfo = s.faultInfo := rfl
@[simp] theorem respondOk_done (s : State) (p : Word) (d : List Byte) : (s.respondOk p d).done = s.done := rfl
@[simp] theorem respondOk_seq (s : State) (p : Word) (d : List Byte) : (s.respondOk p d).seq = .resp := rfl
@[simp] theorem respondOk_hop (s : State) (p : Word) (d : List Byte) : (s.respondOk p d).hop = s.hop := rfl
@[simp] theorem respondOk_aCur (s : State) (p : Word) (d : List Byte) : (s.respondOk p d).aCur = s.aCur := rfl
@[simp] theorem respondOk_nLeft (s : State) (p : Word) (d : List Byte) : (s.respondOk p d).nLeft = s.nLeft := rfl
@[simp] theorem respondOk_off (s : State) (p : Word) (d : List Byte) : (s.respondOk p d).off = s.off := rfl
@[simp] theorem respondOk_chunk (s : State) (p : Word) (d : List Byte) : (s.respondOk p d).chunk = s.chunk := rfl
@[simp] theorem respondOk_pollN (s : State) (p : Word) (d : List Byte) : (s.respondOk p d).pollN = s.pollN := rfl
@[simp] theorem respondOk_vOld (s : State) (p : Word) (d : List Byte) : (s.respondOk p d).vOld = s.vOld := rfl
@[simp] theorem respondOk_vNew (s : State) (p : Word) (d : List Byte) : (s.respondOk p d).vNew = s.vNew := rfl
@[simp] theorem respondOk_vRb (s : State) (p : Word) (d : List Byte) : (s.respondOk p d).vRb = s.vRb := rfl
@[simp] theorem respondOk_rbuf (s : State) (p : Word) (d : List Byte) : (s.respondOk p d).rbuf = s.rbuf := rfl
@[simp] theorem respondOk_rsp (s : State) (p : Word) (d : List Byte) : (s.respondOk p d).rsp = { status := 0, sub := 0, info := 0, payload := p, done := s.done, rdata := d } := rfl
@[simp] theorem respondOk_inFlight (s : State) (p : Word) (d : List Byte) : (s.respondOk p d).inFlight = s.inFlight := rfl
@[simp] theorem respondOk_rst (s : State) (p : Word) (d : List Byte) : (s.respondOk p d).rst = s.rst := rfl
@[simp] theorem respondOk_host (s : State) (p : Word) (d : List Byte) : (s.respondOk p d).host = s.host := rfl
@[simp] theorem respondOk_responses (s : State) (p : Word) (d : List Byte) : (s.respondOk p d).responses = s.responses := rfl
@[simp] theorem respondOk_env (s : State) (p : Word) (d : List Byte) : (s.respondOk p d).env = s.env := rfl
@[simp] theorem respondOk_trace (s : State) (p : Word) (d : List Byte) : (s.respondOk p d).trace = s.trace := rfl

/-! ### refuse -/

@[simp] theorem refuse_cfg (s : State) (v : Violation) : (s.refuse v).cfg = s.cfg := rfl
@[simp] theorem refuse_mode (s : State) (v : Violation) : (s.refuse v).mode = s.mode := rfl
@[simp] theorem refuse_fault (s : State) (v : Violation) : (s.refuse v).fault = s.fault := rfl
@[simp] theorem refuse_initMismatch (s : State) (v : Violation) : (s.refuse v).initMismatch = s.initMismatch := rfl
@[simp] theorem refuse_mmapEn (s : State) (v : Violation) : (s.refuse v).mmapEn = s.mmapEn := rfl
@[simp] theorem refuse_faultCause (s : State) (v : Violation) : (s.refuse v).faultCause = s.faultCause := rfl
@[simp] theorem refuse_faultOp (s : State) (v : Violation) : (s.refuse v).faultOp = s.faultOp := rfl
@[simp] theorem refuse_faultInfo (s : State) (v : Violation) : (s.refuse v).faultInfo = s.faultInfo := rfl
@[simp] theorem refuse_done (s : State) (v : Violation) : (s.refuse v).done = s.done := rfl
@[simp] theorem refuse_seq (s : State) (v : Violation) : (s.refuse v).seq = .resp := rfl
@[simp] theorem refuse_hop (s : State) (v : Violation) : (s.refuse v).hop = s.hop := rfl
@[simp] theorem refuse_aCur (s : State) (v : Violation) : (s.refuse v).aCur = s.aCur := rfl
@[simp] theorem refuse_nLeft (s : State) (v : Violation) : (s.refuse v).nLeft = s.nLeft := rfl
@[simp] theorem refuse_off (s : State) (v : Violation) : (s.refuse v).off = s.off := rfl
@[simp] theorem refuse_chunk (s : State) (v : Violation) : (s.refuse v).chunk = s.chunk := rfl
@[simp] theorem refuse_pollN (s : State) (v : Violation) : (s.refuse v).pollN = s.pollN := rfl
@[simp] theorem refuse_vOld (s : State) (v : Violation) : (s.refuse v).vOld = s.vOld := rfl
@[simp] theorem refuse_vNew (s : State) (v : Violation) : (s.refuse v).vNew = s.vNew := rfl
@[simp] theorem refuse_vRb (s : State) (v : Violation) : (s.refuse v).vRb = s.vRb := rfl
@[simp] theorem refuse_rbuf (s : State) (v : Violation) : (s.refuse v).rbuf = s.rbuf := rfl
@[simp] theorem refuse_rsp (s : State) (v : Violation) : (s.refuse v).rsp = { status := 1, sub := v.code, info := 0, payload := 0, done := s.done, rdata := [] } := rfl
@[simp] theorem refuse_inFlight (s : State) (v : Violation) : (s.refuse v).inFlight = s.inFlight := rfl
@[simp] theorem refuse_rst (s : State) (v : Violation) : (s.refuse v).rst = s.rst := rfl
@[simp] theorem refuse_host (s : State) (v : Violation) : (s.refuse v).host = s.host := rfl
@[simp] theorem refuse_responses (s : State) (v : Violation) : (s.refuse v).responses = s.responses := rfl
@[simp] theorem refuse_env (s : State) (v : Violation) : (s.refuse v).env = s.env := rfl
@[simp] theorem refuse_trace (s : State) (v : Violation) : (s.refuse v).trace = s.trace := rfl

/-! ### deliver -/

@[simp] theorem deliver_cfg (s : State) : s.deliver.cfg = s.cfg := rfl
@[simp] theorem deliver_mode (s : State) : s.deliver.mode = s.mode := rfl
@[simp] theorem deliver_fault (s : State) : s.deliver.fault = s.fault := rfl
@[simp] theorem deliver_initMismatch (s : State) : s.deliver.initMismatch = s.initMismatch := rfl
@[simp] theorem deliver_mmapEn (s : State) : s.deliver.mmapEn = s.mmapEn := rfl
@[simp] theorem deliver_faultCause (s : State) : s.deliver.faultCause = s.faultCause := rfl
@[simp] theorem deliver_faultOp (s : State) : s.deliver.faultOp = s.faultOp := rfl
@[simp] theorem deliver_faultInfo (s : State) : s.deliver.faultInfo = s.faultInfo := rfl
@[simp] theorem deliver_done (s : State) : s.deliver.done = s.done := rfl
@[simp] theorem deliver_seq (s : State) : s.deliver.seq = .idle := rfl
@[simp] theorem deliver_hop (s : State) : s.deliver.hop = s.hop := rfl
@[simp] theorem deliver_aCur (s : State) : s.deliver.aCur = s.aCur := rfl
@[simp] theorem deliver_nLeft (s : State) : s.deliver.nLeft = s.nLeft := rfl
@[simp] theorem deliver_off (s : State) : s.deliver.off = s.off := rfl
@[simp] theorem deliver_chunk (s : State) : s.deliver.chunk = s.chunk := rfl
@[simp] theorem deliver_pollN (s : State) : s.deliver.pollN = s.pollN := rfl
@[simp] theorem deliver_vOld (s : State) : s.deliver.vOld = s.vOld := rfl
@[simp] theorem deliver_vNew (s : State) : s.deliver.vNew = s.vNew := rfl
@[simp] theorem deliver_vRb (s : State) : s.deliver.vRb = s.vRb := rfl
@[simp] theorem deliver_rbuf (s : State) : s.deliver.rbuf = s.rbuf := rfl
@[simp] theorem deliver_rsp (s : State) : s.deliver.rsp = s.rsp := rfl
@[simp] theorem deliver_inFlight (s : State) : s.deliver.inFlight = s.inFlight := rfl
@[simp] theorem deliver_rst (s : State) : s.deliver.rst = s.rst := rfl
@[simp] theorem deliver_host (s : State) : s.deliver.host = s.host := rfl
@[simp] theorem deliver_responses (s : State) : s.deliver.responses = s.responses ++ [s.rsp] := rfl
@[simp] theorem deliver_env (s : State) : s.deliver.env = s.env := rfl
@[simp] theorem deliver_trace (s : State) : s.deliver.trace = s.trace := rfl

/-! ### raise -/

@[simp] theorem raise_cfg (s : State) (e : Exn) : (s.raise e).cfg = s.cfg := rfl
@[simp] theorem raise_mode (s : State) (e : Exn) : (s.raise e).mode = s.mode := rfl
@[simp] theorem raise_fault (s : State) (e : Exn) : (s.raise e).fault = (s.fault || e.sticky) := rfl
@[simp] theorem raise_initMismatch (s : State) (e : Exn) : (s.raise e).initMismatch = s.initMismatch := rfl
@[simp] theorem raise_mmapEn (s : State) (e : Exn) : (s.raise e).mmapEn = s.mmapEn := rfl
@[simp] theorem raise_faultCause (s : State) (e : Exn) : (s.raise e).faultCause = if e.sticky then e.code else s.faultCause := rfl
@[simp] theorem raise_faultOp (s : State) (e : Exn) : (s.raise e).faultOp = if e.sticky then s.hop else s.faultOp := rfl
@[simp] theorem raise_faultInfo (s : State) (e : Exn) : (s.raise e).faultInfo = if e.sticky then e.info else s.faultInfo := rfl
@[simp] theorem raise_done (s : State) (e : Exn) : (s.raise e).done = s.done := rfl
@[simp] theorem raise_seq (s : State) (e : Exn) : (s.raise e).seq = .resp := rfl
@[simp] theorem raise_hop (s : State) (e : Exn) : (s.raise e).hop = s.hop := rfl
@[simp] theorem raise_aCur (s : State) (e : Exn) : (s.raise e).aCur = s.aCur := rfl
@[simp] theorem raise_nLeft (s : State) (e : Exn) : (s.raise e).nLeft = s.nLeft := rfl
@[simp] theorem raise_off (s : State) (e : Exn) : (s.raise e).off = s.off := rfl
@[simp] theorem raise_chunk (s : State) (e : Exn) : (s.raise e).chunk = s.chunk := rfl
@[simp] theorem raise_pollN (s : State) (e : Exn) : (s.raise e).pollN = s.pollN := rfl
@[simp] theorem raise_vOld (s : State) (e : Exn) : (s.raise e).vOld = s.vOld := rfl
@[simp] theorem raise_vNew (s : State) (e : Exn) : (s.raise e).vNew = s.vNew := rfl
@[simp] theorem raise_vRb (s : State) (e : Exn) : (s.raise e).vRb = s.vRb := rfl
@[simp] theorem raise_rbuf (s : State) (e : Exn) : (s.raise e).rbuf = s.rbuf := rfl
@[simp] theorem raise_rsp (s : State) (e : Exn) : (s.raise e).rsp = { status := e.code, sub := e.sub, info := e.info, payload := if e = .initMismatch then initPayload true s.vOld s.vNew s.vRb else 0, done := s.done, rdata := [] } := rfl
@[simp] theorem raise_inFlight (s : State) (e : Exn) : (s.raise e).inFlight = s.inFlight := rfl
@[simp] theorem raise_rst (s : State) (e : Exn) : (s.raise e).rst = s.rst := rfl
@[simp] theorem raise_host (s : State) (e : Exn) : (s.raise e).host = s.host := rfl
@[simp] theorem raise_responses (s : State) (e : Exn) : (s.raise e).responses = s.responses := rfl
@[simp] theorem raise_env (s : State) (e : Exn) : (s.raise e).env = s.env := rfl
@[simp] theorem raise_trace (s : State) (e : Exn) : (s.raise e).trace = s.trace := rfl

/-! ### called -/

@[simp] theorem called_cfg (s : State) (c : Call) : (s.called c).cfg = s.cfg := rfl
@[simp] theorem called_mode (s : State) (c : Call) : (s.called c).mode = s.mode := rfl
@[simp] theorem called_fault (s : State) (c : Call) : (s.called c).fault = s.fault := rfl
@[simp] theorem called_initMismatch (s : State) (c : Call) : (s.called c).initMismatch = s.initMismatch := rfl
@[simp] theorem called_mmapEn (s : State) (c : Call) : (s.called c).mmapEn = s.mmapEn := rfl
@[simp] theorem called_faultCause (s : State) (c : Call) : (s.called c).faultCause = s.faultCause := rfl
@[simp] theorem called_faultOp (s : State) (c : Call) : (s.called c).faultOp = s.faultOp := rfl
@[simp] theorem called_faultInfo (s : State) (c : Call) : (s.called c).faultInfo = s.faultInfo := rfl
@[simp] theorem called_done (s : State) (c : Call) : (s.called c).done = s.done := rfl
@[simp] theorem called_seq (s : State) (c : Call) : (s.called c).seq = s.seq := rfl
@[simp] theorem called_hop (s : State) (c : Call) : (s.called c).hop = s.hop := rfl
@[simp] theorem called_aCur (s : State) (c : Call) : (s.called c).aCur = s.aCur := rfl
@[simp] theorem called_nLeft (s : State) (c : Call) : (s.called c).nLeft = s.nLeft := rfl
@[simp] theorem called_off (s : State) (c : Call) : (s.called c).off = s.off := rfl
@[simp] theorem called_chunk (s : State) (c : Call) : (s.called c).chunk = s.chunk := rfl
@[simp] theorem called_pollN (s : State) (c : Call) : (s.called c).pollN = s.pollN := rfl
@[simp] theorem called_vOld (s : State) (c : Call) : (s.called c).vOld = s.vOld := rfl
@[simp] theorem called_vNew (s : State) (c : Call) : (s.called c).vNew = s.vNew := rfl
@[simp] theorem called_vRb (s : State) (c : Call) : (s.called c).vRb = s.vRb := rfl
@[simp] theorem called_rbuf (s : State) (c : Call) : (s.called c).rbuf = s.rbuf := rfl
@[simp] theorem called_rsp (s : State) (c : Call) : (s.called c).rsp = s.rsp := rfl
@[simp] theorem called_inFlight (s : State) (c : Call) : (s.called c).inFlight = s.inFlight := rfl
@[simp] theorem called_rst (s : State) (c : Call) : (s.called c).rst = s.rst := rfl
@[simp] theorem called_host (s : State) (c : Call) : (s.called c).host = s.host := rfl
@[simp] theorem called_responses (s : State) (c : Call) : (s.called c).responses = s.responses := rfl
@[simp] theorem called_env (s : State) (c : Call) : (s.called c).env = s.env.next s.cfg s.trace c := rfl
@[simp] theorem called_trace (s : State) (c : Call) : (s.called c).trace = s.trace ++ [(c, s.answerTo c)] := rfl

/-! ### initFlip -/

@[simp] theorem initFlip_cfg (s : State) : s.initFlip.cfg = s.cfg := rfl
@[simp] theorem initFlip_mode (s : State) : s.initFlip.mode = .octal := rfl
@[simp] theorem initFlip_fault (s : State) : s.initFlip.fault = s.fault := rfl
@[simp] theorem initFlip_initMismatch (s : State) : s.initFlip.initMismatch = s.initMismatch := rfl
@[simp] theorem initFlip_mmapEn (s : State) : s.initFlip.mmapEn = s.mmapEn := rfl
@[simp] theorem initFlip_faultCause (s : State) : s.initFlip.faultCause = s.faultCause := rfl
@[simp] theorem initFlip_faultOp (s : State) : s.initFlip.faultOp = s.faultOp := rfl
@[simp] theorem initFlip_faultInfo (s : State) : s.initFlip.faultInfo = s.faultInfo := rfl
@[simp] theorem initFlip_done (s : State) : s.initFlip.done = s.done := rfl
@[simp] theorem initFlip_seq (s : State) : s.initFlip.seq = .initVerify := rfl
@[simp] theorem initFlip_hop (s : State) : s.initFlip.hop = s.hop := rfl
@[simp] theorem initFlip_aCur (s : State) : s.initFlip.aCur = s.aCur := rfl
@[simp] theorem initFlip_nLeft (s : State) : s.initFlip.nLeft = s.nLeft := rfl
@[simp] theorem initFlip_off (s : State) : s.initFlip.off = s.off := rfl
@[simp] theorem initFlip_chunk (s : State) : s.initFlip.chunk = s.chunk := rfl
@[simp] theorem initFlip_pollN (s : State) : s.initFlip.pollN = s.pollN := rfl
@[simp] theorem initFlip_vOld (s : State) : s.initFlip.vOld = s.vOld := rfl
@[simp] theorem initFlip_vNew (s : State) : s.initFlip.vNew = s.vNew := rfl
@[simp] theorem initFlip_vRb (s : State) : s.initFlip.vRb = s.vRb := rfl
@[simp] theorem initFlip_rbuf (s : State) : s.initFlip.rbuf = s.rbuf := rfl
@[simp] theorem initFlip_rsp (s : State) : s.initFlip.rsp = s.rsp := rfl
@[simp] theorem initFlip_inFlight (s : State) : s.initFlip.inFlight = s.inFlight := rfl
@[simp] theorem initFlip_rst (s : State) : s.initFlip.rst = s.rst := rfl
@[simp] theorem initFlip_host (s : State) : s.initFlip.host = s.host := rfl
@[simp] theorem initFlip_responses (s : State) : s.initFlip.responses = s.responses := rfl
@[simp] theorem initFlip_env (s : State) : s.initFlip.env = s.env := rfl
@[simp] theorem initFlip_trace (s : State) : s.initFlip.trace = s.trace := rfl

/-! ### programAdvance -/

@[simp] theorem programAdvance_cfg (s : State) : s.programAdvance.cfg = s.cfg := rfl
@[simp] theorem programAdvance_mode (s : State) : s.programAdvance.mode = s.mode := rfl
@[simp] theorem programAdvance_fault (s : State) : s.programAdvance.fault = s.fault := rfl
@[simp] theorem programAdvance_initMismatch (s : State) : s.programAdvance.initMismatch = s.initMismatch := rfl
@[simp] theorem programAdvance_mmapEn (s : State) : s.programAdvance.mmapEn = s.mmapEn := rfl
@[simp] theorem programAdvance_faultCause (s : State) : s.programAdvance.faultCause = s.faultCause := rfl
@[simp] theorem programAdvance_faultOp (s : State) : s.programAdvance.faultOp = s.faultOp := rfl
@[simp] theorem programAdvance_faultInfo (s : State) : s.programAdvance.faultInfo = s.faultInfo := rfl
@[simp] theorem programAdvance_done (s : State) : s.programAdvance.done = s.done + s.chunk.setWidth 32 := rfl
@[simp] theorem programAdvance_seq (s : State) : s.programAdvance.seq = .pgSplit := rfl
@[simp] theorem programAdvance_hop (s : State) : s.programAdvance.hop = s.hop := rfl
@[simp] theorem programAdvance_aCur (s : State) : s.programAdvance.aCur = s.aCur + s.chunk.setWidth 32 := rfl
@[simp] theorem programAdvance_nLeft (s : State) : s.programAdvance.nLeft = s.nLeft - s.chunk.setWidth 32 := rfl
@[simp] theorem programAdvance_off (s : State) : s.programAdvance.off = s.off + s.chunk.setWidth 32 := rfl
@[simp] theorem programAdvance_chunk (s : State) : s.programAdvance.chunk = s.chunk := rfl
@[simp] theorem programAdvance_pollN (s : State) : s.programAdvance.pollN = s.pollN := rfl
@[simp] theorem programAdvance_vOld (s : State) : s.programAdvance.vOld = s.vOld := rfl
@[simp] theorem programAdvance_vNew (s : State) : s.programAdvance.vNew = s.vNew := rfl
@[simp] theorem programAdvance_vRb (s : State) : s.programAdvance.vRb = s.vRb := rfl
@[simp] theorem programAdvance_rbuf (s : State) : s.programAdvance.rbuf = s.rbuf := rfl
@[simp] theorem programAdvance_rsp (s : State) : s.programAdvance.rsp = s.rsp := rfl
@[simp] theorem programAdvance_inFlight (s : State) : s.programAdvance.inFlight = s.inFlight := rfl
@[simp] theorem programAdvance_rst (s : State) : s.programAdvance.rst = s.rst := rfl
@[simp] theorem programAdvance_host (s : State) : s.programAdvance.host = s.host := rfl
@[simp] theorem programAdvance_responses (s : State) : s.programAdvance.responses = s.responses := rfl
@[simp] theorem programAdvance_env (s : State) : s.programAdvance.env = s.env := rfl
@[simp] theorem programAdvance_trace (s : State) : s.programAdvance.trace = s.trace := rfl

/-! ### engineReset -/

@[simp] theorem engineReset_cfg (s : State) : s.engineReset.cfg = s.cfg := rfl
@[simp] theorem engineReset_mode (s : State) : s.engineReset.mode = .legacy := rfl
@[simp] theorem engineReset_fault (s : State) : s.engineReset.fault = false := rfl
@[simp] theorem engineReset_initMismatch (s : State) : s.engineReset.initMismatch = false := rfl
@[simp] theorem engineReset_mmapEn (s : State) : s.engineReset.mmapEn = false := rfl
@[simp] theorem engineReset_faultCause (s : State) : s.engineReset.faultCause = 0 := rfl
@[simp] theorem engineReset_faultOp (s : State) : s.engineReset.faultOp = 0 := rfl
@[simp] theorem engineReset_faultInfo (s : State) : s.engineReset.faultInfo = 0 := rfl
@[simp] theorem engineReset_done (s : State) : s.engineReset.done = 0 := rfl
@[simp] theorem engineReset_seq (s : State) : s.engineReset.seq = .idle := rfl
@[simp] theorem engineReset_hop (s : State) : s.engineReset.hop = 0 := rfl
@[simp] theorem engineReset_aCur (s : State) : s.engineReset.aCur = 0 := rfl
@[simp] theorem engineReset_nLeft (s : State) : s.engineReset.nLeft = 0 := rfl
@[simp] theorem engineReset_off (s : State) : s.engineReset.off = 0 := rfl
@[simp] theorem engineReset_chunk (s : State) : s.engineReset.chunk = 0 := rfl
@[simp] theorem engineReset_pollN (s : State) : s.engineReset.pollN = 0 := rfl
@[simp] theorem engineReset_vOld (s : State) : s.engineReset.vOld = 0 := rfl
@[simp] theorem engineReset_vNew (s : State) : s.engineReset.vNew = 0 := rfl
@[simp] theorem engineReset_vRb (s : State) : s.engineReset.vRb = 0 := rfl
@[simp] theorem engineReset_rbuf (s : State) : s.engineReset.rbuf = [] := rfl
@[simp] theorem engineReset_rsp (s : State) : s.engineReset.rsp = Response.zero := rfl
@[simp] theorem engineReset_inFlight (s : State) : s.engineReset.inFlight = ⟨0, 0, []⟩ := rfl
@[simp] theorem engineReset_rst (s : State) : s.engineReset.rst = false := rfl
@[simp] theorem engineReset_host (s : State) : s.engineReset.host = s.host := rfl
@[simp] theorem engineReset_responses (s : State) : s.engineReset.responses = s.responses := rfl
@[simp] theorem engineReset_env (s : State) : s.engineReset.env = s.env := rfl
@[simp] theorem engineReset_trace (s : State) : s.engineReset.trace = s.trace := rfl

/-! ### storeVRb -/

@[simp] theorem storeVRb_cfg (s : State) (bs : List Byte) : (storeVRb bs s).cfg = s.cfg := rfl
@[simp] theorem storeVRb_mode (s : State) (bs : List Byte) : (storeVRb bs s).mode = s.mode := rfl
@[simp] theorem storeVRb_fault (s : State) (bs : List Byte) : (storeVRb bs s).fault = s.fault := rfl
@[simp] theorem storeVRb_initMismatch (s : State) (bs : List Byte) : (storeVRb bs s).initMismatch = s.initMismatch := rfl
@[simp] theorem storeVRb_mmapEn (s : State) (bs : List Byte) : (storeVRb bs s).mmapEn = s.mmapEn := rfl
@[simp] theorem storeVRb_faultCause (s : State) (bs : List Byte) : (storeVRb bs s).faultCause = s.faultCause := rfl
@[simp] theorem storeVRb_faultOp (s : State) (bs : List Byte) : (storeVRb bs s).faultOp = s.faultOp := rfl
@[simp] theorem storeVRb_faultInfo (s : State) (bs : List Byte) : (storeVRb bs s).faultInfo = s.faultInfo := rfl
@[simp] theorem storeVRb_done (s : State) (bs : List Byte) : (storeVRb bs s).done = s.done := rfl
@[simp] theorem storeVRb_seq (s : State) (bs : List Byte) : (storeVRb bs s).seq = s.seq := rfl
@[simp] theorem storeVRb_hop (s : State) (bs : List Byte) : (storeVRb bs s).hop = s.hop := rfl
@[simp] theorem storeVRb_aCur (s : State) (bs : List Byte) : (storeVRb bs s).aCur = s.aCur := rfl
@[simp] theorem storeVRb_nLeft (s : State) (bs : List Byte) : (storeVRb bs s).nLeft = s.nLeft := rfl
@[simp] theorem storeVRb_off (s : State) (bs : List Byte) : (storeVRb bs s).off = s.off := rfl
@[simp] theorem storeVRb_chunk (s : State) (bs : List Byte) : (storeVRb bs s).chunk = s.chunk := rfl
@[simp] theorem storeVRb_pollN (s : State) (bs : List Byte) : (storeVRb bs s).pollN = s.pollN := rfl
@[simp] theorem storeVRb_vOld (s : State) (bs : List Byte) : (storeVRb bs s).vOld = s.vOld := rfl
@[simp] theorem storeVRb_vNew (s : State) (bs : List Byte) : (storeVRb bs s).vNew = s.vNew := rfl
@[simp] theorem storeVRb_vRb (s : State) (bs : List Byte) : (storeVRb bs s).vRb = byteAt bs 0 := rfl
@[simp] theorem storeVRb_rbuf (s : State) (bs : List Byte) : (storeVRb bs s).rbuf = s.rbuf := rfl
@[simp] theorem storeVRb_rsp (s : State) (bs : List Byte) : (storeVRb bs s).rsp = s.rsp := rfl
@[simp] theorem storeVRb_inFlight (s : State) (bs : List Byte) : (storeVRb bs s).inFlight = s.inFlight := rfl
@[simp] theorem storeVRb_rst (s : State) (bs : List Byte) : (storeVRb bs s).rst = s.rst := rfl
@[simp] theorem storeVRb_host (s : State) (bs : List Byte) : (storeVRb bs s).host = s.host := rfl
@[simp] theorem storeVRb_responses (s : State) (bs : List Byte) : (storeVRb bs s).responses = s.responses := rfl
@[simp] theorem storeVRb_env (s : State) (bs : List Byte) : (storeVRb bs s).env = s.env := rfl
@[simp] theorem storeVRb_trace (s : State) (bs : List Byte) : (storeVRb bs s).trace = s.trace := rfl

/-! ### storeRbuf -/

@[simp] theorem storeRbuf_cfg (s : State) (bs : List Byte) : (storeRbuf bs s).cfg = s.cfg := rfl
@[simp] theorem storeRbuf_mode (s : State) (bs : List Byte) : (storeRbuf bs s).mode = s.mode := rfl
@[simp] theorem storeRbuf_fault (s : State) (bs : List Byte) : (storeRbuf bs s).fault = s.fault := rfl
@[simp] theorem storeRbuf_initMismatch (s : State) (bs : List Byte) : (storeRbuf bs s).initMismatch = s.initMismatch := rfl
@[simp] theorem storeRbuf_mmapEn (s : State) (bs : List Byte) : (storeRbuf bs s).mmapEn = s.mmapEn := rfl
@[simp] theorem storeRbuf_faultCause (s : State) (bs : List Byte) : (storeRbuf bs s).faultCause = s.faultCause := rfl
@[simp] theorem storeRbuf_faultOp (s : State) (bs : List Byte) : (storeRbuf bs s).faultOp = s.faultOp := rfl
@[simp] theorem storeRbuf_faultInfo (s : State) (bs : List Byte) : (storeRbuf bs s).faultInfo = s.faultInfo := rfl
@[simp] theorem storeRbuf_done (s : State) (bs : List Byte) : (storeRbuf bs s).done = s.done := rfl
@[simp] theorem storeRbuf_seq (s : State) (bs : List Byte) : (storeRbuf bs s).seq = s.seq := rfl
@[simp] theorem storeRbuf_hop (s : State) (bs : List Byte) : (storeRbuf bs s).hop = s.hop := rfl
@[simp] theorem storeRbuf_aCur (s : State) (bs : List Byte) : (storeRbuf bs s).aCur = s.aCur := rfl
@[simp] theorem storeRbuf_nLeft (s : State) (bs : List Byte) : (storeRbuf bs s).nLeft = s.nLeft := rfl
@[simp] theorem storeRbuf_off (s : State) (bs : List Byte) : (storeRbuf bs s).off = s.off := rfl
@[simp] theorem storeRbuf_chunk (s : State) (bs : List Byte) : (storeRbuf bs s).chunk = s.chunk := rfl
@[simp] theorem storeRbuf_pollN (s : State) (bs : List Byte) : (storeRbuf bs s).pollN = s.pollN := rfl
@[simp] theorem storeRbuf_vOld (s : State) (bs : List Byte) : (storeRbuf bs s).vOld = s.vOld := rfl
@[simp] theorem storeRbuf_vNew (s : State) (bs : List Byte) : (storeRbuf bs s).vNew = s.vNew := rfl
@[simp] theorem storeRbuf_vRb (s : State) (bs : List Byte) : (storeRbuf bs s).vRb = s.vRb := rfl
@[simp] theorem storeRbuf_rbuf (s : State) (bs : List Byte) : (storeRbuf bs s).rbuf = bs := rfl
@[simp] theorem storeRbuf_rsp (s : State) (bs : List Byte) : (storeRbuf bs s).rsp = s.rsp := rfl
@[simp] theorem storeRbuf_inFlight (s : State) (bs : List Byte) : (storeRbuf bs s).inFlight = s.inFlight := rfl
@[simp] theorem storeRbuf_rst (s : State) (bs : List Byte) : (storeRbuf bs s).rst = s.rst := rfl
@[simp] theorem storeRbuf_host (s : State) (bs : List Byte) : (storeRbuf bs s).host = s.host := rfl
@[simp] theorem storeRbuf_responses (s : State) (bs : List Byte) : (storeRbuf bs s).responses = s.responses := rfl
@[simp] theorem storeRbuf_env (s : State) (bs : List Byte) : (storeRbuf bs s).env = s.env := rfl
@[simp] theorem storeRbuf_trace (s : State) (bs : List Byte) : (storeRbuf bs s).trace = s.trace := rfl

end Sys2Proof.Machine
end

