-- ==== Sys2Proof/Laws/Ops.lean ====
section
/-! SUPPORT. For each shared operation, once, everything it can do. -/

namespace Sys2Proof.Machine

/-! ## The catalog and the builder -/

theorem build_eq (cfg : Cfg) (c : Cmd) (m : Mode) (a n : Word) :
    build cfg c m a n = (catalog cfg m c).map fun r => r.describe m a n := rfl

/-- A built descriptor is the described row. -/
theorem build_some {cfg : Cfg} {c : Cmd} {m : Mode} {a n : Word} {td : TD} (h : build cfg c m a n = some td) :
    ∃ r, catalog cfg m c = some r ∧ td = r.describe m a n := by
  simpa [build, eq_comm] using h

@[simp] theorem templateRead_eq (cfg : Cfg) :
    templateRead cfg =
      { opcode := 0xEE11, isz := .op16, iw := .l8, ir := .dtr, ap := true, aw := .l8, ar := .dtr, addr := 0,
        dd := .read, dw := .l8, dr := .dtr, dlen := 0, dummy := 20 } := rfl

@[simp] theorem templateWrite_eq (cfg : Cfg) :
    templateWrite cfg =
      { opcode := 0x12ED, isz := .op16, iw := .l8, ir := .dtr, ap := true, aw := .l8, ar := .dtr, addr := 0,
        dd := .write, dw := .l8, dr := .dtr, dlen := 0, dummy := 0 } := rfl

/-! ## Answers -/

@[simp] theorem fitBytes_length (h : History) (c : Call) (n : Nat) (bs : List Byte) :
    (fitBytes h c n bs).length = n := by simp [fitBytes]

theorem freeAnswer_length {h : History} {c : Call} {bs : List Byte} (hb : freeAnswer h c = .ok bs) :
    bs.length = c.dataLen := by
  unfold freeAnswer at hb
  split at hb
  · cases hb
  · cases hb; simp

/-- An `Ok` answer has as many bytes as the call asks for (30_encoding.md R100). -/
theorem answer_length {e : Env} {cfg : Cfg} {h : History} {c : Call} {bs : List Byte}
    (hb : e.answer cfg h c = .ok bs) : bs.length = c.dataLen := by
  unfold Env.answer at hb
  split at hb
  · unfold Env.anyAnswer at hb
    split at hb
    · cases hb; rfl
    all_goals
      split at hb
      · exact freeAnswer_length hb
      · next a _ _ =>
        cases a with
        | ok l => cases hb; simp
        | err e => cases hb
  · unfold Env.refAnswer at hb
    split at hb
    · next hc =>
      cases hb
      cases c <;> first | rfl | cases hc
    · split at hb
      · cases hb; simp
      · exact freeAnswer_length hb

theorem answerTo_length {s : State} {c : Call} {bs : List Byte} (hb : s.answerTo c = .ok bs) :
    bs.length = c.dataLen := answer_length hb

/-! ## The transport call -/

/-- `attempt` raises TransportFault or goes on with the answer's bytes. -/
theorem attempt_cases (s : State) (c : Call) (rest : List Byte → State → State) :
    (∃ e, s.answerTo c = .err e ∧ s.attempt c rest = (s.called c).raise (.transportFault e)) ∨
    (∃ bs, s.answerTo c = .ok bs ∧ s.attempt c rest = rest bs (s.called c)) := by
  unfold State.attempt
  split
  · next e h => exact .inl ⟨e, h, rfl⟩
  · next bs h => exact .inr ⟨bs, h, rfl⟩

theorem attempt_ok {s : State} {c : Call} {rest : List Byte → State → State} {bs : List Byte}
    (h : s.answerTo c = .ok bs) : s.attempt c rest = rest bs (s.called c) := by
  simp [State.attempt, h]

theorem attempt_err {s : State} {c : Call} {rest : List Byte → State → State} {e : TErr}
    (h : s.answerTo c = .err e) : s.attempt c rest = (s.called c).raise (.transportFault e) := by
  simp [State.attempt, h]

theorem descriptor_same {s : State} {c : Cmd} {m : Mode} {a : Word} {n : Nat} (h : s.mode = m) :
    s.descriptor c m a n = build s.cfg c m a (BitVec.ofNat 32 n) := if_pos h

theorem descriptor_other {s : State} {c : Cmd} {m : Mode} {a : Word} {n : Nat} (h : s.mode ≠ m) :
    s.descriptor c m a n = none := if_neg h

/-- A ProtocolViolation raised in flight leaves what a refusal leaves (60_exceptions.md R252, R256). -/
theorem raise_protocolViolation (s : State) (v : Violation) : s.raise (.protocolViolation v) = s.refuse v := by
  simp [State.raise, State.refuse, Exn.sticky, Exn.code, Exn.sub, Exn.info]

/-- TransportFault (60_exceptions.md R256, R257). -/
theorem raise_transportFault (s : State) (e : TErr) :
    s.raise (.transportFault e) =
      { s with
        fault := true, faultCause := 2, faultOp := s.hop, faultInfo := e.code
        rsp := ⟨2, 0, e.code, 0, s.done, []⟩, seq := .resp } := by
  simp [State.raise, Exn.sticky, Exn.code, Exn.sub, Exn.info]

/-- CompletionTimeout (60_exceptions.md R256, R258). -/
theorem raise_completionTimeout (s : State) :
    s.raise .completionTimeout =
      { s with
        fault := true, faultCause := 3, faultOp := s.hop, faultInfo := 0
        rsp := ⟨3, 0, 0, 0, s.done, []⟩, seq := .resp } := by
  simp [State.raise, Exn.sticky, Exn.code, Exn.sub, Exn.info]

/-- InitMismatch (60_exceptions.md R256, R259). -/
theorem raise_mismatchExn (s : State) :
    s.raise .initMismatch =
      { s with
        fault := true, faultCause := 4, faultOp := s.hop, faultInfo := 0
        rsp := ⟨4, 0, 0, initPayload true s.vOld s.vNew s.vRb, s.done, []⟩, seq := .resp } := by
  simp [State.raise, Exn.sticky, Exn.code, Exn.sub, Exn.info]

/-- What a bus transaction can do: raise ProtocolViolation(PV_MODE) without a call, or make the one call and raise
TransportFault, or make it and go on. -/
theorem sendCommand_cases (s : State) (c : Cmd) (m : Mode) (a : Word) :
    (s.descriptor c m a 0 = none ∧ s.sendCommand c m a = s.raise (.protocolViolation .mode)) ∨
    ∃ td, s.descriptor c m a 0 = some td ∧
      ((∃ e, s.answerTo (.execCmd td) = .err e ∧
          s.sendCommand c m a = (s.called (.execCmd td)).raise (.transportFault e)) ∨
       (∃ bs, s.answerTo (.execCmd td) = .ok bs ∧ s.sendCommand c m a = s.called (.execCmd td))) := by
  unfold State.sendCommand
  split
  · next h => exact .inl ⟨h, rfl⟩
  · next td h => exact .inr ⟨td, h, attempt_cases _ _ _⟩

theorem sendRead_cases (s : State) (c : Cmd) (m : Mode) (a : Word) (n k : Nat)
    (store : List Byte → State → State) :
    (s.descriptor c m a n = none ∧ s.sendRead c m a n k store = s.raise (.protocolViolation .mode)) ∨
    ∃ td, s.descriptor c m a n = some td ∧
      ((∃ e, s.answerTo (.execRead td) = .err e ∧
          s.sendRead c m a n k store = (s.called (.execRead td)).raise (.transportFault e)) ∨
       (∃ bs, s.answerTo (.execRead td) = .ok bs ∧
          s.sendRead c m a n k store = store (bs.take k) (s.called (.execRead td)))) := by
  unfold State.sendRead
  split
  · next h => exact .inl ⟨h, rfl⟩
  · next td h => exact .inr ⟨td, h, attempt_cases _ _ _⟩

theorem sendWrite_cases (s : State) (c : Cmd) (m : Mode) (a : Word) (data : List Byte) :
    (s.descriptor c m a data.length = none ∧ s.sendWrite c m a data = s.raise (.protocolViolation .mode)) ∨
    ∃ td, s.descriptor c m a data.length = some td ∧
      ((∃ e, s.answerTo (.execWrite td data) = .err e ∧
          s.sendWrite c m a data = (s.called (.execWrite td data)).raise (.transportFault e)) ∨
       (∃ bs, s.answerTo (.execWrite td data) = .ok bs ∧
          s.sendWrite c m a data = s.called (.execWrite td data))) := by
  unfold State.sendWrite
  split
  · next h => exact .inl ⟨h, rfl⟩
  · next td h => exact .inr ⟨td, h, attempt_cases _ _ _⟩

/-- A call whose answer is known. -/
theorem called_eq {s : State} {c : Call} {a : Answer} (h : s.answerTo c = a) :
    s.called c = { s with env := s.env.next s.cfg s.trace c, trace := s.trace ++ [(c, a)] } := by
  rw [← h]; rfl

theorem sendCommand_ok {s : State} {c : Cmd} {m : Mode} {a : Word} {td : TD} {bs : List Byte} (hm : s.mode = m)
    (hb : build s.cfg c m a 0 = some td) (h : s.answerTo (.execCmd td) = .ok bs) :
    s.sendCommand c m a = s.called (.execCmd td) := by
  unfold State.sendCommand
  rw [descriptor_same hm, show BitVec.ofNat 32 0 = 0 from rfl, hb]
  exact attempt_ok h

theorem sendRead_ok {s : State} {c : Cmd} {m : Mode} {a : Word} {n k : Nat} {store : List Byte → State → State}
    {td : TD} {bs : List Byte} (hm : s.mode = m) (hb : build s.cfg c m a (BitVec.ofNat 32 n) = some td)
    (h : s.answerTo (.execRead td) = .ok bs) :
    s.sendRead c m a n k store = store (bs.take k) (s.called (.execRead td)) := by
  unfold State.sendRead
  rw [descriptor_same hm, hb]
  exact attempt_ok h

theorem sendWrite_ok {s : State} {c : Cmd} {m : Mode} {a : Word} {data : List Byte} {td : TD} {bs : List Byte}
    (hm : s.mode = m) (hb : build s.cfg c m a (BitVec.ofNat 32 data.length) = some td)
    (h : s.answerTo (.execWrite td data) = .ok bs) :
    s.sendWrite c m a data = s.called (.execWrite td data) := by
  unfold State.sendWrite
  rw [descriptor_same hm, hb]
  exact attempt_ok h

/-! ## Acceptance -/

/-- What acceptance can do: hold, refuse, or load and start. -/
theorem accept_cases (s : State) (h : BitVec 4) (own : Option Violation) (req : InFlight) (load : State → State) :
    (s.seq ≠ .idle ∧ s.accept h own req load = s) ∨
    (∃ v, s.seq = .idle ∧ s.accept h own req load = s.refuse v) ∨
    (s.seq = .idle ∧ s.commonViolation h = none ∧ own = none ∧
      s.accept h own req load = load { s with hop := h, inFlight := req }) := by
  unfold State.accept State.busy
  by_cases hi : s.seq = .idle
  · right
    rw [if_neg (by simp [hi])]
    split
    · next v _ => exact .inl ⟨v, hi, rfl⟩
    · next hc =>
      split
      · next v => exact .inl ⟨v, hi, rfl⟩
      · exact .inr ⟨hi, hc, rfl, rfl⟩
  · exact .inl ⟨hi, by simp [hi]⟩

/-- An accepted code passed the mode gate, the window gate and the fault gate. -/
theorem commonViolation_none {s : State} {h : BitVec 4} (hc : s.commonViolation h = none) :
    s.fault = false ∧ (h = hopInit → s.mode = .legacy) ∧ (h ≠ hopInit → s.mode = .octal) ∧
    (s.mmapEn = true → h = hopMmapEnable ∨ h = hopMmapDisable) := by
  unfold State.commonViolation at hc
  split at hc <;> try cases hc
  split at hc <;> try cases hc
  split at hc <;> try cases hc
  split at hc <;> try cases hc
  rename_i h1 h2 h3 h4
  refine ⟨by simpa using h1, fun hh => ?_, fun hh => ?_, fun hm => ?_⟩
  · cases hm : s.mode <;> simp_all
  · cases hm : s.mode <;> simp_all
  · by_cases he : h = hopMmapEnable
    · exact .inl he
    · by_cases hd : h = hopMmapDisable
      · exact .inr hd
      · exact absurd ⟨hm, he, hd⟩ h4

/-- The common checks pass in Octal mode with the window disabled. -/
theorem commonViolation_octal {s : State} {h : BitVec 4} (hf : s.fault = false) (hm : s.mode = .octal)
    (he : s.mmapEn = false ∨ h = hopMmapEnable ∨ h = hopMmapDisable) (hh : h ≠ hopInit) :
    s.commonViolation h = none := by
  unfold State.commonViolation
  rcases he with he | rfl | rfl <;> simp_all

theorem accept_common {s : State} {h : BitVec 4} {own : Option Violation} {req : InFlight} {load : State → State}
    {v : Violation} (hi : s.seq = .idle) (hc : s.commonViolation h = some v) :
    s.accept h own req load = s.refuse v := by
  simp [State.accept, State.busy, hi, hc]

theorem accept_own {s : State} {h : BitVec 4} {req : InFlight} {load : State → State} {v : Violation}
    (hi : s.seq = .idle) (hc : s.commonViolation h = none) : s.accept h (some v) req load = s.refuse v := by
  simp [State.accept, State.busy, hi, hc]

theorem accept_start {s : State} {h : BitVec 4} {req : InFlight} {load : State → State} (hi : s.seq = .idle)
    (hc : s.commonViolation h = none) : s.accept h none req load = load { s with hop := h, inFlight := req } := by
  simp [State.accept, State.busy, hi, hc]

theorem accept_busy {s : State} {h : BitVec 4} {own : Option Violation} {req : InFlight} {load : State → State}
    (hi : s.seq ≠ .idle) : s.accept h own req load = s := by
  simp [State.accept, State.busy, hi]

theorem rangeCheck_in {a : Word} {n : Nat} (h : a.toNat + n ≤ Config.capacity) : rangeCheck a n = none := by
  simp [rangeCheck, inRange, h]

theorem rangeCheck_out {a : Word} {n : Nat} (h : Config.capacity < a.toNat + n) :
    rangeCheck a n = some .range := by
  simp only [rangeCheck, inRange, Nat.not_le.2 h, decide_false, Bool.false_eq_true, if_false]

/-- A reserved code or reserved bits: held while BUSY, refused otherwise. -/
theorem refuseEncoding_cases (s : State) :
    (s.seq ≠ .idle ∧ s.refuseEncoding = s) ∨ (∃ v, s.seq = .idle ∧ s.refuseEncoding = s.refuse v) := by
  unfold State.refuseEncoding State.busy
  by_cases hi : s.seq = .idle
  · right
    rw [if_neg (by simp [hi])]
    split
    · exact ⟨_, hi, rfl⟩
    · exact ⟨_, hi, rfl⟩
  · exact .inl ⟨hi, by simp [hi]⟩

/-! ## The completion poll -/

/-- What follows a Status read of a poll: it returns, times out, or goes on. -/
theorem afterPollRead_cases (s : State) (finish : State → State) :
    (wipSet s.cfg s.vRb = false ∧ s.afterPollRead finish = finish { s with pollN := s.pollN + 1 }) ∨
    (wipSet s.cfg s.vRb = true ∧ pollExhausted s.cfg (s.pollN + 1) = true ∧
      s.afterPollRead finish = ({ s with pollN := s.pollN + 1 } : State).raise .completionTimeout) ∨
    (wipSet s.cfg s.vRb = true ∧ pollExhausted s.cfg (s.pollN + 1) = false ∧
      s.afterPollRead finish = { s with pollN := s.pollN + 1 }) := by
  unfold State.afterPollRead
  cases hw : wipSet s.cfg s.vRb
  · exact .inl ⟨rfl, by simp⟩
  · right
    cases hp : pollExhausted s.cfg (s.pollN + 1)
    · exact .inr ⟨rfl, rfl, by simp⟩
    · exact .inl ⟨rfl, rfl, by simp⟩

/-! ## One step -/

/-- Every instruction answers a next state. -/
theorem exec_next (i : Instr) (s : State) : ∃ t, exec i s = .next t := by
  cases i <;> exact ⟨_, rfl⟩

/-- The reset input acts first. -/
theorem step_reset {s : State} (h : s.rst = true) : step s = .next s.engineReset := by
  simp [step, State.plan, h]

/-- A state that issues a wire command runs it and goes on. -/
theorem step_call {s : State} {i : Instr} (hr : s.rst = false) (hi : s.prepare.issue = some (.command i)) :
    step s = resume (exec i s.prepare) := by
  simp [step, State.plan, hr, hi, State.planCall]

theorem prepare_of_ne {s : State} (h : s.seq ≠ .initWrcr2) : s.prepare = s := if_neg h

@[simp] theorem prepare_seq (s : State) : s.prepare.seq = s.seq := by
  unfold State.prepare; split <;> rfl

/-- An idle engine takes the request at the port and runs what it decodes to. -/
theorem step_request {s : State} {r : Request} {rest : List Request} {i : Instr} (hr : s.rst = false)
    (hs : s.seq = .idle) (hh : s.host = r :: rest) (hd : decodeHost r.w0 r.w1 r.w2 r.wdata = .ok i) :
    step s = exec i { s with host := rest } := by
  simp [step, State.plan, hr, prepare_of_ne, State.issue, hs, State.planIdle, hh, hd]

/-- Every step with the reset input low, and not in IDLE, leaves the host port alone or is one of these forms. -/
theorem step_cases {s : State} (hr : s.rst = false) :
    (∃ i, s.prepare.issue = some (.command i) ∧ step s = resume (exec i s.prepare)) ∨
    (s.prepare.issue = some .noRow ∧ step s = .next (s.prepare.raise (.protocolViolation .mode))) ∨
    (s.prepare.issue = some .unloaded ∧ step s = .fault .seqReadsUnloadedHop) ∨
    (s.seq = .resp ∧ step s = .next s.deliver) ∨
    (s.seq = .initFlip ∧ step s = .next s.initFlip) ∨
    (s.seq = .pgSplit ∧ step s = .next s.programSplit) ∨
    (s.seq = .pgAdv ∧ step s = .next s.programAdvance) ∨
    (s.seq = .mmEn ∧ step s = .next s.windowEnable) ∨
    (s.seq = .mmDis ∧ step s = .next s.windowDisable) ∨
    (s.seq = .idle ∧ s.host = [] ∧ step s = .next s) ∨
    (∃ r rest i, s.seq = .idle ∧ s.host = r :: rest ∧ decodeHost r.w0 r.w1 r.w2 r.wdata = .ok i ∧
      step s = exec i { s with host := rest }) ∨
    (∃ r rest, s.seq = .idle ∧ s.host = r :: rest ∧
      decodeHost r.w0 r.w1 r.w2 r.wdata = .error .reservedBits ∧
      step s = .next ({ s with host := rest } : State).refuseEncoding) ∨
    (∃ r rest, s.seq = .idle ∧ s.host = r :: rest ∧ r.expressible = false ∧
      step s = .refused .inexpressibleRequest) := by
  cases hq : s.prepare.issue with
  | some x =>
    have hst : ∀ p, s.prepare.planCall x = p → s.plan = p := by
      intro p hp; simp [State.plan, hr, hq, hp]
    cases x with
    | command i => exact .inl ⟨i, rfl, step_call hr hq⟩
    | noRow => exact .inr (.inl ⟨rfl, by simp [step, hst _ rfl, State.planCall]⟩)
    | unloaded => exact .inr (.inr (.inl ⟨rfl, by simp [step, hst _ rfl, State.planCall]⟩))
  | none =>
    right; right; right
    cases hs : s.seq <;>
      first
      | (exfalso; revert hq; simp [State.issue, hs]; done)
      | skip
    case resp => exact .inl ⟨rfl, by simp [step, State.plan, hr, hq, hs]⟩
    case initFlip => exact .inr (.inl ⟨rfl, by simp [step, State.plan, hr, hq, hs]⟩)
    case pgSplit => exact .inr (.inr (.inl ⟨rfl, by simp [step, State.plan, hr, hq, hs]⟩))
    case pgAdv => exact .inr (.inr (.inr (.inl ⟨rfl, by simp [step, State.plan, hr, hq, hs]⟩)))
    case mmEn => exact .inr (.inr (.inr (.inr (.inl ⟨rfl, by simp [step, State.plan, hr, hq, hs]⟩))))
    case mmDis => exact .inr (.inr (.inr (.inr (.inr (.inl ⟨rfl, by simp [step, State.plan, hr, hq, hs]⟩)))))
    case idle =>
      right; right; right; right; right; right
      cases hh : s.host with
      | nil => exact .inl ⟨rfl, rfl, by simp [step, State.plan, hr, hq, hs, State.planIdle, hh]⟩
      | cons r rest =>
        right
        cases hd : decodeHost r.w0 r.w1 r.w2 r.wdata with
        | ok i =>
          exact .inl ⟨r, rest, i, rfl, rfl, hd, by simp [step, State.plan, hr, hq, hs, State.planIdle, hh, hd]⟩
        | error e =>
          cases e <;>
            first
            | exact .inr (.inl ⟨r, rest, rfl, rfl, hd, by simp [step, State.plan, hr, hq, hs, State.planIdle, hh, hd]⟩)
            | exact .inr (.inr ⟨r, rest, rfl, rfl, by simp [Request.expressible, hd],
                by simp [step, State.plan, hr, hq, hs, State.planIdle, hh, hd]⟩)

end Sys2Proof.Machine
end

