-- ==== Sys2Proof/Laws/Chip.lean ====
section
/-! SUPPORT. The reference environment: every call keeps the canonical form of the chip's memories. -/

namespace Sys2Proof.Machine

theorem chip_wf_iff (c : Chip) :
    c.wf = true ↔ Memory.wf arrFill Config.capacity c.arr = true ∧ Memory.wf cr2Fill cr2Limit c.cr2 = true := by
  simp [Chip.wf]

theorem writeCr2_wf {c : Chip} (h : c.wf = true) (a : Word) (v : Byte) : (c.writeCr2 a v).wf = true := by
  rw [chip_wf_iff] at h ⊢
  exact ⟨h.1, write_wf h.2 a.isLt⟩

/-- What a chip recognises is a command of its link mode whose array range lies in the array. -/
theorem recognise_some {cfg : Cfg} {chip : Chip} {td : TD} {data : List Byte} {c : Cmd}
    (h : chip.recognise cfg td data = some c) :
    opcodeMode td.isz = chip.link ∧ build cfg c chip.link td.addr td.dlen = some td ∧
      arrayRangeOk c td data = true ∧ (c = .rst → chip.rstArmed = true ∧ chip.link = .legacy) := by
  unfold Chip.recognise at h
  split at h
  · cases h
  · split at h
    · next hc => cases h; exact hc
    · cases h

/-- A recognised command keeps the canonical form. -/
theorem afterCommand_wf {chip : Chip} {c : Cmd} {td : TD} {data : List Byte} (h : chip.wf = true)
    (hr : arrayRangeOk c td data = true) : (chip.afterCommand c td data).wf = true := by
  have h' := (chip_wf_iff chip).1 h
  cases c <;> simp only [Chip.afterCommand]
  case wrcr2 =>
    split
    · exact writeCr2_wf h _ _
    · exact h
  case pp4b =>
    rw [chip_wf_iff]
    refine ⟨?_, h'.2⟩
    dsimp only
    split
    · exact program_wf h'.1 (by simpa [arrayRangeOk, inRange] using hr)
    · exact h'.1
  case rst => exact (chip_wf_iff _).2 ⟨h'.1, rfl⟩
  case se =>
    rw [chip_wf_iff]
    refine ⟨?_, h'.2⟩
    dsimp only
    split
    · exact clear_wf h'.1
    · exact h'.1
  case be =>
    rw [chip_wf_iff]
    refine ⟨?_, h'.2⟩
    dsimp only
    split
    · exact clear_wf h'.1
    · exact h'.1
  case ce =>
    rw [chip_wf_iff]
    refine ⟨?_, h'.2⟩
    dsimp only
    split
    · exact clear_wf h'.1
    · exact h'.1
  all_goals exact h

/-- Every call keeps the canonical form of the chip's memories, in every environment. -/
theorem env_next_wf {e : Env} (cfg : Cfg) (hist : History) (call : Call) (h : e.chip.wf = true) :
    (e.next cfg hist call).chip.wf = true := by
  unfold Env.next
  split
  · cases call <;> exact h
  · unfold Env.refNext
    split
    · cases call <;> exact h
    · split
      · next c hc =>
        unfold Env.afterCommand
        have := afterCommand_wf (c := c) (td := ‹_›) (data := ‹_›) h (recognise_some hc).2.2.1
        split <;> exact this
      · exact canonical_wf _

/-- A transport call keeps the canonical form. -/
theorem called_wf {s : State} (c : Call) (h : s.env.chip.wf = true) : (s.called c).env.chip.wf = true :=
  env_next_wf s.cfg s.trace c h

/-! ## Recognition -/

/-- A row the spec fixes is found by its opcode. -/
theorem findCommand_row {cfg : Cfg} {m : Mode} {c : Cmd} {r : Row} (h : catalog cfg m c = some r) (hc : c ≠ .rdcr) :
    findCommand cfg m r.opcode = some c := by
  cases m <;> cases c <;>
    simp only [catalog, legacyRow, octalRow, Option.some.injEq, reduceCtorEq] at h hc <;>
    first
    | (cases h; done)
    | (exfalso; exact hc rfl)
    | (subst h; simp [findCommand, lookupOrder, catalog, legacyRow, octalRow])

/-- A built descriptor is what the builder makes of its own address and length. -/
theorem build_again {cfg : Cfg} {c : Cmd} {m : Mode} {a n : Word} {td : TD} (h : build cfg c m a n = some td) :
    build cfg c m td.addr td.dlen = some td := by
  obtain ⟨r, hr, rfl⟩ := build_some h
  rw [build, hr]
  simp only [Option.map_some, Option.some.injEq, Row.describe]
  cases r.ak <;> by_cases hd : r.dd = .none <;> simp [hd]

/-- The reference chip recognises what the engine builds for the chip's link mode (20_memory.md R73). -/
theorem recognise_built {cfg : Cfg} {chip : Chip} {c : Cmd} {a n : Word} {td : TD} {data : List Byte}
    (hb : build cfg c chip.link a n = some td) (hc : c ≠ .rdcr) (hr : c ≠ .rst)
    (ha : arrayRangeOk c td data = true) : chip.recognise cfg td data = some c := by
  obtain ⟨r, hr', e⟩ := build_some hb
  have h1 : opcodeMode td.isz = chip.link := by rw [e]; cases chip.link <;> rfl
  unfold Chip.recognise
  rw [h1, show td.opcode = r.opcode by rw [e]; rfl, findCommand_row hr' hc]
  simp only
  rw [if_pos ⟨trivial, build_again hb, ha, fun h => absurd h hr⟩]

/-- What the reference environment answers a recognised transaction. -/
theorem answerTo_recognised {s : State} {td : TD} {data : List Byte} {call : Call} {c : Cmd}
    (hk : s.env.kind = .reference) (ht : call.transaction = some (td, data))
    (hr : s.env.chip.recognise s.cfg td data = some c) :
    s.answerTo call = .ok (fitBytes s.trace call call.dataLen (s.env.chip.readBytes s.cfg c td)) := by
  simp [State.answerTo, Env.answer, hk, Env.refAnswer, ht, hr]

/-- The WIP bit of a Status byte, where WEL is another bit or the cycle that holds WEL runs (20_memory.md R74). -/
theorem statusByte_wip {cfg : Cfg} (chip : Chip) (h : cfg.wipBit.val ≠ 1 ∨ chip.wel = false ∨ chip.wip = true) :
    (chip.statusByte cfg).getLsbD cfg.wipBit.val = chip.wip := by
  unfold Chip.statusByte
  generalize cfg.wipBit = w at h
  generalize chip.wip = x at h
  generalize chip.wel = y at h
  revert x y w
  decide

/-- The WEL bit of a Status byte, where WIP is another bit (20_memory.md R74). -/
theorem statusByte_wel {cfg : Cfg} (chip : Chip) (h : cfg.wipBit.val ≠ 1) :
    (chip.statusByte cfg).getLsbD 1 = chip.wel := by
  unfold Chip.statusByte
  generalize cfg.wipBit = w at h
  generalize chip.wip = x
  generalize chip.wel = y
  revert x y w
  decide

/-- What the reference environment becomes after it. -/
theorem next_recognised {e : Env} {cfg : Cfg} {h : History} {td : TD} {data : List Byte} {call : Call} {c : Cmd}
    (hk : e.kind = .reference) (ht : call.transaction = some (td, data))
    (hr : e.chip.recognise cfg td data = some c) : e.next cfg h call = e.afterCommand h call c td data := by
  simp [Env.next, hk, Env.refNext, ht, hr]

end Sys2Proof.Machine
end

