-- ==== Sys2Proof/Laws/PerInstr.lean ====
section
/-! SUPPORT. Statements for all instructions, one lemma per constructor of `Instr`. -/

namespace Sys2Proof.Laws

/-- A well-formed instruction has words under every configuration. -/
def HasWords.Statement (i : Instr) : Prop :=
  ∀ cfg : Cfg, i.wellFormed cfg = true → (encode cfg i).isSome = true

/-- The configuration has an RDCR row where the RDCR commands are well formed. -/
theorem rdcr_of_ok {cfg : Cfg} (h : cfg.rdcrLegacyOk = true ∨ cfg.rdcrOctalOk = true) : ∃ r, cfg.rdcr = some r := by
  cases hr : cfg.rdcr with
  | none => simp [Cfg.rdcrLegacyOk, Cfg.rdcrOctalOk, hr] at h
  | some r => exact ⟨r, rfl⟩

theorem HasWords.init : HasWords.Statement .init := fun _ _ => rfl

theorem HasWords.readId : HasWords.Statement .readId := fun _ _ => rfl

theorem HasWords.readStatus : HasWords.Statement .readStatus := fun _ _ => rfl

theorem HasWords.readCfg : HasWords.Statement .readCfg := fun _ _ => rfl

theorem HasWords.readCfg2 (addr : Word) : HasWords.Statement (.readCfg2 addr) := fun _ _ => rfl

theorem HasWords.writeCfg2 (addr : Word) (val : Byte) : HasWords.Statement (.writeCfg2 addr val) := fun _ _ => rfl

theorem HasWords.read (addr len : Word) : HasWords.Statement (.read addr len) := fun _ _ => rfl

theorem HasWords.program (addr len : Word) (wdata : List Byte) :
    HasWords.Statement (.program addr len wdata) := fun _ _ => rfl

theorem HasWords.eraseSector (addr : Word) : HasWords.Statement (.eraseSector addr) := fun _ _ => rfl

theorem HasWords.eraseBlock (addr : Word) : HasWords.Statement (.eraseBlock addr) := fun _ _ => rfl

theorem HasWords.eraseChip : HasWords.Statement .eraseChip := fun _ _ => rfl

theorem HasWords.mmapEnable : HasWords.Statement .mmapEnable := fun _ _ => rfl

theorem HasWords.mmapDisable : HasWords.Statement .mmapDisable := fun _ _ => rfl

theorem HasWords.reservedHop0 : HasWords.Statement .reservedHop0 := fun _ _ => rfl

theorem HasWords.reservedHopE : HasWords.Statement .reservedHopE := fun _ _ => rfl

theorem HasWords.reservedHopF : HasWords.Statement .reservedHopF := fun _ _ => rfl

theorem HasWords.wrenL : HasWords.Statement .wrenL := fun _ _ => rfl

theorem HasWords.wrenO : HasWords.Statement .wrenO := fun _ _ => rfl

theorem HasWords.rstenL : HasWords.Statement .rstenL := fun _ _ => rfl

theorem HasWords.rstenO : HasWords.Statement .rstenO := fun _ _ => rfl

theorem HasWords.rstL : HasWords.Statement .rstL := fun _ _ => rfl

theorem HasWords.rstO : HasWords.Statement .rstO := fun _ _ => rfl

theorem HasWords.rdsrL : HasWords.Statement .rdsrL := fun _ _ => rfl

theorem HasWords.rdsrO : HasWords.Statement .rdsrO := fun _ _ => rfl

theorem HasWords.rdcr2L (addr : Word) : HasWords.Statement (.rdcr2L addr) := fun _ _ => rfl

theorem HasWords.rdcr2O (addr : Word) : HasWords.Statement (.rdcr2O addr) := fun _ _ => rfl

theorem HasWords.wrcr2L (addr : Word) (val : Byte) : HasWords.Statement (.wrcr2L addr val) := fun _ _ => rfl

theorem HasWords.wrcr2O (addr : Word) (val : Byte) : HasWords.Statement (.wrcr2O addr val) := fun _ _ => rfl

theorem HasWords.rdidL : HasWords.Statement .rdidL := fun _ _ => rfl

theorem HasWords.rdidO : HasWords.Statement .rdidO := fun _ _ => rfl

theorem HasWords.dtrd8O (addr len : Word) : HasWords.Statement (.dtrd8O addr len) := fun _ _ => rfl

theorem HasWords.pp4bO (addr : Word) (data : List Byte) : HasWords.Statement (.pp4bO addr data) := fun _ _ => rfl

theorem HasWords.seO (addr : Word) : HasWords.Statement (.seO addr) := fun _ _ => rfl

theorem HasWords.beO (addr : Word) : HasWords.Statement (.beO addr) := fun _ _ => rfl

theorem HasWords.ceO : HasWords.Statement .ceO := fun _ _ => rfl

theorem HasWords.rdcrL : HasWords.Statement .rdcrL := by
  intro cfg h
  obtain ⟨r, hr⟩ := rdcr_of_ok (.inl h)
  simp [encode, Instr.transaction, encodeTransaction, Machine.build, Machine.catalog, Machine.legacyRow, hr]

theorem HasWords.rdcrO : HasWords.Statement .rdcrO := by
  intro cfg h
  obtain ⟨r, hr⟩ := rdcr_of_ok (.inr h)
  simp [encode, Instr.transaction, encodeTransaction, Machine.build, Machine.catalog, Machine.octalRow, hr]

end Sys2Proof.Laws
end

