-- ==== Sys2Proof/Laws/Wire.lean ====
section
/-! SUPPORT. Wire commands: once, everything one can do, and which one a sequencer state issues. -/

namespace Sys2Proof.Machine

/-- The transport call that carries a descriptor and its data (30_encoding.md R100). -/
def callOf (td : TD) (data : List Byte) : Call :=
  match td.dd with
  | .none => .execCmd td
  | .read => .execRead td
  | .write => .execWrite td data

/-- Of V_RB and RBUF a command writes only the one its rule names: V_RB a one-byte register read, RBUF the
identification and an array read (42_register_access.md R162, R170; 44_array_access.md R202). -/
structure ReadsKept (s : State) (c : Cmd) (v : Byte) (l : List Byte) : Prop where
  byte : c ∉ [Cmd.rdsr, .rdcr2, .rdcr] → v = s.vRb
  list : c ∉ [Cmd.rdid, .dtrd8] → l = s.rbuf

/-- What a wire command whose transaction is `(c, m, a, n, data)` makes of a state: a ProtocolViolation and no call;
one call and a TransportFault; or one call, and of V_RB and RBUF only the one its rule names written. -/
inductive WireResult (s t : State) (c : Cmd) (m : Mode) (a : Word) (n : Nat) (data : List Byte) : Prop where
  | violation (v : Violation) (h : m ≠ s.mode ∨ catalog s.cfg m c = none ∨ (c = .pp4b ∧ pageOk a data.length = false))
      (e : t = s.refuse v)
  | failed (td : TD) (e : TErr) (hm : s.mode = m) (hb : build s.cfg c m a (BitVec.ofNat 32 n) = some td)
      (hp : c = .pp4b → pageOk a data.length = true)
      (ha : s.answerTo (callOf td data) = .err e)
      (ht : t = (s.called (callOf td data)).raise (.transportFault e))
  | done (td : TD) (bs : List Byte) (v : Byte) (l : List Byte) (hm : s.mode = m)
      (hb : build s.cfg c m a (BitVec.ofNat 32 n) = some td)
      (hp : c = .pp4b → pageOk a data.length = true)
      (ha : s.answerTo (callOf td data) = .ok bs) (hk : ReadsKept s c v l)
      (ht : t = { s.called (callOf td data) with vRb := v, rbuf := l })

theorem descriptor_none {s : State} {c : Cmd} {m : Mode} {a : Word} {n : Nat} (h : s.descriptor c m a n = none) :
    m ≠ s.mode ∨ catalog s.cfg m c = none := by
  unfold State.descriptor at h
  split at h
  · simp only [build_eq, Option.map_eq_none_iff] at h
    exact .inr h
  · next hm => exact .inl fun h => hm h.symm

theorem descriptor_some {s : State} {c : Cmd} {m : Mode} {a : Word} {n : Nat} {td : TD}
    (h : s.descriptor c m a n = some td) : s.mode = m ∧ build s.cfg c m a (BitVec.ofNat 32 n) = some td := by
  unfold State.descriptor at h
  split at h
  · next hm => exact ⟨hm, h⟩
  · cases h

/-- The direction of a built descriptor is its row's. -/
theorem build_dd {cfg : Cfg} {c : Cmd} {m : Mode} {a n : Word} {td : TD} (h : build cfg c m a n = some td) :
    td.dd =
      match c with
      | .wren | .rsten | .rst | .se | .be | .ce => .none
      | .rdsr | .rdcr2 | .rdid | .rdcr | .dtrd8 => .read
      | .wrcr2 | .pp4b => .write := by
  obtain ⟨r, hr, rfl⟩ := build_some h
  cases m <;> cases c <;> simp [catalog, legacyRow, octalRow] at hr <;>
    first
    | (subst hr; rfl)
    | (obtain ⟨q, _, rfl⟩ := hr; rfl)

theorem sendCommand_result {s : State} {c : Cmd} {m : Mode} {a : Word}
    (hc : c ∈ [Cmd.wren, .rsten, .rst, .se, .be, .ce]) : WireResult s (s.sendCommand c m a) c m a 0 [] := by
  have hne : c ≠ .pp4b := by rintro rfl; simp at hc
  rcases sendCommand_cases s c m a with ⟨hd, e⟩ | ⟨td, hd, h⟩
  · exact .violation .mode ((descriptor_none hd).imp_right .inl) (e.trans (raise_protocolViolation s .mode))
  · obtain ⟨hm, hb⟩ := descriptor_some hd
    have hcall : callOf td [] = .execCmd td := by
      have := build_dd hb
      unfold callOf
      simp only [List.mem_cons, List.not_mem_nil, or_false] at hc
      rcases hc with rfl | rfl | rfl | rfl | rfl | rfl <;> simp [this]
    rcases h with ⟨e, ha, ht⟩ | ⟨bs, ha, ht⟩
    · exact .failed td e hm hb (fun h => absurd h hne) (hcall ▸ ha) (hcall ▸ ht)
    · exact .done td bs s.vRb s.rbuf hm hb (fun h => absurd h hne) (hcall ▸ ha) ⟨fun _ => rfl, fun _ => rfl⟩
        (by rw [hcall, ht]; rfl)

theorem sendRead_result {s : State} {c : Cmd} {m : Mode} {a : Word} {n k : Nat} {store : List Byte → State → State}
    (hc : c ∈ [Cmd.rdsr, .rdcr2, .rdid, .rdcr, .dtrd8])
    (hs : ∀ bs u, ∃ v l, store bs u = { u with vRb := v, rbuf := l } ∧ ReadsKept u c v l) :
    WireResult s (s.sendRead c m a n k store) c m a n [] := by
  have hne : c ≠ .pp4b := by rintro rfl; simp at hc
  rcases sendRead_cases s c m a n k store with ⟨hd, e⟩ | ⟨td, hd, h⟩
  · exact .violation .mode ((descriptor_none hd).imp_right .inl) (e.trans (raise_protocolViolation s .mode))
  · obtain ⟨hm, hb⟩ := descriptor_some hd
    have hcall : callOf td [] = .execRead td := by
      have := build_dd hb
      unfold callOf
      simp only [List.mem_cons, List.not_mem_nil, or_false] at hc
      rcases hc with rfl | rfl | rfl | rfl | rfl <;> simp [this]
    rcases h with ⟨e, ha, ht⟩ | ⟨bs, ha, ht⟩
    · exact .failed td e hm hb (fun h => absurd h hne) (hcall ▸ ha) (hcall ▸ ht)
    · obtain ⟨v, l, hvl, hk⟩ := hs (bs.take k) (s.called (.execRead td))
      exact .done td bs v l hm hb (fun h => absurd h hne) (hcall ▸ ha) ⟨hk.byte, hk.list⟩ (by rw [hcall, ht, hvl])

theorem sendWrite_result {s : State} {c : Cmd} {m : Mode} {a : Word} {data : List Byte}
    (hc : c ∈ [Cmd.wrcr2, .pp4b]) (hp : c = .pp4b → pageOk a data.length = true) :
    WireResult s (s.sendWrite c m a data) c m a data.length data := by
  rcases sendWrite_cases s c m a data with ⟨hd, e⟩ | ⟨td, hd, h⟩
  · exact .violation .mode ((descriptor_none hd).imp_right .inl) (e.trans (raise_protocolViolation s .mode))
  · obtain ⟨hm, hb⟩ := descriptor_some hd
    have hcall : callOf td data = .execWrite td data := by
      have := build_dd hb
      unfold callOf
      simp only [List.mem_cons, List.not_mem_nil, or_false] at hc
      rcases hc with rfl | rfl <;> simp [this]
    rcases h with ⟨e, ha, ht⟩ | ⟨bs, ha, ht⟩
    · exact .failed td e hm hb hp (hcall ▸ ha) (hcall ▸ ht)
    · exact .done td bs s.vRb s.rbuf hm hb hp (hcall ▸ ha) ⟨fun _ => rfl, fun _ => rfl⟩ (by rw [hcall, ht]; rfl)

theorem storeVRb_writes {c : Cmd} (hc : c ∈ [Cmd.rdsr, .rdcr2, .rdcr]) (bs : List Byte) (u : State) :
    ∃ v l, storeVRb bs u = { u with vRb := v, rbuf := l } ∧ ReadsKept u c v l :=
  ⟨_, _, rfl, fun h => absurd hc h, fun _ => rfl⟩

theorem storeRbuf_writes {c : Cmd} (hc : c ∈ [Cmd.rdid, .dtrd8]) (bs : List Byte) (u : State) :
    ∃ v l, storeRbuf bs u = { u with vRb := v, rbuf := l } ∧ ReadsKept u c v l :=
  ⟨_, _, rfl, fun _ => rfl, fun h => absurd hc h⟩

/-- Everything a wire command can do. -/
theorem exec_wire {s : State} {i : Instr} {c : Cmd} {m : Mode} {a : Word} {n : Nat} {data : List Byte}
    (hi : i.transaction s.cfg = some (c, m, a, n, data)) :
    ∃ t, exec i s = .next t ∧ WireResult s t c m a n data := by
  cases i <;> simp only [Instr.transaction, reduceCtorEq, Option.some.injEq, Prod.mk.injEq] at hi <;>
    obtain ⟨rfl, rfl, rfl, rfl, rfl⟩ := hi <;> refine ⟨_, rfl, ?_⟩
  case pp4bO a data =>
    split
    · next h => exact sendWrite_result (by simp) fun _ => h
    · next h =>
      exact .violation .page (.inr (.inr ⟨rfl, by simpa using h⟩)) (raise_protocolViolation s .page)
  case wrcr2L => exact sendWrite_result (by simp) (by simp)
  case wrcr2O => exact sendWrite_result (by simp) (by simp)
  all_goals
    first
    | exact sendCommand_result (by simp)
    | exact sendRead_result (by simp) (storeVRb_writes (by simp))
    | exact sendRead_result (by simp) (storeRbuf_writes (by simp))

/-- A property of what a decoder answers holds of a choice where it holds of both. -/
theorem ok_ite {P : Instr → Prop} {c : Prop} [Decidable c] {x y : Except DecodeError Instr}
    (hx : ∀ i, x = .ok i → P i) (hy : ∀ i, y = .ok i → P i) : ∀ i, (if c then x else y) = .ok i → P i := by
  intro i h
  split at h
  · exact hx i h
  · exact hy i h

/-- No decoded request is a wire command. -/
theorem decodeHost_transaction {w0 w1 w2 : Word} {wdata : List Byte} {i : Instr}
    (h : decodeHost w0 w1 w2 wdata = .ok i) (cfg : Cfg) : i.transaction cfg = none := by
  refine (?_ : ∀ i, decodeHost w0 w1 w2 wdata = .ok i → i.transaction cfg = none) i h
  unfold decodeHost decodeOperation
  repeat
    first
    | refine ok_ite (P := fun i => i.transaction cfg = none) ?_ ?_
    | exact fun i h => by cases h; rfl
    | exact fun i h => by cases h

/-! ## The step of a state that issues a wire command -/

/-- `prepare` writes V_NEW alone. -/
theorem prepare_eq (s : State) : s.prepare = { s with vNew := s.prepare.vNew } := by
  unfold State.prepare
  split <;> rfl

@[simp] theorem prepare_mode (s : State) : s.prepare.mode = s.mode := by rw [prepare_eq]
@[simp] theorem prepare_cfg (s : State) : s.prepare.cfg = s.cfg := by rw [prepare_eq]
@[simp] theorem prepare_env (s : State) : s.prepare.env = s.env := by rw [prepare_eq]
@[simp] theorem prepare_vRb (s : State) : s.prepare.vRb = s.vRb := by rw [prepare_eq]
@[simp] theorem prepare_rbuf (s : State) : s.prepare.rbuf = s.rbuf := by rw [prepare_eq]
@[simp] theorem prepare_trace (s : State) : s.prepare.trace = s.trace := by rw [prepare_eq]
@[simp] theorem prepare_answerTo (s : State) (c : Call) : s.prepare.answerTo c = s.answerTo c := by
  unfold State.answerTo; simp

/-- What is issued is a wire command of the engine's own mode. -/
theorem issue_transaction {s : State} {i : Instr} (h : s.issue = some (.command i)) :
    ∃ c a n data, i.transaction s.cfg = some (c, s.mode, a, n, data) := by
  unfold State.issue at h
  split at h <;> try cases h
  all_goals
    cases hm : s.mode <;> simp only [byMode, octalOnly, State.eraseCommand, hm] at h
  all_goals
    repeat' split at h
  all_goals
    cases h
  all_goals exact ⟨_, _, _, _, rfl⟩

/-- The states whose command keeps a byte in V_RB (10_state.md R31). -/
def Seq.readsByte (q : Seq) : Bool :=
  [Seq.initPoll, .wc2Poll, .pgPoll, .erPoll, .rsrRd, .rcrRd, .rc2Rd, .initRdcr2, .initVerify].contains q

/-- The states whose command keeps its bytes in RBUF (10_state.md R31). -/
def Seq.readsList (q : Seq) : Bool := q == .ridRd || q == .rdRd

/-- A state issues a register read, the identification read or the array read only where R31 says so. -/
theorem issue_reads {s : State} {i : Instr} {c : Cmd} {m : Mode} {a : Word} {n : Nat} {data : List Byte}
    (h : s.issue = some (.command i)) (hi : i.transaction s.cfg = some (c, m, a, n, data)) :
    (c ∈ [Cmd.rdsr, .rdcr2, .rdcr] → s.seq.readsByte = true) ∧ (c ∈ [Cmd.rdid, .dtrd8] → s.seq.readsList = true) := by
  unfold State.issue at h
  split at h <;> try cases h
  all_goals
    next hq =>
      rw [hq]
      cases hm : s.mode <;> simp only [byMode, octalOnly, State.eraseCommand, hm] at h
      all_goals
        repeat' split at h
      all_goals
        cases h
      all_goals
        cases hi
        decide

theorem advance_resp {s : State} (h : s.seq = .resp) : s.advance = s := by
  simp [State.advance, h]

/-- Everything the step of such a state can do: raise a ProtocolViolation without a call, make the one call and raise
TransportFault, or make it and go on with the operation. -/
theorem step_wire {s : State} {i : Instr} {c : Cmd} {m : Mode} {a : Word} {n : Nat} {data : List Byte}
    (hr : s.rst = false) (hq : s.prepare.issue = some (.command i))
    (hi : i.transaction s.cfg = some (c, m, a, n, data)) :
    ∃ t, step s = .next t ∧
      ((∃ v, (m ≠ s.mode ∨ catalog s.cfg m c = none ∨ (c = .pp4b ∧ pageOk a data.length = false)) ∧
          t = s.prepare.refuse v) ∨
       (∃ td e, s.mode = m ∧ build s.cfg c m a (BitVec.ofNat 32 n) = some td ∧
          (c = .pp4b → pageOk a data.length = true) ∧ s.answerTo (callOf td data) = .err e ∧
          t = (s.prepare.called (callOf td data)).raise (.transportFault e)) ∨
       (∃ td bs v l, s.mode = m ∧ build s.cfg c m a (BitVec.ofNat 32 n) = some td ∧
          (c = .pp4b → pageOk a data.length = true) ∧ s.answerTo (callOf td data) = .ok bs ∧ ReadsKept s c v l ∧
          t = State.advance { s.prepare.called (callOf td data) with vRb := v, rbuf := l })) := by
  obtain ⟨u, hu, hw⟩ := exec_wire (s := s.prepare) (by rw [prepare_cfg]; exact hi)
  refine ⟨u.advance, by rw [step_call hr hq, hu]; rfl, ?_⟩
  cases hw with
  | violation v h e =>
    refine .inl ⟨v, by simpa using h, ?_⟩
    rw [advance_resp (by rw [e]; rfl), e]
  | failed td e hm hb hp ha ht =>
    refine .inr (.inl ⟨td, e, by simpa using hm, by simpa using hb, hp, by simpa using ha, ?_⟩)
    rw [advance_resp (by rw [ht]; rfl), ht]
  | done td bs v l hm hb hp ha hk ht =>
    exact .inr (.inr ⟨td, bs, v, l, by simpa using hm, by simpa using hb, hp, by simpa using ha,
      ⟨by simpa using hk.byte, by simpa using hk.list⟩, by rw [ht]⟩)

end Sys2Proof.Machine
end

