-- ==== Sys2Proof/Laws/Step.lean ====
section
/-! SUPPORT. What a step can do, once for all states. -/

namespace Sys2Proof.Machine

/-- A host operation or reserved code in IDLE is refused, or it is accepted: the common checks passed, the operand
registers its rule names are loaded, and nothing else changes. -/
theorem exec_host {s t : State} {i : Instr} (hs : s.seq = .idle) (hi : i.transaction s.cfg = none)
    (h : exec i s = .next t) :
    (∃ v, t = s.refuse v) ∨
    (s.commonViolation t.hop = none ∧ t.seq ≠ .idle ∧
      t = { s with hop := t.hop, inFlight := t.inFlight, aCur := t.aCur, vNew := t.vNew, nLeft := t.nLeft,
                   off := t.off, done := t.done, rsp := t.rsp, seq := t.seq }) := by
  have key : ∀ (c : BitVec 4) (own : Option Violation) (req : InFlight) (load : State → State),
      (∀ u : State, (load u).seq ≠ .idle ∧ (load u).hop = u.hop ∧
        load u = { u with aCur := (load u).aCur, vNew := (load u).vNew, nLeft := (load u).nLeft,
                          off := (load u).off, done := (load u).done, rsp := (load u).rsp, seq := (load u).seq }) →
      t = s.accept c own req load →
      (∃ v, t = s.refuse v) ∨
      (s.commonViolation t.hop = none ∧ t.seq ≠ .idle ∧
        t = { s with hop := t.hop, inFlight := t.inFlight, aCur := t.aCur, vNew := t.vNew, nLeft := t.nLeft,
                     off := t.off, done := t.done, rsp := t.rsp, seq := t.seq }) := by
    intro c own req load hl ht
    rcases accept_cases s c own req load with ⟨h1, _⟩ | ⟨v, _, h2⟩ | ⟨_, h3, _, h4⟩
    · exact absurd hs h1
    · exact .inl ⟨v, ht.trans h2⟩
    · obtain ⟨l1, l2, l3⟩ := hl { s with hop := c, inFlight := req }
      right
      rw [ht, h4]
      refine ⟨by rw [l2]; exact h3, l1, ?_⟩
      rw [l3]
  cases i <;> simp only [Instr.transaction, reduceCtorEq] at hi <;> cases h
  case reservedHop0 | reservedHopE | reservedHopF =>
    rcases refuseEncoding_cases s with ⟨h1, _⟩ | ⟨v, _, h2⟩
    · exact absurd hs h1
    · exact .inl ⟨v, h2⟩
  case read addr len =>
    refine key _ _ _ _ ?_ rfl
    intro u
    split <;> exact ⟨by simp, rfl, rfl⟩
  all_goals
    refine key _ _ _ _ ?_ rfl
    exact fun u => ⟨by simp, rfl, rfl⟩

/-- A host operation or reserved code writes RSP only where it goes to RESP. -/
theorem exec_host_rsp {s t : State} {i : Instr} (hi : i.transaction s.cfg = none) (h : exec i s = .next t)
    (hr : t.seq ≠ .resp) : t.rsp = s.rsp := by
  have key : ∀ (c : BitVec 4) (own : Option Violation) (req : InFlight) (load : State → State),
      (∀ u : State, (load u).seq ≠ .resp → (load u).rsp = u.rsp) → t = s.accept c own req load → t.rsp = s.rsp := by
    intro c own req load hl ht
    rcases accept_cases s c own req load with ⟨_, h1⟩ | ⟨v, _, h2⟩ | ⟨_, _, _, h4⟩
    · rw [ht, h1]
    · exact absurd (by rw [ht, h2]; rfl) hr
    · rw [ht, h4] at hr ⊢
      exact hl _ hr
  cases i <;> simp only [Instr.transaction, reduceCtorEq] at hi <;> cases h
  case reservedHop0 | reservedHopE | reservedHopF =>
    rcases refuseEncoding_cases s with ⟨_, h1⟩ | ⟨v, _, h2⟩
    · rw [h1]
    · exact absurd (by rw [h2]; rfl) hr
  case read addr len =>
    refine key _ _ _ _ ?_ rfl
    intro u
    split
    · exact fun h => absurd rfl h
    · exact fun _ => rfl
  all_goals
    refine key _ _ _ _ ?_ rfl
    exact fun u _ => rfl

/-- The forms of a step that answers a next state, the reset input low. -/
theorem step_next {s t : State} (hr : s.rst = false) (h : step s = .next t) :
    (∃ i c a n data, s.prepare.issue = some (.command i) ∧ i.transaction s.cfg = some (c, s.mode, a, n, data) ∧
      ((∃ v, (catalog s.cfg s.mode c = none ∨ (c = .pp4b ∧ pageOk a data.length = false)) ∧
          t = s.prepare.refuse v) ∨
       (∃ td e, build s.cfg c s.mode a (BitVec.ofNat 32 n) = some td ∧
          (c = .pp4b → pageOk a data.length = true) ∧ s.answerTo (callOf td data) = .err e ∧
          t = (s.prepare.called (callOf td data)).raise (.transportFault e)) ∨
       (∃ td bs v l, build s.cfg c s.mode a (BitVec.ofNat 32 n) = some td ∧
          (c = .pp4b → pageOk a data.length = true) ∧ s.answerTo (callOf td data) = .ok bs ∧ ReadsKept s c v l ∧
          t = State.advance { s.prepare.called (callOf td data) with vRb := v, rbuf := l }))) ∨
    (s.prepare.issue = some .noRow ∧ t = s.prepare.refuse .mode) ∨
    (s.seq = .resp ∧ t = s.deliver) ∨
    (s.seq = .initFlip ∧ t = s.initFlip) ∨
    (s.seq = .pgSplit ∧ t = s.programSplit) ∨
    (s.seq = .pgAdv ∧ t = s.programAdvance) ∨
    (s.seq = .mmEn ∧ t = s.windowEnable) ∨
    (s.seq = .mmDis ∧ t = s.windowDisable) ∨
    (s.seq = .idle ∧ t = s) ∨
    (∃ r rest i, s.seq = .idle ∧ s.host = r :: rest ∧ decodeHost r.w0 r.w1 r.w2 r.wdata = .ok i ∧
      i.transaction s.cfg = none ∧ exec i { s with host := rest } = .next t) ∨
    (∃ r rest v, s.seq = .idle ∧ s.host = r :: rest ∧ t = ({ s with host := rest } : State).refuse v) := by
  rcases step_cases hr with ⟨i, hq, _⟩ | ⟨hq, e⟩ | ⟨_, e⟩ | ⟨hs, e⟩ | ⟨hs, e⟩ | ⟨hs, e⟩ | ⟨hs, e⟩ | ⟨hs, e⟩ | ⟨hs, e⟩ |
    ⟨hs, _, e⟩ | ⟨r, rest, i, hs, hh, hd, e⟩ | ⟨r, rest, hs, hh, _, e⟩ | ⟨_, _, _, _, _, e⟩
  · left
    obtain ⟨c, a, n, data, hi⟩ := issue_transaction hq
    simp only [prepare_cfg, prepare_mode] at hi
    obtain ⟨u, hu, hres⟩ := step_wire hr hq hi
    obtain rfl : u = t := by rw [hu] at h; cases h; rfl
    refine ⟨i, c, a, n, data, hq, hi, ?_⟩
    rcases hres with ⟨v, hv, e⟩ | ⟨td, e, _, h1, h2, h3, h4⟩ | ⟨td, bs, v, l, _, h1, h2, h3, hk, h4⟩
    · exact .inl ⟨v, by simpa using hv, e⟩
    · exact .inr (.inl ⟨td, e, h1, h2, h3, h4⟩)
    · exact .inr (.inr ⟨td, bs, v, l, h1, h2, h3, hk, h4⟩)
  · rw [e, raise_protocolViolation] at h; cases h; exact .inr (.inl ⟨hq, rfl⟩)
  · rw [e] at h; cases h
  · rw [e] at h; cases h; exact .inr (.inr (.inl ⟨hs, rfl⟩))
  · rw [e] at h; cases h; exact .inr (.inr (.inr (.inl ⟨hs, rfl⟩)))
  · rw [e] at h; cases h; exact .inr (.inr (.inr (.inr (.inl ⟨hs, rfl⟩))))
  · rw [e] at h; cases h; exact .inr (.inr (.inr (.inr (.inr (.inl ⟨hs, rfl⟩)))))
  · rw [e] at h; cases h; exact .inr (.inr (.inr (.inr (.inr (.inr (.inl ⟨hs, rfl⟩))))))
  · rw [e] at h; cases h; exact .inr (.inr (.inr (.inr (.inr (.inr (.inr (.inl ⟨hs, rfl⟩)))))))
  · rw [e] at h; cases h; exact .inr (.inr (.inr (.inr (.inr (.inr (.inr (.inr (.inl ⟨hs, rfl⟩))))))))
  · rw [e] at h
    exact .inr (.inr (.inr (.inr (.inr (.inr (.inr (.inr (.inr (.inl
      ⟨r, rest, i, hs, hh, hd, decodeHost_transaction hd _, h⟩)))))))))
  · rw [e] at h; cases h
    rcases refuseEncoding_cases { s with host := rest } with ⟨h1, _⟩ | ⟨v, _, h2⟩
    · exact absurd hs h1
    · exact .inr (.inr (.inr (.inr (.inr (.inr (.inr (.inr (.inr (.inr ⟨r, rest, v, hs, hh, h2⟩)))))))))
  · rw [e] at h; cases h

/-- What the operation in flight does after an `Ok`, in every state that issues a wire command: no call, and only
these registers. -/
theorem advance_frame (s : State) :
    s.advance = { s with seq := s.advance.seq, pollN := s.advance.pollN, vOld := s.advance.vOld, rsp := s.advance.rsp,
                         fault := s.advance.fault, faultCause := s.advance.faultCause, faultOp := s.advance.faultOp,
                         faultInfo := s.advance.faultInfo, initMismatch := s.advance.initMismatch } := by
  unfold State.advance
  split <;> try rfl
  case h_3 | h_14 | h_18 | h_21 =>
    rcases afterPollRead_cases s _ with ⟨_, e⟩ | ⟨_, _, e⟩ | ⟨_, _, e⟩ <;> rw [e] <;> rfl
  · unfold State.initConclude
    split <;> rfl

/-- POLL_N is written in a polling state and in a step that enters one (10_state.md R31). -/
theorem advance_pollN {s : State} (h : s.seq ∉ [Seq.initPoll, .wc2Poll, .pgPoll, .erPoll])
    (h' : s.advance.seq ∉ [Seq.initPoll, .wc2Poll, .pgPoll, .erPoll]) : s.advance.pollN = s.pollN := by
  revert h'
  unfold State.advance
  split <;> intro h' <;> try rfl
  case h_3 hq | h_14 hq | h_18 hq | h_21 hq => simp [hq] at h
  case h_2 | h_13 | h_17 | h_20 => simp [State.startPoll] at h'
  unfold State.initConclude
  split <;> rfl

/-- V_OLD is written in INIT_RDCR2 alone (10_state.md R31). -/
theorem advance_vOld {s : State} (h : s.seq ≠ .initRdcr2) : s.advance.vOld = s.vOld := by
  unfold State.advance
  split <;> first | rfl | (next hq => exact absurd hq h) | skip
  case h_3 | h_14 | h_18 | h_21 =>
    rcases afterPollRead_cases s _ with ⟨_, e⟩ | ⟨_, _, e⟩ | ⟨_, _, e⟩ <;> rw [e] <;> rfl
  unfold State.initConclude
  split <;> rfl

/-- RSP is written by a step that ends in RESP (10_state.md R31). -/
theorem advance_rsp {s : State} (h : s.advance.seq ≠ .resp) : s.advance.rsp = s.rsp := by
  revert h
  unfold State.advance
  split <;> intro h <;> first | rfl | exact absurd rfl h | skip
  case h_3 | h_14 | h_18 | h_21 =>
    revert h
    rcases afterPollRead_cases s _ with ⟨_, e⟩ | ⟨_, _, e⟩ | ⟨_, _, e⟩ <;> rw [e] <;> intro h <;>
      first | rfl | exact absurd rfl h
  revert h
  unfold State.initConclude
  split <;> intro h <;> exact absurd rfl h

/-- V_NEW is written before the call in INIT_WRCR2 alone (43_init_sequencer.md R182). -/
theorem prepare_vNew {s : State} (h : s.seq ≠ .initWrcr2) : s.prepare.vNew = s.vNew := by
  unfold State.prepare
  rw [if_neg h]

end Sys2Proof.Machine
end

