-- ==== Sys2Proof/Laws/Run.lean ====
section
/-! SUPPORT. Runs: composing steps, the answers a scripted environment gives, the step of a state that issues a
command, a write or a read, and the completion poll as a whole. -/

namespace Sys2Proof.Machine

/-! ## Runs -/

/-- A run of one step more. -/
theorem run_step {s t : State} {n : Nat} (h : step s = .next t) : run (n + 1) s = run n t := by
  simp [run, h]

/-- Runs compose. -/
theorem run_add {s t : State} {m n : Nat} (h : run m s = .next t) : run (m + n) s = run n t := by
  induction m generalizing s with
  | zero => cases h; simp
  | succ k ih =>
    rw [Nat.add_right_comm]
    simp only [run] at h ⊢
    cases hs : step s with
    | next u => rw [hs] at h; exact ih h
    | fault r => rw [hs] at h; cases h
    | refused r => rw [hs] at h; cases h

/-- RESP hands the response over (60_exceptions.md R255). -/
theorem step_resp {s : State} (hr : s.rst = false) (hs : s.seq = .resp) : step s = .next s.deliver := by
  simp [step, State.plan, hr, prepare_of_ne, State.issue, hs]

/-! ## Scripted answers -/

/-- An answer of the right length is given as it is. -/
theorem fitBytes_self {h : History} {c : Call} {n : Nat} {bs : List Byte} (hn : bs.length = n) :
    fitBytes h c n bs = bs := by
  subst hn
  apply List.ext_getElem (by simp)
  intro i h1 h2
  simp [fitBytes, List.getD_eq_getElem?_getD, h2]

/-- A scripted answer of the right length is the environment's answer. -/
theorem answerTo_script {s : State} {c : Call} {bs : List Byte} {more : List Answer} (hk : s.env.kind = .any)
    (hs : s.env.script = .ok bs :: more) (hc : c ≠ .mmapDisable) (hl : bs.length = c.dataLen) :
    s.answerTo c = .ok bs := by
  unfold State.answerTo Env.answer Env.anyAnswer
  cases c <;> simp_all [Answer.fit, fitBytes_self]

/-- The state after a call whose answer is scripted. -/
theorem called_script {s : State} {c : Call} {bs : List Byte} {more : List Answer} (hk : s.env.kind = .any)
    (hs : s.env.script = .ok bs :: more) (hc : c ≠ .mmapDisable) (hl : bs.length = c.dataLen) :
    s.called c = { s with env := { s.env with script := more }, trace := s.trace ++ [(c, .ok bs)] } := by
  rw [called_eq (answerTo_script hk hs hc hl)]
  unfold Env.next Env.anyNext
  cases c <;> simp_all

/-! ## The step of a state that issues a bus transaction, its answer scripted -/

theorem step_command {s : State} {i : Instr} {c : Cmd} {m : Mode} {a : Word} {td : TD} {more : List Answer}
    (hr : s.rst = false) (hq : s.prepare.issue = some (.command i))
    (hx : exec i s.prepare = .next (s.prepare.sendCommand c m a)) (hm : s.mode = m)
    (hb : build s.cfg c m a 0 = some td) (hk : s.env.kind = .any) (hs : s.env.script = .ok [] :: more) :
    step s = .next (State.advance
      { s.prepare with
        env := { s.env with script := more }
        trace := s.trace ++ [(.execCmd td, .ok [])] }) := by
  rw [step_call hr hq, hx, sendCommand_ok (by simpa using hm) (by simpa using hb)
    (answerTo_script (by simpa using hk) (by simpa using hs) (by simp) (by rfl)),
    called_script (by simpa using hk) (by simpa using hs) (by simp) (by rfl)]
  simp [resume]

theorem step_write {s : State} {i : Instr} {c : Cmd} {m : Mode} {a : Word} {td : TD} {data : List Byte}
    {more : List Answer} (hr : s.rst = false) (hq : s.prepare.issue = some (.command i))
    (hx : exec i s.prepare = .next (s.prepare.sendWrite c m a data)) (hm : s.mode = m)
    (hb : build s.cfg c m a (BitVec.ofNat 32 data.length) = some td) (hk : s.env.kind = .any)
    (hs : s.env.script = .ok [] :: more) :
    step s = .next (State.advance
      { s.prepare with
        env := { s.env with script := more }
        trace := s.trace ++ [(.execWrite td data, .ok [])] }) := by
  rw [step_call hr hq, hx, sendWrite_ok (by simpa using hm) (by simpa using hb)
    (answerTo_script (by simpa using hk) (by simpa using hs) (by simp) (by rfl)),
    called_script (by simpa using hk) (by simpa using hs) (by simp) (by rfl)]
  simp [resume]

theorem step_read {s : State} {i : Instr} {c : Cmd} {m : Mode} {a : Word} {td : TD} {n k : Nat} {bs : List Byte}
    {store : List Byte → State → State} {more : List Answer} (hr : s.rst = false)
    (hq : s.prepare.issue = some (.command i)) (hx : exec i s.prepare = .next (s.prepare.sendRead c m a n k store))
    (hm : s.mode = m) (hb : build s.cfg c m a (BitVec.ofNat 32 n) = some td) (hl : bs.length = td.dlen.toNat)
    (hk : s.env.kind = .any) (hs : s.env.script = .ok bs :: more) :
    step s = .next (State.advance (store (bs.take k)
      { s.prepare with
        env := { s.env with script := more }
        trace := s.trace ++ [(.execRead td, .ok bs)] })) := by
  rw [step_call hr hq, hx, sendRead_ok (by simpa using hm) (by simpa using hb)
    (answerTo_script (by simpa using hk) (by simpa using hs) (by simp) hl),
    called_script (by simpa using hk) (by simpa using hs) (by simp) hl]
  simp [resume]

/-! ## The completion poll (42_register_access.md R166) -/

/-- Where a completion poll returns to, in its four states. -/
def pollEnd (s : State) (q : Seq) : State :=
  if q = .initPoll then { s with seq := .initRdcr2 }
  else if q = .pgPoll then { s with seq := .pgAdv }
  else s.respondOk 0 []

/-- The state after one Status read of a poll, its answer and what is left of the script given. -/
def pollRead (s : State) (bs : List Byte) (more : List Answer) : State :=
  { s with
    env := { s.env with script := more }
    trace := s.trace
      ++ [(.execRead (transactionOf s.cfg .rdsr s.mode 0 (if s.mode = .octal then 2 else 1)), .ok bs)]
    vRb := byteAt bs 0
    pollN := s.pollN + 1 }

/-- One Status read of a poll. -/
theorem poll_step {s : State} {bs : List Byte} {more : List Answer} (hr : s.rst = false)
    (hq : s.seq ∈ [Seq.initPoll, .wc2Poll, .pgPoll, .erPoll]) (hk : s.env.kind = .any)
    (hl : bs.length = if s.mode = .octal then 2 else 1) (hs : s.env.script = .ok bs :: more) :
    step s = .next
      (if (byteAt bs 0).getLsbD s.cfg.wipBit.val = false then pollEnd (pollRead s bs more) s.seq
       else if s.cfg.pollLimit ≠ 0 ∧ s.cfg.pollLimit ≤ s.pollN + 1 then
         (pollRead s bs more).raise .completionTimeout
       else pollRead s bs more) := by
  have hp : s.prepare = s := prepare_of_ne (by rintro h; simp [h] at hq)
  have ht : byteAt (bs.take 1) 0 = byteAt bs 0 := by cases bs <;> simp [byteAt]
  cases hm : s.mode
  · rw [step_read (i := .rdsrL) (c := .rdsr) (m := .legacy) (a := 0) (n := 1) (k := 1) (store := storeVRb)
      (td := transactionOf s.cfg .rdsr .legacy 0 1) hr ?_ rfl hm rfl (by rw [hl, hm]; rfl) hk hs]
    · simp only [List.mem_cons, List.not_mem_nil, or_false] at hq
      rcases hq with h | h | h | h <;>
        simp [State.advance, storeVRb, hp, h, State.afterPollRead, ht, wipSet, pollExhausted, pollEnd, pollRead,
          State.goto, hm]
    · simp only [List.mem_cons, List.not_mem_nil, or_false] at hq
      rcases hq with h | h | h | h <;> simp [hp, State.issue, h, byMode, hm]
  · rw [step_read (i := .rdsrO) (c := .rdsr) (m := .octal) (a := 0) (n := 2) (k := 1) (store := storeVRb)
      (td := transactionOf s.cfg .rdsr .octal 0 2) hr ?_ rfl hm rfl (by rw [hl, hm]; rfl) hk hs]
    · simp only [List.mem_cons, List.not_mem_nil, or_false] at hq
      rcases hq with h | h | h | h <;>
        simp [State.advance, storeVRb, hp, h, State.afterPollRead, ht, wipSet, pollExhausted, pollEnd, pollRead,
          State.goto, hm]
    · simp only [List.mem_cons, List.not_mem_nil, or_false] at hq
      rcases hq with h | h | h | h <;> simp [hp, State.issue, h, byMode, hm]

/-- A poll that returns, from any value of POLL_N. -/
theorem poll_run_from {s : State} {busy : List (List Byte)} {last : List Byte} {more : List Answer}
    (hr : s.rst = false) (hq : s.seq ∈ [Seq.initPoll, .wc2Poll, .pgPoll, .erPoll]) (hk : s.env.kind = .any)
    (hsz : ∀ bs ∈ busy ++ [last], bs.length = if s.mode = .octal then 2 else 1)
    (hb : ∀ bs ∈ busy, (byteAt bs 0).getLsbD s.cfg.wipBit.val = true)
    (hl : (byteAt last 0).getLsbD s.cfg.wipBit.val = false)
    (hn : s.cfg.pollLimit = 0 ∨ s.pollN + busy.length + 1 ≤ s.cfg.pollLimit)
    (hs : s.env.script = (busy ++ [last]).map Answer.ok ++ more) :
    run (busy.length + 1) s = .next (pollEnd
      { s with
        env := { s.env with script := more }
        trace := s.trace ++ ((busy ++ [last]).map Answer.ok).map fun a =>
          (.execRead (transactionOf s.cfg .rdsr s.mode 0 (if s.mode = .octal then 2 else 1)), a)
        vRb := byteAt last 0
        pollN := s.pollN + busy.length + 1 } s.seq) := by
  induction busy generalizing s with
  | nil =>
    rw [run_step (poll_step hr hq hk (hsz _ (by simp)) hs)]
    rw [if_pos hl]; simp [run, pollRead]
  | cons b busy ih =>
    rw [List.length_cons, run_step (poll_step (bs := b) hr hq hk (hsz _ (by simp)) hs)]
    have h1 := hb b (by simp)
    have h2 : ¬ (s.cfg.pollLimit ≠ 0 ∧ s.cfg.pollLimit ≤ s.pollN + 1) := by
      simp only [List.length_cons] at hn; omega
    simp only [h1, h2, Bool.true_eq_false, if_false]
    refine Eq.trans (ih ?_ ?_ ?_ ?_ ?_ hl ?_ ?_) ?_
    · exact hr
    · exact hq
    · exact hk
    · exact fun bs h => hsz bs (by simp at h ⊢; tauto)
    · exact fun bs h => hb bs (by simp [h])
    · simp only [List.length_cons] at hn; dsimp only [pollRead]; omega
    · simp [pollRead]
    simp [pollRead, Nat.add_assoc, Nat.add_comm, Nat.add_left_comm]

/-- A poll that returns. -/
theorem poll_run {s : State} {p : Poll} {more : List Answer} (hr : s.rst = false)
    (hq : s.seq ∈ [Seq.initPoll, .wc2Poll, .pgPoll, .erPoll]) (hk : s.env.kind = .any) (h0 : s.pollN = 0)
    (hp : PollReturns s.cfg s.mode p) (hs : s.env.script = p.answers ++ more) :
    run (p.busy.length + 1) s = .next (pollEnd
      { s with
        env := { s.env with script := more }
        trace := s.trace ++ p.history s.cfg s.mode
        vRb := byteAt p.last 0
        pollN := p.reads } s.seq) := by
  rw [poll_run_from (more := more) hr hq hk hp.sizes hp.busySet hp.lastClear
    (by simpa [h0, Poll.reads] using hp.bound) hs]
  simp [h0, Poll.reads, Poll.history, Poll.answers]

end Sys2Proof.Machine
end

