-- ==== Sys2Proof/Laws/Safety.lean ====
section
/-! SUPPORT. Which Octal opcodes are those of even register commands. -/

namespace Sys2Proof.Machine

/-- The other rows of the Octal table are no register opcodes, whatever the configuration's RDCR row is
(40_command_catalog.md R123, 42_register_access.md R172). -/
theorem registerOpcode_other (cfg : Cfg) {op : BitVec 16}
    (h : op ∈ [(0x06F9 : BitVec 16), 0x6699, 0x9966, 0x9F60, 0xEE11, 0x12ED, 0x21DE, 0xDC23, 0x609F]) :
    registerOpcode cfg op = false := by
  have named : [(0x05FA : BitVec 16), 0x718E, 0x728D].contains op = false := by
    simp only [List.mem_cons, List.not_mem_nil, or_false] at h
    rcases h with rfl | rfl | rfl | rfl | rfl | rfl | rfl | rfl | rfl <;> decide
  unfold registerOpcode Cfg.rdcrOctalOk
  rw [named]
  cases cfg.rdcr with
  | none => rfl
  | some r =>
    by_cases ho : r.o = op
    · have taken : [(0x06F9 : BitVec 16), 0x6699, 0x9966, 0x05FA, 0x718E, 0x728D, 0x9F60, 0xEE11, 0x12ED, 0x21DE, 0xDC23,
          0x609F].contains op = true := by
        simp only [List.mem_cons, List.not_mem_nil, or_false] at h
        rcases h with rfl | rfl | rfl | rfl | rfl | rfl | rfl | rfl | rfl <;> decide
      simp only [ho, taken]
      rfl
    · simp [ho]

end Sys2Proof.Machine
end

