-- ==== Sys2Proof/Machine/Text.lean ====
section
/-! DEFINITION. The textual forms: a request (30_encoding.md R111) and a transport call in a trace (R112). No other
definition uses them. -/

namespace Sys2Proof.Machine

/-- One hexadecimal digit. -/
def hexDigit (n : Nat) : Char := "0123456789ABCDEF".toList.getD n '?'

/-- `k` hexadecimal digits of a number, high digit first. -/
def hexDigits (k n : Nat) : List Char :=
  match k with
  | 0 => []
  | j + 1 => hexDigit (n / 16 ^ j % 16) :: hexDigits j n

/-- A number in C notation with `k` hexadecimal digits. -/
def hexText (k n : Nat) : String := "0x" ++ String.ofList (hexDigits k n)

/-- Pieces joined by a separator. -/
def joinText (sep : String) (l : List String) : String :=
  match l with
  | [] => ""
  | [x] => x
  | x :: y :: rest => x ++ sep ++ joinText sep (y :: rest)

/-- A byte list, `[0x40, 0x41]`. -/
def bytesText (bs : List Byte) : String := "[" ++ joinText ", " (bs.map fun b => hexText 2 b.toNat) ++ "]"

/-- A request with its operands (R111). None for a reserved code or a wire command: R111 gives them no text. -/
def requestText (i : Instr) : Option String :=
  match i with
  | .init => some "INIT"
  | .readId => some "READ_ID"
  | .readStatus => some "READ_STATUS"
  | .readCfg => some "READ_CFG"
  | .readCfg2 addr => some ("READ_CFG2 " ++ hexText 8 addr.toNat)
  | .writeCfg2 addr val => some ("WRITE_CFG2 " ++ hexText 8 addr.toNat ++ ", " ++ hexText 2 val.toNat)
  | .read addr len => some ("READ " ++ hexText 8 addr.toNat ++ ", " ++ toString len.toNat)
  | .program addr _ wdata => some ("PROGRAM " ++ hexText 8 addr.toNat ++ ", " ++ bytesText wdata)
  | .eraseSector addr => some ("ERASE_SECTOR " ++ hexText 8 addr.toNat)
  | .eraseBlock addr => some ("ERASE_BLOCK " ++ hexText 8 addr.toNat)
  | .eraseChip => some "ERASE_CHIP"
  | .mmapEnable => some "MMAP_ENABLE"
  | .mmapDisable => some "MMAP_DISABLE"
  | .reservedHop0 | .reservedHopE | .reservedHopF => none
  | .wrenL | .wrenO | .rstenL | .rstenO | .rstL | .rstO | .rdsrL | .rdsrO | .rdcr2L _ | .rdcr2O _ | .wrcr2L _ _
  | .wrcr2O _ _ | .rdidL | .rdidO | .dtrd8O _ _ | .pp4bO _ _ | .seO _ | .beO _ | .ceO | .rdcrL | .rdcrO => none

/-- The pseudo-operation `erase(address, unit)` (R111): the address is dropped for a chip erase. -/
def eraseOperation (addr : Word) (u : EraseUnit) : Instr :=
  match u with
  | .sector => .eraseSector addr
  | .block => .eraseBlock addr
  | .chip => .eraseChip

/-- The mnemonic of a command (40_command_catalog.md R121). -/
def commandText (c : Cmd) : String :=
  match c with
  | .wren => "WREN" | .rsten => "RSTEN" | .rst => "RST" | .rdsr => "RDSR" | .rdcr2 => "RDCR2" | .wrcr2 => "WRCR2"
  | .rdid => "RDID" | .rdcr => "RDCR" | .dtrd8 => "8DTRD" | .pp4b => "PP4B" | .se => "SE" | .be => "BE" | .ce => "CE"

/-- `MNEMONIC.m` of a descriptor's opcode, and the fields that are not zero (R112). -/
def descriptorText (cfg : Cfg) (td : TD) : String :=
  (match findCommand cfg (opcodeMode td.isz) td.opcode with
    | some c => commandText c
    | none => hexText 4 td.opcode.toNat)
  ++ (match td.isz with | .op8 => ".L" | .op16 => ".O")
  ++ (if td.ap then " addr=" ++ hexText 8 td.addr.toNat else "")
  ++ (if td.dlen = 0 then "" else " dlen=" ++ toString td.dlen.toNat)
  ++ (if td.dummy = 0 then "" else " dummy=" ++ toString td.dummy.toNat)

/-- A packed word: `0`, or eight hexadecimal digits. -/
def wordText (w : Word) : String := if w = 0 then "0" else hexText 8 w.toNat

/-- The packed words of a template, as 45_memory_mapped.md R233 writes them: `T0 0xA37FEE11/T1 0/T2 0`. -/
def packedText (td : TD) : String :=
  "T0 " ++ wordText td.t0 ++ "/T1 " ++ wordText td.addr ++ "/T2 " ++ wordText td.dlen

/-- A transport call in a trace (R112). R112 gives no form for the memory-mapped calls; theirs is that of
45_memory_mapped.md R233 and of 95_test_vectors.md V44 and V45: the two templates with a comma between them, and empty
parentheses. MODEL'S CHOICE: that this is the trace text of these calls, and what else R112 leaves open (log 33). -/
def callText (cfg : Cfg) (c : Call) : String :=
  match c with
  | .execCmd td => "Exec " ++ descriptorText cfg td
  | .execRead td => "ExecRead " ++ descriptorText cfg td
  | .execWrite td bytes => "ExecWrite " ++ descriptorText cfg td ++ " " ++ bytesText bytes
  | .mmapEnable tdr tdw => "MmapEnable(" ++ packedText tdr ++ ", " ++ packedText tdw ++ ")"
  | .mmapDisable => "MmapDisable()"

end Sys2Proof.Machine
end

