-- ==== Sys2Proof/Tests/Slice0.lean ====
section
/-! SUPPORT. Tests: the words of spec/ decode to their instructions, the checks of WellFormed refuse ill-formed terms,
small one-step tests, and for every obligation with hypotheses a concrete case that meets them. -/

namespace Sys2Proof.Tests

open Sys2Proof Sys2Proof.Machine

/-! ## Small states -/

/-- The reset state in a mode and a sequencer state. -/
def inState (m : Mode) (q : Seq) : State := { State.reset with mode := m, seq := q }

/-- The reset state in a mode with one request at the host port. -/
def port (m : Mode) (w0 w1 w2 : Word) (data : List Byte) : State :=
  { inState m .idle with host := [⟨w0, w1, w2, data⟩] }

/-- The state with these answers scripted. -/
def answering (s : State) (l : List (List Byte)) : State := { s with env := { s.env with script := l.map Answer.ok } }

/-- The state with an error scripted. -/
def failing (s : State) : State := { s with env := { s.env with script := [.err .busFault] } }

/-- The state under the reference environment, the chip in the mode of the engine, WEL set or not. -/
def referenced (s : State) (wel : Bool) : State :=
  { s with env := { s.env with kind := .reference, busy := [2], chip := { s.env.chip with link := s.mode, wel := wel } } }

/-- The state under a configuration. -/
def configured (s : State) (cfg : Cfg) : State := { s with cfg := cfg }

/-- A configuration with the RDCR row of 40_command_catalog.md R135. -/
def cfgRow : Cfg := { Cfg.ref with rdcr := some ⟨0x15, 0x15EA, some 0, 4, 0⟩ }

/-- A value of the next state. -/
def ofNext {α : Type} (f : State → α) (o : Host.Outcome State Fault Refusal) : Option α :=
  match o with
  | .next t => some (f t)
  | .fault _ => none
  | .refused _ => none

/-- What a decoder answered. -/
def decoded (cfg : Cfg) (x : Words) : Option Instr :=
  match decode cfg x with
  | .ok i => some i
  | .error _ => none

/-- Why a decoder rejected. -/
def rejected (cfg : Cfg) (x : Words) : Option DecodeError :=
  match decode cfg x with
  | .ok _ => none
  | .error e => some e

/-! ## Decoding: every constructor from words written out from the spec (30_encoding.md R80, R81, R103;
40_command_catalog.md R128 to R140) -/

theorem test_decode_init : decoded Cfg.ref (.host 0x00000001 0 0 []) = some (.init) := by decide

theorem test_decode_readId : decoded Cfg.ref (.host 0x00000002 0 0 []) = some (.readId) := by decide

theorem test_decode_readStatus : decoded Cfg.ref (.host 0x00000003 0 0 []) = some (.readStatus) := by decide

theorem test_decode_readCfg : decoded Cfg.ref (.host 0x00000004 0 0 []) = some (.readCfg) := by decide

theorem test_decode_readCfg2 : decoded Cfg.ref (.host 0x00000005 0x00000300 0 []) = some (.readCfg2 0x300) := by decide

theorem test_decode_writeCfg2 : decoded Cfg.ref (.host 0x00000706 0x00000300 0 []) = some (.writeCfg2 0x300 0x07) := by decide

theorem test_decode_read : decoded Cfg.ref (.host 0x00000007 0x00001000 0x00000010 []) = some (.read 0x1000 16) := by decide

theorem test_decode_program : decoded Cfg.ref (.host 0x00000008 0x000000F0 0x00000002 [0xA5, 0x5A]) = some (.program 0xF0 2 [0xA5, 0x5A]) := by decide

theorem test_decode_eraseSector : decoded Cfg.ref (.host 0x00000009 0x00012345 0 []) = some (.eraseSector 0x12345) := by decide

theorem test_decode_eraseBlock : decoded Cfg.ref (.host 0x0000000A 0x00010000 0 []) = some (.eraseBlock 0x10000) := by decide

theorem test_decode_eraseChip : decoded Cfg.ref (.host 0x0000000B 0 0 []) = some (.eraseChip) := by decide

theorem test_decode_mmapEnable : decoded Cfg.ref (.host 0x0000000C 0 0 []) = some (.mmapEnable) := by decide

theorem test_decode_mmapDisable : decoded Cfg.ref (.host 0x0000000D 0 0 []) = some (.mmapDisable) := by decide

theorem test_decode_reservedHop0 : decoded Cfg.ref (.host 0x00000000 0 0 []) = some (.reservedHop0) := by decide

theorem test_decode_reservedHopE : decoded Cfg.ref (.host 0x0000000E 0 0 []) = some (.reservedHopE) := by decide

theorem test_decode_reservedHopF : decoded Cfg.ref (.host 0x0000000F 0 0 []) = some (.reservedHopF) := by decide

theorem test_decode_wrenL : decoded Cfg.ref (.wire ⟨0x00000006, 0, 0⟩ []) = some (.wrenL) := by decide

theorem test_decode_wrenO : decoded Cfg.ref (.wire ⟨0x000706F9, 0, 0⟩ []) = some (.wrenO) := by decide

theorem test_decode_rstenL : decoded Cfg.ref (.wire ⟨0x00000066, 0, 0⟩ []) = some (.rstenL) := by decide

theorem test_decode_rstenO : decoded Cfg.ref (.wire ⟨0x00076699, 0, 0⟩ []) = some (.rstenO) := by decide

theorem test_decode_rstL : decoded Cfg.ref (.wire ⟨0x00000099, 0, 0⟩ []) = some (.rstL) := by decide

theorem test_decode_rstO : decoded Cfg.ref (.wire ⟨0x00079966, 0, 0⟩ []) = some (.rstO) := by decide

theorem test_decode_rdsrL : decoded Cfg.ref (.wire ⟨0x00400005, 0, 1⟩ []) = some (.rdsrL) := by decide

theorem test_decode_rdsrO : decoded Cfg.ref (.wire ⟨0x237F05FA, 0, 2⟩ []) = some (.rdsrO) := by decide

theorem test_decode_rdcr2L : decoded Cfg.ref (.wire ⟨0x00480071, 0, 1⟩ []) = some (.rdcr2L 0) := by decide

theorem test_decode_rdcr2O : decoded Cfg.ref (.wire ⟨0x237F718E, 0x00000300, 2⟩ []) = some (.rdcr2O 0x300) := by decide

theorem test_decode_wrcr2L : decoded Cfg.ref (.wire ⟨0x00880072, 0, 1⟩ [0x02]) = some (.wrcr2L 0 0x02) := by decide

theorem test_decode_wrcr2O : decoded Cfg.ref (.wire ⟨0x03BF728D, 0x00000300, 2⟩ [0x07, 0x00]) = some (.wrcr2O 0x300 0x07) := by decide

theorem test_decode_rdidL : decoded Cfg.ref (.wire ⟨0x0040009F, 0, 3⟩ []) = some (.rdidL) := by decide

theorem test_decode_rdidO : decoded Cfg.ref (.wire ⟨0x217F9F60, 0, 3⟩ []) = some (.rdidO) := by decide

theorem test_decode_dtrd8O : decoded Cfg.ref (.wire ⟨0xA37FEE11, 0x00001000, 0x00000010⟩ []) = some (.dtrd8O 0x1000 16) := by decide

theorem test_decode_pp4bO : decoded Cfg.ref (.wire ⟨0x03BF12ED, 0x000000F0, 0x00000002⟩ [0x01, 0x02]) = some (.pp4bO 0xF0 [0x01, 0x02]) := by decide

theorem test_decode_seO : decoded Cfg.ref (.wire ⟨0x003F21DE, 0x00012345, 0⟩ []) = some (.seO 0x12345) := by decide

theorem test_decode_beO : decoded Cfg.ref (.wire ⟨0x003FDC23, 0x00010000, 0⟩ []) = some (.beO 0x10000) := by decide

theorem test_decode_ceO : decoded Cfg.ref (.wire ⟨0x0007609F, 0, 0⟩ []) = some (.ceO) := by decide

theorem test_decode_rdcrL : decoded cfgRow (.wire ⟨0x00400015, 0, 1⟩ []) = some (.rdcrL) := by decide

theorem test_decode_rdcrO : decoded cfgRow (.wire ⟨0x237F15EA, 0, 2⟩ []) = some (.rdcrO) := by decide

/-! ## Decoding: rejections by name -/

/-- W0[31:16] not zero (30_encoding.md R82). -/
theorem test_reject_reservedHigh : rejected Cfg.ref (.host 0x00010001 0 0 []) = some .reservedBits := by decide

/-- W0[7:4] not zero. -/
theorem test_reject_reservedLow : rejected Cfg.ref (.host 0x00000013 0 0 []) = some .reservedBits := by decide

/-- A reserved code is its own row whatever the other bits are. -/
theorem test_reserved_code_first : decoded Cfg.ref (.host 0xFFFFFFFE 0 0 []) = some .reservedHopE := by decide

theorem test_reject_streamLength : rejected Cfg.ref (.host 8 0 2 [0x01]) = some .streamLength := by decide

/-- `dd` 3 is never produced (30_encoding.md R103). -/
theorem test_reject_dd3 : rejected Cfg.ref (.wire ⟨0xA3FFEE11, 0, 16⟩ []) = some .malformed := by decide

/-- Bit 26 is reserved. -/
theorem test_reject_bit26 : rejected Cfg.ref (.wire ⟨0x04000006, 0, 0⟩ []) = some .malformed := by decide

/-- An Octal opcode in an 8-bit descriptor is no opcode of the Legacy table (30_encoding.md R105). -/
theorem test_reject_opcode : rejected Cfg.ref (.wire ⟨0x000006F9, 0, 0⟩ []) = some .unknownOpcode := by decide

/-- RDCR has no row under CFG_REF. -/
theorem test_reject_rdcr : rejected Cfg.ref (.wire ⟨0x00400015, 0, 1⟩ []) = some .unknownOpcode := by decide

/-- A WREN with an address phase is not what the builder makes. -/
theorem test_reject_shape : rejected Cfg.ref (.wire ⟨0x00080006, 0, 0⟩ []) = some .shape := by decide

/-- An odd register read at double rate (42_register_access.md R161). -/
theorem test_reject_oddRegister : rejected Cfg.ref (.wire ⟨0x237F05FA, 0, 1⟩ []) = some .dataPhase := by decide

/-- A page program across a page boundary (44_array_access.md R203). -/
theorem test_reject_pageCrossing : rejected Cfg.ref (.wire ⟨0x03BF12ED, 0xFF, 2⟩ [1, 2]) = some .dataPhase := by
  decide

/-! ## WellFormed: an ill-formed term for each check -/

theorem test_illformed_program : (Instr.program 0 2 [0x01]).wellFormed Cfg.ref = false := by decide

theorem test_illformed_emptyRead : (Instr.dtrd8O 0 0).wellFormed Cfg.ref = false := by decide

theorem test_illformed_emptyPage : (Instr.pp4bO 0 []).wellFormed Cfg.ref = false := by decide

theorem test_illformed_pageCrossing : (Instr.pp4bO 0xFF [0x01, 0x02]).wellFormed Cfg.ref = false := by decide

theorem test_illformed_rdcrL : Instr.rdcrL.wellFormed Cfg.ref = false := by decide

theorem test_illformed_rdcrO : Instr.rdcrO.wellFormed Cfg.ref = false := by decide

/-- An RDCR row with the opcode of RDSR. -/
theorem test_illformed_rdcrL_clash :
    Instr.rdcrL.wellFormed { Cfg.ref with rdcr := some ⟨0x05, 0x15EA, none, 4, 0⟩ } = false := by decide

theorem test_illformed_rdcrO_clash :
    Instr.rdcrO.wellFormed { Cfg.ref with rdcr := some ⟨0x15, 0x05FA, none, 4, 0⟩ } = false := by decide

theorem test_wellformed_rdcr : Instr.rdcrL.wellFormed cfgRow = true ∧ Instr.rdcrO.wellFormed cfgRow = true := by decide

/-! ## The table's words (log 29) and the placing of an instruction (log 10) -/

theorem test_tableWord_host : decodeTableWord 96 0x0 = some .reservedHop0 ∧ decodeTableWord 32 0x7 = some (.read 0 0) := by
  decide

theorem test_tableWord_legacy : decodeTableWord 8 0x71 = some (.rdcr2L 0) := by decide

theorem test_tableWord_octal : decodeTableWord 16 0x12ED = some (.pp4bO 0 [0x00]) := by decide

/-- The step after placing WREN.O makes the call of WREN.O. -/
theorem test_place_wire :
    ofNext (fun t => t.trace) (step ((answering State.reset [[]]).withFetchWord 16 0x06F9)) =
      some [(.execCmd (transactionOf Cfg.ref .wren .octal 0 0), .ok [])] := by decide

/-- The step after placing INIT accepts it. -/
theorem test_place_host : ofNext (fun t => t.seq) (step (State.reset.withFetchWord 32 0x1)) = some .initRsten := by decide

/-! ## One step of each instruction -/


/-- R181, R182. -/
theorem test_init_accepts :
    ofNext (fun t => (t.hop, t.seq)) (exec .init (inState .legacy .idle)) = some (0x1, .initRsten) := by decide

/-- INIT while MODE is Octal: PV_MODE (R181). -/
theorem test_init_in_octal :
    ofNext (fun t => (t.rsp.status, t.rsp.sub, t.seq)) (exec .init (inState .octal .idle)) = some (1, 2, .resp) := by decide

theorem test_readId_accepts :
    ofNext (fun t => (t.hop, t.seq)) (exec .readId (inState .octal .idle)) = some (0x2, .ridRd) := by decide

/-- PV_MODE before INIT (R253). -/
theorem test_readId_in_legacy :
    ofNext (fun t => (t.rsp.status, t.rsp.sub, t.seq)) (exec .readId (inState .legacy .idle)) = some (1, 2, .resp) := by decide

theorem test_readStatus_accepts :
    ofNext (fun t => (t.hop, t.seq)) (exec .readStatus (inState .octal .idle)) = some (0x3, .rsrRd) := by decide

/-- PV_MODE before INIT (R253). -/
theorem test_readStatus_in_legacy :
    ofNext (fun t => (t.rsp.status, t.rsp.sub, t.seq)) (exec .readStatus (inState .legacy .idle)) = some (1, 2, .resp) := by decide

/-- R168: PV_MODE under CFG_REF. -/
theorem test_readCfg_without_row :
    ofNext (fun t => (t.rsp.status, t.rsp.sub, t.seq)) (exec .readCfg (inState .octal .idle)) = some (1, 2, .resp) := by decide

theorem test_readCfg_with_row :
    ofNext (fun t => t.seq) (exec .readCfg (configured (inState .octal .idle) cfgRow)) = some .rcrRd := by decide

/-- The address is not range-checked (R169). -/
theorem test_readCfg2_loads :
    ofNext (fun t => (t.inFlight.addr, t.seq)) (exec (.readCfg2 0xFFFFFFFF) (inState .octal .idle)) =
      some (0xFFFFFFFF, .rc2Rd) := by decide

/-- R171. -/
theorem test_writeCfg2_loads :
    ofNext (fun t => (t.aCur, t.vNew, t.seq)) (exec (.writeCfg2 0x300 0x07) (inState .octal .idle)) =
      some (0x300, 0x07, .wc2Wren) := by decide

/-- PV_MMAP while the window is enabled (45_memory_mapped.md R231). -/
theorem test_writeCfg2_window :
    ofNext (fun t => (t.rsp.sub, t.seq)) (exec (.writeCfg2 0 0) { inState .octal .idle with mmapEn := true }) =
      some (5, .resp) := by decide

/-- `addr = 0`, `len = 0x0200_0000` is in range (R202). -/
theorem test_read_whole_array :
    ofNext (fun t => t.seq) (exec (.read 0 0x02000000) (inState .octal .idle)) = some .rdRd := by decide

/-- The sum does not wrap: PV_RANGE (R200). -/
theorem test_read_no_wrap :
    ofNext (fun t => (t.rsp.sub, t.seq)) (exec (.read 0xFFFFFFFF 2) (inState .octal .idle)) = some (4, .resp) := by decide

/-- R205, DONE cleared. -/
theorem test_program_loads :
    ofNext (fun t => (t.aCur, t.nLeft, t.done, t.seq))
      (exec (.program 0xF0 2 [1, 2]) { inState .octal .idle with done := 7 }) = some (0xF0, 2, 0, .pgSplit) := by decide

theorem test_program_range :
    ofNext (fun t => (t.rsp.sub, t.rsp.done)) (exec (.program 0x02000000 1 [1]) { inState .octal .idle with done := 7 }) =
      some (4, 7) := by decide

/-- R208: the address unaligned as given. -/
theorem test_eraseSector_keeps_address :
    ofNext (fun t => (t.aCur, t.seq)) (exec (.eraseSector 0x12345) (inState .octal .idle)) = some (0x12345, .erWren) := by decide

theorem test_eraseSector_range :
    ofNext (fun t => t.rsp.sub) (exec (.eraseSector 0x02000000) (inState .octal .idle)) = some 4 := by decide

/-- The last byte of the array. -/
theorem test_eraseBlock_last :
    ofNext (fun t => (t.hop, t.aCur)) (exec (.eraseBlock 0x01FFFFFF) (inState .octal .idle)) = some (0xA, 0x01FFFFFF) := by decide

/-- PV_FAULTED comes first (R253). -/
theorem test_eraseBlock_faulted :
    ofNext (fun t => t.rsp.sub) (exec (.eraseBlock 0) { inState .octal .idle with fault := true }) = some 6 := by decide

theorem test_eraseChip_accepts :
    ofNext (fun t => (t.hop, t.seq)) (exec .eraseChip (inState .octal .idle)) = some (0xB, .erWren) := by decide

/-- R234: accepted while enabled. -/
theorem test_mmapEnable_again :
    ofNext (fun t => t.seq) (exec .mmapEnable { inState .octal .idle with mmapEn := true }) = some .mmEn := by decide

/-- R236: accepted while disabled. -/
theorem test_mmapDisable_idle :
    ofNext (fun t => t.seq) (exec .mmapDisable (inState .octal .idle)) = some .mmDis := by decide

/-- R108. -/
theorem test_reservedHop0 :
    ofNext (fun t => (t.rsp.status, t.rsp.sub, t.seq)) (exec .reservedHop0 (inState .legacy .idle)) = some (1, 1, .resp) := by decide

/-- R108. -/
theorem test_reservedHopE :
    ofNext (fun t => (t.rsp.status, t.rsp.sub, t.seq)) (exec .reservedHopE (inState .legacy .idle)) = some (1, 1, .resp) := by decide

/-- R108. -/
theorem test_reservedHopF :
    ofNext (fun t => (t.rsp.status, t.rsp.sub, t.seq)) (exec .reservedHopF (inState .legacy .idle)) = some (1, 1, .resp) := by decide

/-- 30_encoding.md R83. -/
theorem test_held_while_busy :
    ofNext (fun t => t.seq) (exec .readId (inState .octal .erPoll)) = some .erPoll := by decide

theorem test_wrenL_call :
    ofNext (fun t => t.trace) (exec .wrenL (answering (inState .legacy .idle) [[]])) =
      some [(.execCmd (transactionOf Cfg.ref .wren .legacy 0 0), .ok [])] := by decide

theorem test_wrenO_call :
    ofNext (fun t => t.trace) (exec .wrenO (answering (inState .octal .idle) [[]])) =
      some [(.execCmd (transactionOf Cfg.ref .wren .octal 0 0), .ok [])] := by decide

theorem test_rstenL_call :
    ofNext (fun t => t.trace) (exec .rstenL (answering (inState .legacy .idle) [[]])) =
      some [(.execCmd (transactionOf Cfg.ref .rsten .legacy 0 0), .ok [])] := by decide

theorem test_rstenO_call :
    ofNext (fun t => t.trace) (exec .rstenO (answering (inState .octal .idle) [[]])) =
      some [(.execCmd (transactionOf Cfg.ref .rsten .octal 0 0), .ok [])] := by decide

theorem test_rstL_call :
    ofNext (fun t => t.trace) (exec .rstL (answering (inState .legacy .idle) [[]])) =
      some [(.execCmd (transactionOf Cfg.ref .rst .legacy 0 0), .ok [])] := by decide

theorem test_rstO_call :
    ofNext (fun t => t.trace) (exec .rstO (answering (inState .octal .idle) [[]])) =
      some [(.execCmd (transactionOf Cfg.ref .rst .octal 0 0), .ok [])] := by decide

theorem test_rdsrL_call :
    ofNext (fun t => (t.vRb, t.trace)) (exec .rdsrL (answering (inState .legacy .idle) [[0x03]])) =
      some (0x03, [(.execRead (transactionOf Cfg.ref .rdsr .legacy 0 1), .ok [0x03])]) := by decide

theorem test_rdsrO_call :
    ofNext (fun t => (t.vRb, t.trace)) (exec .rdsrO (answering (inState .octal .idle) [[0x03, 0xAA]])) =
      some (0x03, [(.execRead (transactionOf Cfg.ref .rdsr .octal 0 2), .ok [0x03, 0xAA])]) := by decide

theorem test_rdcr2L_call :
    ofNext (fun t => (t.vRb, t.trace)) (exec (.rdcr2L 0) (answering (inState .legacy .idle) [[0x40]])) =
      some (0x40, [(.execRead (transactionOf Cfg.ref .rdcr2 .legacy 0 1), .ok [0x40])]) := by decide

theorem test_rdcr2O_call :
    ofNext (fun t => (t.vRb, t.trace)) (exec (.rdcr2O 0x300) (answering (inState .octal .idle) [[0x07, 0xAA]])) =
      some (0x07, [(.execRead (transactionOf Cfg.ref .rdcr2 .octal 0x300 2), .ok [0x07, 0xAA])]) := by decide

theorem test_wrcr2L_call :
    ofNext (fun t => t.trace) (exec (.wrcr2L 0 0x02) (answering (inState .legacy .idle) [[]])) =
      some [(.execWrite (transactionOf Cfg.ref .wrcr2 .legacy 0 1) [0x02], .ok [])] := by decide

theorem test_wrcr2O_call :
    ofNext (fun t => t.trace) (exec (.wrcr2O 0x300 0x07) (answering (inState .octal .idle) [[]])) =
      some [(.execWrite (transactionOf Cfg.ref .wrcr2 .octal 0x300 2) [0x07, 0x00], .ok [])] := by decide

theorem test_rdidL_call :
    ofNext (fun t => (t.rbuf, t.trace)) (exec .rdidL (answering (inState .legacy .idle) [[0xC2, 0x84, 0x39]])) =
      some ([0xC2, 0x84, 0x39], [(.execRead (transactionOf Cfg.ref .rdid .legacy 0 3), .ok [0xC2, 0x84, 0x39])]) := by decide

theorem test_rdidO_call :
    ofNext (fun t => (t.rbuf, t.trace)) (exec .rdidO (answering (inState .octal .idle) [[0xC2, 0x84, 0x39]])) =
      some ([0xC2, 0x84, 0x39], [(.execRead (transactionOf Cfg.ref .rdid .octal 0 3), .ok [0xC2, 0x84, 0x39])]) := by decide

theorem test_dtrd8O_call :
    ofNext (fun t => (t.rbuf, t.trace)) (exec (.dtrd8O 0x1000 2) (answering (inState .octal .idle) [[0x40, 0x41]])) =
      some ([0x40, 0x41], [(.execRead (transactionOf Cfg.ref .dtrd8 .octal 0x1000 2), .ok [0x40, 0x41])]) := by decide

theorem test_pp4bO_call :
    ofNext (fun t => t.trace) (exec (.pp4bO 0xFE [0x01, 0x02]) (answering (inState .octal .idle) [[]])) =
      some [(.execWrite (transactionOf Cfg.ref .pp4b .octal 0xFE 2) [0x01, 0x02], .ok [])] := by decide

theorem test_seO_call :
    ofNext (fun t => t.trace) (exec (.seO 0x12345) (answering (inState .octal .idle) [[]])) =
      some [(.execCmd (transactionOf Cfg.ref .se .octal 0x12345 0), .ok [])] := by decide

theorem test_beO_call :
    ofNext (fun t => t.trace) (exec (.beO 0x10000) (answering (inState .octal .idle) [[]])) =
      some [(.execCmd (transactionOf Cfg.ref .be .octal 0x10000 0), .ok [])] := by decide

theorem test_ceO_call :
    ofNext (fun t => t.trace) (exec .ceO (answering (inState .octal .idle) [[]])) =
      some [(.execCmd (transactionOf Cfg.ref .ce .octal 0 0), .ok [])] := by decide

theorem test_rdcrL_call :
    ofNext (fun t => (t.vRb, t.trace)) (exec .rdcrL (answering (configured (inState .legacy .idle) cfgRow) [[0x5A]])) =
      some (0x5A, [(.execRead (transactionOf cfgRow .rdcr .legacy 0 1), .ok [0x5A])]) := by decide

theorem test_rdcrO_call :
    ofNext (fun t => (t.vRb, t.trace)) (exec .rdcrO (answering (configured (inState .octal .idle) cfgRow) [[0x5A, 0x00]])) =
      some (0x5A, [(.execRead (transactionOf cfgRow .rdcr .octal 0 2), .ok [0x5A, 0x00])]) := by decide

/-- A command of the other table: PV_MODE, no call (41_transaction_builder.md R142). -/
theorem test_wrenO_in_legacy :
    ofNext (fun t => (t.rsp.sub, t.trace)) (exec .wrenO (inState .legacy .idle)) = some (2, []) := by decide

/-- TransportFault (60_exceptions.md R256, R257). -/
theorem test_seO_error :
    ofNext (fun t => (t.fault, t.faultCause, t.faultOp, t.faultInfo, t.rsp.status, t.rsp.info))
      (exec (.seO 0) (failing { inState .octal .erCmd with hop := 0x9 })) = some (true, 2, 0x9, 0x02, 2, 0x02) := by decide

/-- PV_PAGE, no call (44_array_access.md R203). -/
theorem test_pp4bO_page :
    ofNext (fun t => (t.rsp.sub, t.trace)) (exec (.pp4bO 0xFF [1, 2]) (inState .octal .pgPp)) = some (3, []) := by decide

theorem test_rdcrO_without_row :
    ofNext (fun t => (t.rsp.sub, t.trace)) (exec .rdcrO (inState .octal .idle)) = some (2, []) := by decide

/-! ## Single steps of the sequencer -/

/-- INIT_WRCR2 writes V_OLD with bit 1 set (43_init_sequencer.md R186). -/
theorem test_initWrcr2_byte :
    ofNext (fun t => (t.vNew, t.seq)) (step (answering { inState .legacy .initWrcr2 with vOld := 0x41 } [[]])) =
      some (0x43, .initFlip) := by decide

/-- The end of INIT with a mismatch, not fatal: payload 0x8000_02FF (R194). -/
theorem test_init_mismatch_payload :
    ofNext (fun t => (t.initMismatch, t.rsp.status, t.rsp.payload))
      (step (answering { inState .octal .initVerify with vNew := 0x02 } [[0xFF, 0xFF]])) =
      some (true, 0, 0x800002FF) := by decide

/-- STATUS after it: 0x0000_0009 (R194). -/
theorem test_status_word : ({ inState .octal .idle with initMismatch := true } : State).statusWord = 0x00000009 := by
  decide

/-- `Chunk(0xF0, 32)` is 16 and `Chunk(0x100, 16)` is 16 (44_array_access.md R213). -/
theorem test_chunks : chunks 0xF0 32 = [(0xF0, 16), (0x100, 16)] := by decide

/-- A bound of 1: the first Status read with WIP set raises CompletionTimeout (42_register_access.md R166). -/
theorem test_poll_bound :
    ofNext (fun t => (t.faultCause, t.pollN, t.rsp.status))
      (step (answering (configured (inState .octal .erPoll) { Cfg.ref with pollLimit := 1 }) [[0x01, 0x01]])) =
      some (3, 1, 3) := by decide

/-- Reset in the middle of a poll (70_reset_and_hazards.md R290). -/
theorem test_reset_in_poll :
    ofNext (fun t => (t.mode, t.seq, t.done)) (step { inState .octal .pgPoll with rst := true, done := 5 }) =
      some (.legacy, .idle, 0) := by decide

/-! ## The reference environment, one command each (20_memory.md R74, R75) -/

theorem test_ref_wel :
    ofNext (fun t => t.env.chip.wel) (exec .wrenO (referenced (inState .octal .idle) false)) = some true := by decide

theorem test_ref_switch :
    ofNext (fun t => (t.env.chip.link, t.env.chip.busyLeft)) (exec (.wrcr2L 0 0x02) (referenced (inState .legacy .idle) true)) =
      some (.octal, 2) := by decide

/-- Programming clears bits only: 0xFF AND 0x5A. -/
theorem test_ref_program :
    ofNext (fun t => (t.env.chip.arr, t.env.chip.busyLeft))
      (exec (.pp4bO 0x10 [0x5A, 0xFF]) (referenced (inState .octal .idle) true)) = some ([(0x10, 0x5A)], 2) := by decide

/-- A busy chip shows WIP at bit 0 and WEL at bit 1 and nothing else (95_test_vectors.md section 4). -/
theorem test_ref_status :
    ofNext (fun t => (t.vRb, t.env.chip.busyLeft))
      (exec .rdsrL
        { inState .legacy .idle with
          env := { Env.powerUp with kind := .reference, chip := { Chip.powerUp with wel := true, busyLeft := 1 } } }) =
      some (0x03, 0) := by decide

/-- Outside a cycle the Status byte is 0x00: call 10 of the program P1 of 95_test_vectors.md. -/
theorem test_ref_status_idle :
    ofNext (fun t => t.vRb) (exec .rdsrO (referenced (inState .octal .rsrRd) false)) = some 0x00 := by decide

/-- The trace text of MMAP_ENABLE's call, from V44 of 95_test_vectors.md. -/
theorem test_text_mmap :
    callText Cfg.ref (.mmapEnable (templateRead Cfg.ref) (templateWrite Cfg.ref)) =
      "MmapEnable(T0 0xA37FEE11/T1 0/T2 0, T0 0x03BF12ED/T1 0/T2 0)" := by decide

/-! ## Witnesses: for every obligation with hypotheses, a case that meets them all, for each clause -/

theorem witness_DecodeEncodeAgree :
    ∀ p ∈ [(Cfg.ref, Instr.program 0 1 [0x00]), (Cfg.ref, .program 0 0 []), (Cfg.ref, .dtrd8O 0 1),
      (Cfg.ref, .pp4bO 0xFF [0x00]), (Cfg.ref, .ceO), (cfgRow, .rdcrL),
      (cfgRow, .rdcrO)], p.2.wellFormed p.1 = true := by decide

/-- A whole page. -/
theorem witness_DecodeEncodeAgree_page :
    (Instr.pp4bO 0 (List.replicate 256 0x00)).wellFormed Cfg.ref = true := by
  simp only [Instr.wellFormed, List.length_replicate]
  decide

theorem witness_WireWordsHaveOneMeaning : decode Cfg.ref (.wire ⟨0x237F05FA, 0, 2⟩ []) = .ok .rdsrO := by rfl

theorem witness_DecodedIsWellFormed :
    decode Cfg.ref (.host 8 0 1 [0x01]) = .ok (.program 0 1 [0x01])
    ∧ decode Cfg.ref (.wire ⟨0x03BF12ED, 0xFF, 1⟩ [1]) = .ok (.pp4bO 0xFF [1]) := ⟨rfl, rfl⟩

theorem witness_LegacyTable : Cfg.ref.rdcr = none ∧ cfgRow.rdcr = some ⟨0x15, 0x15EA, some 0, 4, 0⟩ := by decide

theorem witness_OctalTable : Cfg.ref.rdcr = none ∧ cfgRow.rdcr = some ⟨0x15, 0x15EA, some 0, 4, 0⟩ := by decide

/-- A row that is not there, and a row of each address kind and of each direction. -/
theorem witness_BuildFollowsRow :
    catalog Cfg.ref .legacy .se = none
    ∧ (catalog Cfg.ref .octal .ce).map (fun r => (r.ak, r.dd)) = some (.none, .none)
    ∧ (catalog Cfg.ref .octal .pp4b).map (fun r => (r.ak, r.dd)) = some (.operand, .write)
    ∧ (catalog Cfg.ref .octal .rdid).map (fun r => (r.ak, r.dd)) = some (.const 0, .read) := by decide

theorem witness_BuiltDescriptorProfiles :
    (build Cfg.ref .rdcr2 .legacy 0 1).map (fun td => (td.ap, td.dd)) = some (true, .read)
    ∧ (build Cfg.ref .rdid .octal 0 3).map (fun td => (td.ap, td.dr)) = some (true, .str)
    ∧ (build Cfg.ref .wren .octal 0 0).map (fun td => (td.ap, td.dd)) = some (false, .none) := by decide

theorem witness_TemplatesAreFixed : Cfg.ref.dummyRead = 20 := by decide

/-- The request at the port is one a host can present, the engine idle and not in reset. -/
def requestReady (s : State) : Bool :=
  !s.rst && s.seq == .idle && s.host.length == 1 && s.host.all Request.expressible

/-- One state for each refusal of acceptance, at the ends of the ranges. -/
theorem witness_AcceptanceInOrder_refused :
    ∀ s ∈ [{ port .octal 0x2 0 0 [] with fault := true }, port .octal 0x12 0 0 [], port .octal 0x10002 0 0 [],
        port .octal 0x0 0 0 [], port .octal 0xE 0 0 [], port .octal 0xF 0 0 [], port .octal 0x1 0 0 [],
        port .legacy 0x2 0 0 [], { port .octal 0xB 0 0 [] with mmapEn := true }, port .octal 0x4 0 0 [],
        port .octal 0x7 0x02000000 1 [], port .octal 0x8 0x02000000 1 [0x00], port .octal 0x9 0x02000000 0 [],
        port .octal 0xA 0xFFFFFFFF 0 []], requestReady s = true := by decide

/-- One state for each operation accepted, at the ends of the ranges. -/
theorem witness_AcceptanceInOrder :
    ∀ s ∈ [port .legacy 0x1 0 0 [], port .octal 0x2 0 0 [], port .octal 0x3 0 0 [],
        configured (port .octal 0x4 0 0 []) cfgRow, port .octal 0x5 0xFFFFFFFF 0 [], port .octal 0x0706 0x300 0 [],
        port .octal 0x7 0x01FFFFFF 1 [], port .octal 0x7 0x02000000 0 [], port .octal 0x8 0x01FFFFFF 1 [0x00],
        port .octal 0x9 0x01FFFFFF 0 [], port .octal 0xA 0 0 [], port .octal 0xB 0xFFFFFFFF 0 [],
        { port .octal 0xC 0 0 [] with mmapEn := true }, port .octal 0xD 0 0 []],
      requestReady s = true ∧ ofNext (fun t => t.rsp.status) (step s) = some 0 := by
  intro s h
  simp only [List.mem_cons, List.not_mem_nil, or_false] at h
  rcases h with rfl | rfl | rfl | rfl | rfl | rfl | rfl | rfl | rfl | rfl | rfl | rfl | rfl | rfl <;> exact ⟨rfl, rfl⟩

theorem witness_ReservedEncodingsRefused :
    (inState .legacy .idle).seq = .idle ∧ (inState .legacy .idle).fault = false
    ∧ (∀ w ∈ [(0x0 : Word), 0xE, 0xF, 0x11, 0xF1, 0x10001, 0x80000001],
        (port .legacy w 0 0 []).host = [⟨w, 0, 0, []⟩] ∧
        (w.extractLsb' 0 4 = 0x0 ∨ w.extractLsb' 0 4 = 0xE ∨ w.extractLsb' 0 4 = 0xF ∨ w.extractLsb' 4 4 ≠ 0
          ∨ w.extractLsb' 16 16 ≠ 0)) := by
  refine ⟨rfl, rfl, ?_⟩
  intro w h
  simp only [List.mem_cons, List.not_mem_nil, or_false] at h
  rcases h with rfl | rfl | rfl | rfl | rfl | rfl | rfl <;> exact ⟨rfl, by decide⟩

theorem witness_BusyHoldsRequests :
    (inState .octal .erPoll).seq ≠ .idle ∧ (Instr.readId).transaction Cfg.ref = none
    ∧ (inState .octal .initFlip).seq ≠ .idle ∧ step (inState .octal .initFlip) = .next (inState .octal .initVerify) :=
  ⟨by decide, rfl, by decide, rfl⟩

theorem witness_InitAccepted :
    let s := inState .legacy .idle
    s.seq = .idle ∧ s.fault = false ∧ s.mode = .legacy ∧ s.mmapEn = false := by decide

theorem witness_RegisterOperationsAccepted :
    let s := inState .octal .idle
    s.seq = .idle ∧ s.fault = false ∧ s.mode = .octal ∧ s.mmapEn = false ∧ s.cfg.rdcr = none
    ∧ (configured s cfgRow).cfg.rdcr ≠ none ∧ (configured s cfgRow).seq = .idle := by decide

/-- In range at the last byte, with a zero length at the end, and out of range by one. -/
theorem witness_ReadAndProgramAccepted :
    let s := inState .octal .idle
    s.seq = .idle ∧ s.fault = false ∧ s.mode = .octal ∧ s.mmapEn = false
    ∧ (0x01FFFFFF : Word).toNat + (1 : Word).toNat ≤ 0x02000000 ∧ (1 : Word) ≠ 0
    ∧ (0x02000000 : Word).toNat + (0 : Word).toNat ≤ 0x02000000
    ∧ 0x02000000 < (0x02000000 : Word).toNat + (1 : Word).toNat := by decide

theorem witness_ErasesAccepted :
    let s := inState .octal .idle
    s.seq = .idle ∧ s.fault = false ∧ s.mode = .octal ∧ s.mmapEn = false
    ∧ (0x01FFFFFF : Word).toNat < 0x02000000 ∧ 0x02000000 ≤ (0x02000000 : Word).toNat := by decide

theorem witness_WindowOperations :
    ((inState .octal .idle).seq = .idle ∧ (inState .octal .idle).fault = false)
    ∧ ((answering (inState .octal .mmEn) [[]]).seq = .mmEn ∧ (answering (inState .octal .mmEn) [[]]).rst = false
      ∧ (answering (inState .octal .mmEn) [[]]).answerTo (.mmapEnable (templateRead Cfg.ref) (templateWrite Cfg.ref))
          = .ok [])
    ∧ (failing (inState .octal .mmEn)).answerTo (.mmapEnable (templateRead Cfg.ref) (templateWrite Cfg.ref))
        = .err .busFault
    ∧ ((inState .octal .mmDis).seq = .mmDis ∧ (inState .octal .mmDis).rst = false) :=
  ⟨⟨rfl, rfl⟩, ⟨rfl, rfl, rfl⟩, rfl, rfl, rfl⟩

theorem witness_LegacyCommandsComplete :
    let s := answering (inState .legacy .idle) [[]]
    s.mode = .legacy ∧ ∀ op ∈ [(0x06 : BitVec 16), 0x66, 0x99],
      s.answerTo (.execCmd ⟨op, .op8, .l1, .str, false, .l1, .str, 0, .none, .l1, .str, 0, 0⟩) = .ok [] :=
  ⟨rfl, fun _ _ => rfl⟩

theorem witness_LegacyReadsComplete :
    (answering (inState .legacy .idle) [[7]]).mode = .legacy
    ∧ (answering (inState .legacy .idle) [[7]]).answerTo
        (.execRead ⟨0x05, .op8, .l1, .str, false, .l1, .str, 0, .read, .l1, .str, 1, 0⟩) = .ok [7]
    ∧ (answering (inState .legacy .idle) [[7]]).answerTo
        (.execRead ⟨0x71, .op8, .l1, .str, true, .l1, .str, 0x300, .read, .l1, .str, 1, 0⟩) = .ok [7]
    ∧ (answering (inState .legacy .idle) [[7, 8, 9]]).answerTo
        (.execRead ⟨0x9F, .op8, .l1, .str, false, .l1, .str, 0, .read, .l1, .str, 3, 0⟩) = .ok [7, 8, 9] := by decide

theorem witness_OctalCommandsComplete :
    let s := answering (inState .octal .idle) [[]]
    s.mode = .octal
    ∧ (∀ op ∈ [(0x06F9 : BitVec 16), 0x6699, 0x9966, 0x609F],
      s.answerTo (.execCmd ⟨op, .op16, .l8, .dtr, false, .l1, .str, 0, .none, .l1, .str, 0, 0⟩) = .ok [])
    ∧ (∀ op ∈ [(0x21DE : BitVec 16), 0xDC23],
      s.answerTo (.execCmd ⟨op, .op16, .l8, .dtr, true, .l8, .dtr, 0x12345, .none, .l1, .str, 0, 0⟩) = .ok []) :=
  ⟨rfl, fun _ _ => rfl, fun _ _ => rfl⟩

theorem witness_OctalReadsComplete :
    (answering (inState .octal .idle) [[7, 8]]).mode = .octal
    ∧ (answering (inState .octal .idle) [[7, 8]]).answerTo
        (.execRead ⟨0x05FA, .op16, .l8, .dtr, true, .l8, .dtr, 0, .read, .l8, .dtr, 2, 4⟩) = .ok [7, 8]
    ∧ (answering (inState .octal .idle) [[7, 8]]).answerTo
        (.execRead ⟨0x718E, .op16, .l8, .dtr, true, .l8, .dtr, 0x300, .read, .l8, .dtr, 2, 4⟩) = .ok [7, 8]
    ∧ (answering (inState .octal .idle) [[7, 8, 9]]).answerTo
        (.execRead ⟨0x9F60, .op16, .l8, .dtr, true, .l8, .dtr, 0, .read, .l8, .str, 3, 4⟩) = .ok [7, 8, 9] := by decide

theorem witness_ConfigurationWritesComplete :
    ((answering (inState .legacy .idle) [[]]).mode = .legacy
      ∧ (answering (inState .legacy .idle) [[]]).answerTo
          (.execWrite ⟨0x72, .op8, .l1, .str, true, .l1, .str, 0, .write, .l1, .str, 1, 0⟩ [2]) = .ok [])
    ∧ ((answering (inState .octal .idle) [[]]).mode = .octal
      ∧ (answering (inState .octal .idle) [[]]).answerTo
          (.execWrite ⟨0x728D, .op16, .l8, .dtr, true, .l8, .dtr, 0x300, .write, .l8, .dtr, 2, 0⟩ [7, 0]) = .ok []) := by
  decide

/-- A read of two bytes; a page program of one byte at the end of a page, and of a whole page. -/
theorem witness_ArrayTransfersComplete :
    (inState .octal .idle).mode = .octal
    ∧ (answering (inState .octal .idle) [[7, 8]]).answerTo
        (.execRead ⟨0xEE11, .op16, .l8, .dtr, true, .l8, .dtr, 0x1000, .read, .l8, .dtr, 2, 20⟩) = .ok [7, 8]
    ∧ (answering (inState .octal .idle) [[]]).answerTo
        (.execWrite ⟨0x12ED, .op16, .l8, .dtr, true, .l8, .dtr, 0xFF, .write, .l8, .dtr, 1, 0⟩ [7]) = .ok []
    ∧ 1 ≤ [(7 : Byte)].length ∧ [(7 : Byte)].length ≤ 256 - (0xFF : Word).toNat % 256
    ∧ (List.replicate 256 (0 : Byte)).length ≤ 256 - (0x100 : Word).toNat % 256 := by
  refine ⟨by decide, by decide, by decide, by decide, by decide, ?_⟩
  rw [List.length_replicate]
  decide

theorem witness_ConfigurationReadsComplete :
    cfgRow.rdcr = some ⟨0x15, 0x15EA, some 0, 4, 0⟩
    ∧ (configured (inState .legacy .idle) cfgRow).mode = .legacy
    ∧ (configured (answering (inState .legacy .idle) [[7]]) cfgRow).answerTo
        (.execRead ⟨0x15, .op8, .l1, .str, false, .l1, .str, 0, .read, .l1, .str, 1, 0⟩) = .ok [7]
    ∧ (configured (inState .octal .idle) cfgRow).mode = .octal
    ∧ (configured (answering (inState .octal .idle) [[7, 8]]) cfgRow).answerTo
        (.execRead ⟨0x15EA, .op16, .l8, .dtr, true, .l8, .dtr, 0, .read, .l8, .dtr, 2, 4⟩) = .ok [7, 8] := by decide

/-- The other mode's table, and a row the configuration does not have. -/
theorem witness_WrongTableNotBuilt :
    (Instr.wrenO).transaction Cfg.ref = some (.wren, .octal, 0, 0, []) ∧ (Instr.wrenO).wellFormed Cfg.ref = true
    ∧ Mode.octal ≠ (inState .legacy .idle).mode
    ∧ (Instr.rdcrO).transaction Cfg.ref = some (.rdcr, .octal, 0, 2, []) ∧ catalog Cfg.ref .octal .rdcr = none :=
  ⟨rfl, by decide, by decide, rfl, rfl⟩

theorem witness_PageGuard :
    pageOk 0xFF [(1 : Byte), 2].length = false ∧ pageOk 0 ([] : List Byte).length = false
    ∧ ({ inState .octal .pgSplit with nLeft := 1 } : State).rst = false
    ∧ ({ inState .octal .pgSplit with nLeft := 1 } : State).seq = .pgSplit
    ∧ ({ inState .octal .pgSplit with nLeft := 1 } : State).nLeft ≠ 0 := by decide

theorem witness_StepRunsDecodedInstruction :
    ((port .legacy 1 0 0 []).rst = false ∧ (port .legacy 1 0 0 []).seq = .idle
      ∧ (port .legacy 1 0 0 []).host = [⟨1, 0, 0, []⟩] ∧ decode Cfg.ref (.host 1 0 0 []) = .ok .init)
    ∧ ((inState .octal .wc2Wren).rst = false ∧ (inState .octal .wc2Wren).prepare.issue = some (.command .wrenO))
    ∧ decode Cfg.ref (.wire ⟨0x000706F9, 0, 0⟩ []) = .ok .wrenO :=
  ⟨⟨rfl, rfl, rfl, rfl⟩, ⟨rfl, rfl⟩, rfl⟩

theorem witness_WireCommandIsItsWords :
    (Instr.wrcr2O 0x300 7).transaction Cfg.ref = some (.wrcr2, .octal, 0x300, 2, [7, 0])
    ∧ (Instr.wrcr2O 0x300 7).wellFormed Cfg.ref = true ∧ (inState .octal .idle).mode = .octal := by decide

theorem witness_TransportFaultAborts :
    ∃ t c e, step (failing (inState .octal .wc2Wren)) = .next t
      ∧ t.trace = (failing (inState .octal .wc2Wren)).trace ++ [(c, .err e)] := ⟨_, _, _, rfl, rfl⟩

/-- A transport error, a bound reached, a fatal mismatch. -/
theorem witness_FaultCauses :
    (∃ t, step (failing (inState .octal .wc2Wren)) = .next t ∧ t.fault = true)
    ∧ (∃ t, step (answering (configured (inState .octal .erPoll) { Cfg.ref with pollLimit := 1 }) [[1, 1]]) = .next t
        ∧ t.fault = true)
    ∧ (∃ t, step (answering (configured { inState .octal .initVerify with vNew := 2 }
          { Cfg.ref with initMismatchFatal := true }) [[0xFF, 0xFF]]) = .next t ∧ t.fault = true) :=
  ⟨⟨_, rfl, by decide⟩, ⟨_, rfl, by decide⟩, ⟨_, rfl, by decide⟩⟩

/-- An idle engine with FAULT is consistent. -/
theorem consistent_faulted : Consistent { port .octal 2 0 0 [] with fault := true, faultCause := 2, faultOp := 9 } :=
  ⟨by decide, by decide, by decide, by decide, by decide, by decide, fun h => absurd h (by decide), by decide,
    by decide, by decide⟩

theorem witness_FaultStopsEngine :
    let s : State := { port .octal 2 0 0 [] with fault := true, faultCause := 2, faultOp := 9 }
    Consistent s ∧ s.fault = true ∧ s.rst = false ∧ s.seq = .idle ∧ s.host = [⟨2, 0, 0, []⟩]
    ∧ Request.expressible ⟨2, 0, 0, []⟩ = true ∧ ∃ t, run 2 s = .next t :=
  ⟨consistent_faulted, by decide, by decide, by decide, by decide, by decide, ⟨_, rfl⟩⟩

/-- A poll that returns in each polling state, one that stays, one that reaches its bound, and an entry. -/
theorem witness_PollRule :
    (∃ t, step (answering (inState .legacy .initRst) [[]]) = .next t ∧ t.seq ∈ [Seq.initPoll, .wc2Poll, .pgPoll, .erPoll])
    ∧ (inState .octal .pgPoll).rst = false ∧ (inState .octal .pgPoll).seq ∈ [Seq.initPoll, .wc2Poll, .pgPoll, .erPoll]
    ∧ (answering (inState .octal .pgPoll) [[0xFE, 0]]).answerTo (.execRead (transactionOf Cfg.ref .rdsr .octal 0 2))
        = .ok [0xFE, 0]
    ∧ (0xFE : Byte).getLsbD Cfg.ref.wipBit.val = false ∧ (0x01 : Byte).getLsbD Cfg.ref.wipBit.val = true
    ∧ (answering (inState .legacy .initPoll) [[1]]).answerTo (.execRead (transactionOf Cfg.ref .rdsr .legacy 0 1))
        = .ok [1]
    ∧ (1 ≠ 0 ∧ 1 ≤ (inState .octal .pgPoll).pollN + 1) ∧ (inState .octal .pgPoll).pollN + 1 < 2 :=
  ⟨⟨_, rfl, by decide⟩, by decide, by decide, by decide, by decide, by decide, by decide, by decide, by decide⟩

theorem witness_PollHangs :
    let s := answering (inState .octal .erPoll) [[1, 1], [1, 0], [0xFF, 2]]
    s.rst = false ∧ s.seq ∈ [Seq.initPoll, .wc2Poll, .pgPoll, .erPoll] ∧ s.cfg.pollLimit = 0 ∧ s.env.kind = .any
    ∧ s.env.script = [[1, 1], [1, 0], [0xFF, 2]].map Answer.ok ++ []
    ∧ ∀ bs ∈ [[(1 : Byte), 1], [1, 0], [0xFF, 2]], ∃ b pad, bs = b :: pad ∧ b.getLsbD s.cfg.wipBit.val = true := by
  refine ⟨by decide, by decide, by decide, by decide, by decide, ?_⟩
  intro bs h
  simp only [List.mem_cons, List.not_mem_nil, or_false] at h
  rcases h with rfl | rfl | rfl <;> exact ⟨_, _, rfl, by decide⟩

theorem witness_StepsWithoutCalls :
    (inState .legacy .initFlip).rst = false ∧ (inState .legacy .initFlip).seq = .initFlip
    ∧ (inState .octal .resp).seq = .resp
    ∧ ({ inState .octal .pgAdv with chunk := 256, nLeft := 256 } : State).chunk.toNat ≤ 256
    ∧ (inState .octal .pgAdv).seq = .pgAdv
    ∧ ((inState .octal .pgSplit).seq = .pgSplit ∧ (inState .octal .pgSplit).nLeft = 0)
    ∧ ((inState .octal .idle).seq = .idle ∧ (inState .octal .idle).host = []) := by decide

/-- The byte agrees; it differs; it differs and that is fatal. -/
theorem witness_InitVerify :
    let s := answering { inState .octal .initVerify with vNew := 2 } [[2, 0]]
    let u := answering { inState .octal .initVerify with vNew := 2 } [[0xFF, 0xFF]]
    let c : Call := .execRead ⟨0x718E, .op16, .l8, .dtr, true, .l8, .dtr, 0, .read, .l8, .dtr, 2, 4⟩
    s.rst = false ∧ s.seq = .initVerify ∧ s.mode = .octal ∧ s.answerTo c = .ok [2, 0] ∧ (2 : Byte) = s.vNew
    ∧ u.answerTo c = .ok [0xFF, 0xFF] ∧ (0xFF : Byte) ≠ u.vNew ∧ u.cfg.initMismatchFatal = false
    ∧ (configured u { Cfg.ref with initMismatchFatal := true }).answerTo c = .ok [0xFF, 0xFF]
    ∧ (configured u { Cfg.ref with initMismatchFatal := true }).cfg.initMismatchFatal = true := by decide

theorem witness_RegisterWriters :
    (∃ t, (inState .legacy .initFlip).rst = false ∧ step (inState .legacy .initFlip) = .next t)
    ∧ (∃ t, step { port .octal 2 0 0 [] with fault := true, faultCause := 2, faultOp := 9 } = .next t)
    ∧ Consistent { port .octal 2 0 0 [] with fault := true, faultCause := 2, faultOp := 9 } :=
  ⟨⟨_, by decide, rfl⟩, ⟨_, rfl⟩, consistent_faulted⟩

/-- The engine in WC2_WREN of a WRITE_CFG2 is consistent. -/
theorem consistent_wc2Wren : Consistent (answering { inState .octal .wc2Wren with hop := 6 } [[]]) :=
  ⟨by decide, by decide, by decide, by decide, by decide, by decide, fun h => absurd h (by decide), by decide,
    by decide, by decide⟩

theorem witness_OneCallPerStep :
    let s := answering { inState .octal .wc2Wren with hop := 6 } [[]]
    s.rst = false ∧ Consistent s ∧ s.seq ∉ [Seq.idle, .resp, .initFlip, .pgSplit, .pgAdv]
    ∧ (∃ t c a td data, step s = .next t ∧ t.trace = s.trace ++ [(c, a)] ∧ c.transaction = some (td, data))
    ∧ (inState .octal .pgAdv).seq ∈ [Seq.idle, .resp, .initFlip, .pgSplit, .pgAdv]
    ∧ ∃ t, step (inState .octal .pgAdv) = .next t :=
  ⟨by decide, consistent_wc2Wren, by decide, ⟨_, _, _, _, _, rfl, rfl, rfl⟩, by decide, ⟨_, rfl⟩⟩

theorem witness_NoBusCallWhileWindow :
    let s : State := { inState .octal .mmDis with mmapEn := true, hop := 0xD }
    Consistent s ∧ s.mmapEn = true ∧ ∃ t, step s = .next t :=
  ⟨⟨by decide, by decide, by decide, by decide, by decide, by decide, fun h => absurd h (by decide), by decide,
    by decide, by decide⟩, by decide, ⟨_, rfl⟩⟩

theorem witness_PadByteIgnored :
    (inState .octal .rsrRd).rst = false ∧ (inState .octal .rsrRd).mode = .octal
    ∧ (inState .octal .rsrRd).env.kind = .any
    ∧ (inState .octal .rsrRd).seq ∈
        [Seq.initPoll, .wc2Poll, .pgPoll, .erPoll, .rsrRd, .rcrRd, .rc2Rd, .initRdcr2, .initVerify]
    ∧ (configured (inState .octal .rcrRd) cfgRow).cfg.rdcr ≠ none := by decide

theorem witness_RegisterReadsWhole :
    (∀ w ∈ [(0x2 : Word), 0x3, 0x5],
      (port .octal w 0x300 0 []).ready = true ∧ (port .octal w 0x300 0 []).mode = .octal
      ∧ (port .octal w 0x300 0 []).mmapEn = false ∧ (port .octal w 0x300 0 []).env.kind = .any
      ∧ w.extractLsb' 4 4 = 0 ∧ w.extractLsb' 16 16 = 0)
    ∧ (0x3 : Word).extractLsb' 0 4 = 0x3 ∧ (0x5 : Word).extractLsb' 0 4 = 0x5 ∧ (0x2 : Word).extractLsb' 0 4 = 0x2
    ∧ (answering (port .octal 0x3 0 0 []) [[7, 8]]).env.script = [.ok [7, 8]]
    ∧ (answering (port .octal 0x2 0 0 []) [[7, 8, 9]]).env.script = [.ok [7, 8, 9]] := by
  refine ⟨?_, rfl, rfl, rfl, rfl, rfl⟩
  intro w h
  simp only [List.mem_cons, List.not_mem_nil, or_false] at h
  rcases h with rfl | rfl | rfl <;> exact ⟨rfl, rfl, rfl, rfl, rfl, rfl⟩

/-- READ_CFG with the row in the configuration. -/
theorem witness_RegisterReadsWhole_cfg :
    let s := configured (answering (port .octal 0x4 0 0 []) [[7, 8]]) cfgRow
    s.ready = true ∧ s.mode = .octal ∧ s.mmapEn = false ∧ s.env.kind = .any ∧ s.host = [⟨0x4, 0, 0, []⟩]
    ∧ (0x4 : Word).extractLsb' 0 4 = 0x4 ∧ (0x4 : Word).extractLsb' 4 4 = 0 ∧ (0x4 : Word).extractLsb' 16 16 = 0
    ∧ s.cfg.rdcr ≠ none ∧ s.env.script = [.ok [7, 8]] :=
  ⟨rfl, rfl, rfl, rfl, rfl, rfl, rfl, rfl, by decide, rfl⟩

theorem witness_ReadWhole :
    let s := answering (port .octal 0x7 0x01FFFFFE 2 []) [[7, 8]]
    s.ready = true ∧ s.mode = .octal ∧ s.mmapEn = false ∧ s.host = [⟨0x7, 0x01FFFFFE, 2, []⟩]
    ∧ (0x7 : Word).extractLsb' 0 4 = 0x7 ∧ (0x7 : Word).extractLsb' 4 4 = 0 ∧ (0x7 : Word).extractLsb' 16 16 = 0
    ∧ (0x01FFFFFE : Word).toNat + (2 : Word).toNat ≤ 0x02000000 ∧ (2 : Word) ≠ 0
    ∧ [(7 : Byte), 8].length = (2 : Word).toNat ∧ s.env.kind = .any ∧ s.env.script = [.ok [7, 8]]
    ∧ (0x02000000 : Word).toNat + (0 : Word).toNat ≤ 0x02000000 :=
  ⟨rfl, rfl, rfl, rfl, rfl, rfl, rfl, by decide, by decide, rfl, rfl, rfl, by decide⟩

/-- A poll of two reads in Octal mode, and one of one read in Legacy mode. -/
def pollO : Poll := ⟨[[1, 1]], [0, 0]⟩
def pollL : Poll := ⟨[], [0]⟩

theorem pollO_returns : PollReturns Cfg.ref .octal pollO := ⟨by decide, by decide, by decide, by decide⟩
theorem pollL_returns : PollReturns Cfg.ref .legacy pollL := ⟨by decide, by decide, by decide, by decide⟩

theorem witness_WriteCfg2Whole :
    let s := answering (port .octal 0x0706 0x300 0 []) [[], [], [1, 1], [0, 0]]
    s.ready = true ∧ s.mode = .octal ∧ s.mmapEn = false ∧ s.env.kind = .any ∧ s.host = [⟨0x0706, 0x300, 0, []⟩]
    ∧ (0x0706 : Word).extractLsb' 0 4 = 0x6 ∧ (0x0706 : Word).extractLsb' 4 4 = 0
    ∧ (0x0706 : Word).extractLsb' 16 16 = 0
    ∧ PollReturns s.cfg .octal pollO ∧ s.env.script = [.ok [], .ok []] ++ pollO.answers ++ [] :=
  ⟨by decide, by decide, by decide, by decide, by decide, by decide, by decide, by decide, pollO_returns, by decide⟩

theorem witness_EraseWhole :
    (∀ p ∈ [((0x9 : BitVec 4), (0x9 : Word), (0x01FFFFFF : Word)), (0xA, 0xA, 0), (0xB, 0xB, 0)],
      let s := answering (port .octal p.2.1 p.2.2 0 []) [[], [], [1, 1], [0, 0]]
      s.ready = true ∧ s.mode = .octal ∧ s.mmapEn = false ∧ s.env.kind = .any ∧ s.host = [⟨p.2.1, p.2.2, 0, []⟩]
      ∧ p.2.1.extractLsb' 0 4 = p.1 ∧ p.2.1.extractLsb' 4 4 = 0 ∧ p.2.1.extractLsb' 16 16 = 0
      ∧ p.2.2.toNat < 0x02000000 ∧ s.env.script = [.ok [], .ok []] ++ pollO.answers ++ [])
    ∧ PollReturns Cfg.ref .octal pollO := by
  refine ⟨?_, pollO_returns⟩
  intro p h
  simp only [List.mem_cons, List.not_mem_nil, or_false] at h
  rcases h with rfl | rfl | rfl <;> exact ⟨rfl, rfl, rfl, rfl, rfl, rfl, rfl, rfl, by decide, rfl⟩

/-- The read-back agrees; it differs and that is not fatal. -/
theorem witness_InitWhole :
    (∀ rb ∈ [(0x02 : Byte), 0xFF],
      let s := answering (port .legacy 0x1 0 0 []) [[], [], [0], [0], [], [], [rb, rb]]
      s.ready = true ∧ s.mode = .legacy ∧ s.mmapEn = false ∧ s.env.kind = .any ∧ s.host = [⟨0x1, 0, 0, []⟩]
      ∧ (0x1 : Word).extractLsb' 0 4 = 0x1 ∧ (0x1 : Word).extractLsb' 4 4 = 0 ∧ (0x1 : Word).extractLsb' 16 16 = 0
      ∧ s.env.script = [.ok [], .ok []] ++ pollL.answers ++ [.ok [0], .ok [], .ok [], .ok [rb, rb]] ++ []
      ∧ (rb = (0 : Byte) ||| 0x02 ∨ s.cfg.initMismatchFatal = false))
    ∧ PollReturns Cfg.ref .legacy pollL := ⟨by decide, pollL_returns⟩

/-- Two chunks, at 0xFE and at 0x100; and a zero length at the end of the array. -/
theorem witness_ProgramWhole :
    (let s := answering (port .octal 0x8 0xFE 3 [1, 2, 3]) [[], [], [1, 1], [0, 0], [], [], [1, 1], [0, 0]]
     s.ready = true ∧ s.mode = .octal ∧ s.mmapEn = false ∧ s.env.kind = .any ∧ s.host = [⟨0x8, 0xFE, 3, [1, 2, 3]⟩]
     ∧ (0x8 : Word).extractLsb' 0 4 = 0x8 ∧ (0x8 : Word).extractLsb' 4 4 = 0 ∧ (0x8 : Word).extractLsb' 16 16 = 0
     ∧ [(1 : Byte), 2, 3].length = (3 : Word).toNat ∧ (0xFE : Word).toNat + (3 : Word).toNat ≤ 0x02000000
     ∧ [pollO, pollO].length = (chunks 0xFE 3).length
     ∧ s.env.script = ([pollO, pollO].map fun p => [.ok [], .ok []] ++ p.answers).flatten ++ [])
    ∧ ((0x02000000 : Word).toNat + (0 : Word).toNat ≤ 0x02000000 ∧ ([] : List Poll).length = (chunks 0x02000000 0).length)
    ∧ ∀ p ∈ [pollO, pollO], PollReturns Cfg.ref .octal p := by
  refine ⟨by decide, by decide, ?_⟩
  intro p hp
  simp only [List.mem_cons, List.not_mem_nil, or_false, or_self] at hp
  subst hp
  exact pollO_returns

/-- A range of four pages: a first chunk, whole pages between, and a last one. -/
theorem witness_PageSplitCorrect :
    chunks 0x3FF 514 = [(0x3FF, 1), (0x400, 256), (0x500, 256), (0x600, 1)] ∧ chunks 5 0 = [] := by decide

/-- A PROGRAM in the middle of its chunk is consistent. -/
theorem consistent_pgWren :
    Consistent (answering
      { inState .octal .pgWren with hop := 8, inFlight := ⟨0xFF, 2, [1, 2]⟩, aCur := 0xFF, nLeft := 2, chunk := 1 }
      [[]]) :=
  ⟨by decide, by decide, by decide, by decide, by decide, by decide,
    fun _ => ⟨by decide, by decide, by decide, by decide, by decide⟩, by decide, by decide, by decide⟩

theorem witness_ConsistentKept :
    ∃ s t, Consistent s ∧ s.seq = .pgWren ∧ step s = .next t ∧ t.seq = .pgPp :=
  ⟨_, _, consistent_pgWren, rfl, rfl, rfl⟩

/-- A state that issues a page program, directly after its Write Enable. -/
def programming : State :=
  answering
    { inState .octal .pgPp with
      hop := 8
      inFlight := ⟨0xFF, 2, [1, 2]⟩
      aCur := 0xFF
      nLeft := 2
      chunk := 1
      trace := [(.execCmd (transactionOf Cfg.ref .wren .octal 0 0), .ok [])] } [[]]

theorem witness_TraceShapedKept : TraceShaped programming ∧ ∃ t, step programming = .next t ∧ t.trace.length = 2 :=
  ⟨by unfold TraceShaped; decide, ⟨_, rfl, rfl⟩⟩

theorem witness_WrenDisciplineKept :
    WrenDiscipline programming ∧ ∃ t, step programming = .next t ∧ t.trace.length = 2 :=
  ⟨⟨by decide, by decide⟩, ⟨_, rfl, rfl⟩⟩

/-- A program step under the reference environment; and two memories that hold an entry. -/
theorem witness_MemoryCanonical :
    (referenced programming true).env.chip.wf = true ∧ (∃ t, step (referenced programming true) = .next t)
    ∧ Memory.wf 0xFF 16 [(3, 0x00), (15, 0x7F)] = true := ⟨by decide, ⟨_, rfl⟩, by decide⟩

theorem witness_NoStop :
    Consistent { port .octal 2 0 0 [] with fault := true, faultCause := 2, faultOp := 9 }
    ∧ State.hostExpressible { port .octal 2 0 0 [] with fault := true, faultCause := 2, faultOp := 9 } = true :=
  ⟨consistent_faulted, by decide⟩

theorem witness_ResetLeaves : ({ inState .octal .pgPoll with rst := true } : State).rst = true := by decide

/-- Each link, with WEL and without, a busy count given; and the two states of the memory-mapped calls. -/
theorem witness_ReferenceRegisters :
    (∀ s ∈ [referenced (inState .legacy .idle) true, referenced (inState .octal .idle) false],
      s.env.kind = .reference ∧ s.env.chip.link = s.mode ∧ s.env.chip.wf = true ∧ s.env.busy = 2 :: [])
    ∧ (∀ s ∈ [referenced (inState .octal .mmEn) true, referenced (inState .octal .mmDis) true],
      s.env.kind = .reference ∧ s.rst = false ∧ (s.seq = .mmEn ∨ s.seq = .mmDis)) := by decide

/-- A read to the end of the array; a page program at the end of the array; with WEL and without. -/
theorem witness_ReferenceArray :
    (∀ s ∈ [referenced (inState .octal .idle) true, referenced (inState .octal .idle) false],
      s.env.kind = .reference ∧ s.env.chip.link = .octal ∧ s.mode = .octal ∧ s.env.chip.wf = true)
    ∧ (0x01FFFFFF : Word).toNat + (1 : Word).toNat ≤ 0x02000000
    ∧ (0x01FFFFFF : Word).toNat + [(0 : Byte)].length ≤ 0x02000000 ∧ pageOk 0x01FFFFFF [(0 : Byte)].length = true := by
  decide

theorem witness_ReferenceErases :
    (∀ s ∈ [referenced (inState .octal .idle) true, referenced (inState .octal .idle) false],
      s.env.kind = .reference ∧ s.env.chip.link = .octal ∧ s.mode = .octal)
    ∧ (0x01FFFFFF : Word).toNat < 0x02000000 := by decide

theorem witness_ReferenceWriteCompletes :
    let s := referenced (port .octal 0x0706 0x300 0 []) false
    s.ready = true ∧ s.mode = .octal ∧ s.mmapEn = false ∧ s.cfg.pollLimit = 0 ∧ s.env.kind = .reference
    ∧ s.env.chip.link = .octal ∧ s.env.chip.wf = true ∧ s.host = [⟨0x0706, 0x300, 0, []⟩]
    ∧ (0x0706 : Word).extractLsb' 0 4 = 0x6 ∧ (0x0706 : Word).extractLsb' 4 4 = 0
    ∧ (0x0706 : Word).extractLsb' 16 16 = 0 := by decide

end Sys2Proof.Tests
end

/-! The Write Enable pairing (20_memory.md R69): the call a step makes, if any, needs a Write Enable only in a state
that stands after one, and a step enters such a state only by making one. -/

namespace Sys2Proof.Machine

/-! ## Traces -/

/-- One call more: the pairing looks at the call before it, or at `prev` where there is none. -/
theorem wrenPairedFrom_snoc (prev : Bool) (h : History) (c : Call) (a : Answer) :
    wrenPairedFrom prev (h ++ [(c, a)]) =
      (wrenPairedFrom prev h && (!c.needsWren || (h.getLast?.map fun p => p.1.isWren).getD prev)) := by
  induction h generalizing prev with
  | nil => simp [wrenPairedFrom]
  | cons p rest ih =>
    have hlast : (((p :: rest).getLast?).map fun q => q.1.isWren).getD prev =
        ((rest.getLast?).map fun q => q.1.isWren).getD p.1.isWren := by
      cases rest <;> simp [List.getLast?_cons]
    rw [hlast, List.cons_append]
    simp only [wrenPairedFrom, ih, Bool.and_assoc]

theorem endsInWren_eq (h : History) : endsInWren h = (h.getLast?.map fun p => p.1.isWren).getD false := by
  unfold endsInWren
  cases h.getLast? <;> rfl

@[simp] theorem wrenPaired_snoc (h : History) (c : Call) (a : Answer) :
    wrenPaired (h ++ [(c, a)]) = (wrenPaired h && (!c.needsWren || endsInWren h)) := by
  rw [endsInWren_eq]
  exact wrenPairedFrom_snoc false h c a

@[simp] theorem endsInWren_snoc (h : History) (c : Call) (a : Answer) :
    endsInWren (h ++ [(c, a)]) = c.isWren := by
  simp [endsInWren]

/-! ## The calls of the wire commands -/

/-- The call that carries a built WREN is a Write Enable (40_command_catalog.md R128). -/
theorem isWren_callOf {cfg : Cfg} {m : Mode} {a n : Word} {td : TD} {data : List Byte}
    (hb : build cfg .wren m a n = some td) : (callOf td data).isWren = true := by
  cases m <;> cases hb <;> rfl

/-- Of the calls that carry a built command, only those of the write-class commands need a Write Enable. A read is
never one, so the opcode of the parameter row RDCR does not matter. -/
theorem needsWren_callOf {cfg : Cfg} {c : Cmd} {m : Mode} {a n : Word} {td : TD} {data : List Byte}
    (hb : build cfg c m a n = some td) (hc : (callOf td data).needsWren = true) :
    c ∈ [Cmd.wrcr2, .pp4b, .se, .be, .ce] := by
  have hdd := build_dd hb
  cases c
  case wrcr2 | pp4b | se | be | ce => decide
  case wren | rsten | rst => cases m <;> cases hb <;> exact absurd hc Bool.false_ne_true
  case rdsr | rdcr2 | rdid | rdcr | dtrd8 => simp [callOf, hdd, Call.needsWren] at hc

/-! ## The sequencer states -/

/-- The states that issue a Write Enable (20_memory.md R69). -/
def Seq.issuesWren (q : Seq) : Bool := [Seq.initWren, .wc2Wren, .pgWren, .erWren].contains q

/-- The states of `Seq.issuesWren` issue WREN, and only those of `Seq.afterWren` a write-class command. -/
theorem issue_wren {s : State} {i : Instr} {c : Cmd} {m : Mode} {a : Word} {n : Nat} {data : List Byte}
    (h : s.issue = some (.command i)) (hi : i.transaction s.cfg = some (c, m, a, n, data)) :
    (s.seq.issuesWren = true → c = .wren) ∧
      (c ∈ [Cmd.wrcr2, .pp4b, .se, .be, .ce] → s.seq.afterWren = true) := by
  unfold State.issue at h
  split at h <;> try cases h
  all_goals
    next hq =>
      rw [hq]
      cases hm : s.mode <;> simp only [byMode, octalOnly, State.eraseCommand, hm] at h
      all_goals
        repeat' split at h
      all_goals
        cases h
      all_goals
        cases hi
        decide

/-- The operation in flight goes on to a write-class command only from a Write Enable. -/
theorem advance_afterWren {s : State} (h : s.advance.seq.afterWren = true) : s.seq.issuesWren = true := by
  revert h
  unfold State.advance
  split
  case h_3 hq | h_14 hq | h_18 hq | h_21 hq =>
    rcases afterPollRead_cases s _ with ⟨_, e⟩ | ⟨_, _, e⟩ | ⟨_, _, e⟩ <;> rw [e] <;> simp [hq, Seq.afterWren]
  case h_7 =>
    unfold State.initConclude
    split <;> simp [Seq.afterWren]
  all_goals
    next hq => simp [hq, Seq.afterWren, Seq.issuesWren]

theorem advance_trace (s : State) : s.advance.trace = s.trace := by
  rw [advance_frame]

/-- Acceptance never starts at a write-class command, where no operation does. -/
theorem accept_afterWren {s : State} {h : BitVec 4} {own : Option Violation} {req : InFlight} {load : State → State}
    (hs : s.seq = .idle) (hl : ∀ u : State, (load u).seq.afterWren = false) :
    (s.accept h own req load).seq.afterWren = false := by
  rcases accept_cases s h own req load with ⟨hb, _⟩ | ⟨v, _, e⟩ | ⟨_, _, _, e⟩
  · exact absurd hs hb
  · rw [e]; rfl
  · rw [e]; exact hl _

/-- No host operation starts at a write-class command. -/
theorem exec_host_afterWren {s t : State} {i : Instr} (hs : s.seq = .idle) (hi : i.transaction s.cfg = none)
    (h : exec i s = .next t) : t.seq.afterWren = false := by
  cases i <;> simp only [Instr.transaction, reduceCtorEq] at hi <;> cases h
  case reservedHop0 | reservedHopE | reservedHopF =>
    rcases refuseEncoding_cases s with ⟨hb, _⟩ | ⟨v, _, e⟩
    · exact absurd hs hb
    · rw [e]
      rfl
  case read addr len =>
    refine accept_afterWren hs fun u => ?_
    split <;> rfl
  all_goals exact accept_afterWren hs fun _ => rfl

/-- A host operation makes no call. -/
theorem exec_host_trace {s t : State} {i : Instr} (hs : s.seq = .idle) (hi : i.transaction s.cfg = none)
    (h : exec i s = .next t) : t.trace = s.trace := by
  rcases exec_host hs hi h with ⟨v, e⟩ | ⟨_, _, e⟩ <;> rw [e]
  rfl

/-! ## One step -/

/-- What a step means to the pairing: it makes no call and does not end before a write-class command; or it makes one
call, which needs a Write Enable only after one, and is one where the step ends before a write-class command. -/
inductive WrenStep (s t : State) : Prop where
  | silent (htrace : t.trace = s.trace) (hseq : t.seq.afterWren = false)
  | calls (call : Call) (answer : Answer) (htrace : t.trace = s.trace ++ [(call, answer)])
      (hneeds : call.needsWren = true → s.seq.afterWren = true)
      (hmakes : t.seq.afterWren = true → call.isWren = true)

theorem WrenStep.keeps {s t : State} (h : WrenStep s t) (hs : WrenDiscipline s) : WrenDiscipline t := by
  obtain ⟨hpaired, hready⟩ := hs
  cases h with
  | silent htrace hseq => exact ⟨htrace ▸ hpaired, fun ht => absurd ht (by simp [hseq])⟩
  | calls call answer htrace hneeds hmakes =>
    refine ⟨?_, fun ht => by rw [htrace, endsInWren_snoc]; exact hmakes ht⟩
    rw [htrace, wrenPaired_snoc, hpaired, Bool.true_and]
    cases hn : call.needsWren
    · rfl
    · exact hready (hneeds hn)

/-- MM_EN makes the memory-mapped call and responds, whatever the answer. -/
theorem windowEnable_wrenStep (s : State) : WrenStep s s.windowEnable := by
  rcases attempt_cases s (.mmapEnable (templateRead s.cfg) (templateWrite s.cfg))
      (fun _ t => ({ t with mmapEn := true } : State).respondOk 0 []) with ⟨_, _, e⟩ | ⟨_, _, e⟩ <;>
    rw [State.windowEnable, e] <;> exact .calls _ _ rfl (by simp [Call.needsWren]) (by simp [Seq.afterWren])

/-- PG_SPLIT makes no call and goes to the chunk's Write Enable or to RESP. -/
theorem programSplit_wrenStep (s : State) : WrenStep s s.programSplit := by
  unfold State.programSplit
  split
  · exact .silent rfl rfl
  · split
    · exact .silent rfl rfl
    · exact .silent rfl rfl

/-- The reset makes no call and ends in IDLE; every other step is one of the forms of `step_next`. -/
theorem step_wrenStep {s t : State} (h : step s = .next t) : WrenStep s t := by
  cases hr : s.rst
  case true =>
    rw [step_reset hr] at h
    cases h
    exact .silent rfl rfl
  case false =>
    rcases step_next hr h with ⟨i, c, a, n, data, hq, hi, hw⟩ | ⟨_, e⟩ | ⟨_, e⟩ | ⟨_, e⟩ | ⟨_, e⟩ | ⟨_, e⟩ | ⟨_, e⟩ |
      ⟨_, e⟩ | ⟨hs, e⟩ | ⟨r, rest, i, hs, _, _, hi, hx⟩ | ⟨r, rest, v, _, _, e⟩
    · obtain ⟨hwren, hwrite⟩ := issue_wren hq (by rw [prepare_cfg]; exact hi)
      rw [prepare_seq] at hwren hwrite
      rcases hw with ⟨v, _, e⟩ | ⟨td, e, hb, _, _, ht⟩ | ⟨td, bs, v, l, hb, _, _, _, ht⟩
      · exact .silent (by rw [e, refuse_trace, prepare_trace]) (by rw [e]; rfl)
      · exact .calls _ _ (by rw [ht, raise_trace, called_trace, prepare_trace])
          (fun hc => hwrite (needsWren_callOf hb hc)) (by rw [ht]; simp [Seq.afterWren])
      · refine .calls _ _ (by rw [ht, advance_trace, called_trace, prepare_trace])
          (fun hc => hwrite (needsWren_callOf hb hc)) fun ha => ?_
        rw [ht] at ha
        have hissued : s.seq.issuesWren = true := by simpa using advance_afterWren ha
        cases hwren hissued
        exact isWren_callOf hb
    · exact .silent (by rw [e, refuse_trace, prepare_trace]) (by rw [e]; rfl)
    · exact .silent (by rw [e]; rfl) (by rw [e]; rfl)
    · exact .silent (by rw [e]; rfl) (by rw [e]; rfl)
    · exact e ▸ programSplit_wrenStep s
    · exact .silent (by rw [e]; rfl) (by rw [e]; rfl)
    · exact e ▸ windowEnable_wrenStep s
    · exact .calls .mmapDisable _ (by rw [e]; rfl) (by simp [Call.needsWren])
        (by rw [e]; simp [State.windowDisable, Seq.afterWren])
    · exact .silent (by rw [e]) (by rw [e, hs]; rfl)
    · exact .silent (exec_host_trace (s := { s with host := rest }) hs hi hx)
        (exec_host_afterWren (s := { s with host := rest }) hs hi hx)
    · exact .silent (by rw [e]; rfl) (by rw [e]; rfl)

/-- Settles O52: `step_wrenStep` says how a step extends the trace, and each of its two cases keeps the pairing. -/
theorem wrenDisciplineKept : Obligations.WrenDisciplineKept := by
  unfold Obligations.WrenDisciplineKept
  intro s t hs h
  exact (step_wrenStep h).keeps hs

end Sys2Proof.Machine

/-! The packed form of a transaction descriptor (30_encoding.md R103): which field each bit of `T0` belongs to, and
that the fields read back give the descriptor. -/

namespace Sys2Proof.Machine

/-! ## The codes of the fields -/

@[simp] theorem OpSize.getElem_bit (z : OpSize) : (OpSize.bit z)[0] = decide (z = .op16) := by cases z <;> rfl
@[simp] theorem Lines.getElem_bit (l : Lines) : (Lines.bit l)[0] = decide (l = .l8) := by cases l <;> rfl
@[simp] theorem Rate.getElem_bit (r : Rate) : (Rate.bit r)[0] = decide (r = .dtr) := by cases r <;> rfl

@[simp] theorem OpSize.ofBit_decide (z : OpSize) : OpSize.ofBit (decide (z = .op16)) = z := by cases z <;> rfl
@[simp] theorem Lines.ofBit_decide (l : Lines) : Lines.ofBit (decide (l = .l8)) = l := by cases l <;> rfl
@[simp] theorem Rate.ofBit_decide (r : Rate) : Rate.ofBit (decide (r = .dtr)) = r := by cases r <;> rfl
@[simp] theorem Dir.ofBits_bits (d : Dir) : Dir.ofBits (Dir.bits d) = some d := by cases d <;> rfl

/-! ## The fields of `T0` -/

/-- The layout of `T0` (R103), from bit 0 up: bit `i` is a bit of the field it falls in. -/
theorem TD.getElem_t0 (td : TD) {i : Nat} (hi : i < 32) :
    td.t0[i] =
      if i < 16 then td.opcode.getLsbD i
      else if i < 17 then (OpSize.bit td.isz).getLsbD (i - 16)
      else if i < 18 then (Lines.bit td.iw).getLsbD (i - 17)
      else if i < 19 then (Rate.bit td.ir).getLsbD (i - 18)
      else if i < 20 then (BitVec.ofBool td.ap).getLsbD (i - 19)
      else if i < 21 then (Lines.bit td.aw).getLsbD (i - 20)
      else if i < 22 then (Rate.bit td.ar).getLsbD (i - 21)
      else if i < 24 then (Dir.bits td.dd).getLsbD (i - 22)
      else if i < 25 then (Lines.bit td.dw).getLsbD (i - 24)
      else if i < 26 then (Rate.bit td.dr).getLsbD (i - 25)
      else if i < 27 then false
      else td.dummy.getLsbD (i - 27) := by
  have below_one (a : Nat) : i - a < 1 ↔ i < a + 1 := by omega
  have below_two (a : Nat) : i - a < 2 ↔ i < a + 2 := by omega
  simp only [TD.t0, BitVec.getElem_setWidth, BitVec.getLsbD_append]
  simp only [Nat.sub_sub, Nat.reduceAdd, below_one, below_two, BitVec.ofNat_eq_ofNat, BitVec.getLsbD_zero]

@[simp] theorem TD.t0_opcode (td : TD) : td.t0.extractLsb' 0 16 = td.opcode := by
  ext i hi
  rw [BitVec.getElem_extractLsb', BitVec.getLsbD_eq_getElem (by omega), TD.getElem_t0]
  simp [hi]

@[simp] theorem TD.t0_dd (td : TD) : td.t0.extractLsb' 22 2 = Dir.bits td.dd := by
  ext i hi
  have not_below (k : Nat) (hk : k ≤ 22) : ¬ 22 + i < k := by omega
  have below : 22 + i < 24 := by omega
  rw [BitVec.getElem_extractLsb', BitVec.getLsbD_eq_getElem (by omega), TD.getElem_t0]
  simp [not_below, below, hi]

@[simp] theorem TD.t0_dummy (td : TD) : td.t0.extractLsb' 27 5 = td.dummy := by
  ext i hi
  have not_below (k : Nat) (hk : k ≤ 27) : ¬ 27 + i < k := by omega
  rw [BitVec.getElem_extractLsb', BitVec.getLsbD_eq_getElem (by omega), TD.getElem_t0]
  simp [not_below, hi]

/-- The descriptor is read back from its packed form. -/
@[simp] theorem TD.unpack_pack (td : TD) : td.pack.unpack = some td := by
  simp [Packed.unpack, TD.pack, TD.getElem_t0]

/-- Settles O5: opcode, direction and dummy cycles are cut out of `T0` as the fields they are, each other clause reads
one bit at its place in the layout, and `TD.unpack_pack` gives the inverse. -/
theorem packedDescriptorLayout : Obligations.PackedDescriptorLayout := by
  unfold Obligations.PackedDescriptorLayout
  intro td
  have dd_code : Dir.bits td.dd = (match td.dd with | .none => 0 | .read => 1 | .write => 2) := by cases td.dd <;> rfl
  refine ⟨td.t0_opcode, ?_, ?_, ?_, ?_, ?_, ?_, td.t0_dd.trans dd_code, ?_, ?_, ?_, td.t0_dummy, rfl, rfl,
    td.unpack_pack⟩
  all_goals simp [TD.pack, TD.getElem_t0]

end Sys2Proof.Machine

/-! Reserved encodings (30_encoding.md R108): what the decoder makes of a request with a reserved code or reserved bits,
and the refusal both lead to. -/

namespace Sys2Proof.Machine

/-! ## Decoding -/

/-- A reserved code is decoded as one, whatever the other bits are. -/
theorem decodeHost_reservedHop {w0 w1 w2 : Word} {wdata : List Byte}
    (h : hopField w0 = 0x0 ∨ hopField w0 = 0xE ∨ hopField w0 = 0xF) :
    ∃ i ∈ [Instr.reservedHop0, .reservedHopE, .reservedHopF], decodeHost w0 w1 w2 wdata = .ok i := by
  rcases h with h | h | h
  · exact ⟨.reservedHop0, by simp, by simp [decodeHost, h]⟩
  · exact ⟨.reservedHopE, by simp, by simp [decodeHost, h]⟩
  · exact ⟨.reservedHopF, by simp, by simp [decodeHost, h]⟩

/-- Reserved bits are rejected in a request whose code is not reserved. -/
theorem decodeHost_reservedBits {w0 w1 w2 : Word} {wdata : List Byte}
    (h : ¬ (hopField w0 = 0x0 ∨ hopField w0 = 0xE ∨ hopField w0 = 0xF)) (hb : reservedBitsSet w0 = true) :
    decodeHost w0 w1 w2 wdata = .error .reservedBits := by
  simp only [not_or] at h
  obtain ⟨h0, hE, hF⟩ := h
  rw [decodeHost, if_neg h0, if_neg hE, if_neg hF, if_pos hb]

theorem reservedBitsSet_iff (w0 : Word) :
    reservedBitsSet w0 = true ↔ w0.extractLsb' 4 4 ≠ 0 ∨ w0.extractLsb' 16 16 ≠ 0 := by
  simp [reservedBitsSet]

/-! ## The refusal -/

/-- An idle engine without FAULT refuses with PV_ENCODING. -/
theorem refuseEncoding_idle {s : State} (hs : s.seq = .idle) (hf : s.fault = false) :
    s.refuseEncoding = { s with rsp := ⟨1, 1, 0, 0, s.done, []⟩, seq := .resp } := by
  simp [State.refuseEncoding, State.busy, hs, hf, State.refuse, Violation.code]

theorem exec_reservedHop {i : Instr} (hi : i ∈ [Instr.reservedHop0, .reservedHopE, .reservedHopF]) (s : State) :
    exec i s = .next s.refuseEncoding := by
  simp only [List.mem_cons, List.not_mem_nil, or_false] at hi
  rcases hi with rfl | rfl | rfl <;> rfl

/-- An idle engine refuses a request whose reserved bits are set. -/
theorem step_reservedBits {s : State} {r : Request} {rest : List Request} (hr : s.rst = false) (hs : s.seq = .idle)
    (hh : s.host = r :: rest) (hd : decodeHost r.w0 r.w1 r.w2 r.wdata = .error .reservedBits) :
    step s = .next ({ s with host := rest } : State).refuseEncoding := by
  simp [step, State.plan, hr, prepare_of_ne, State.issue, hs, State.planIdle, hh, hd]

/-- Settles O13: the codes go through `exec` of a reserved row and the bits through the decoder's rejection, and both
end in `State.refuseEncoding`. -/
theorem reservedEncodingsRefused : Obligations.ReservedEncodingsRefused := by
  unfold Obligations.ReservedEncodingsRefused
  refine ⟨fun s i hi hs hf => ?_, fun s r rest hr hs hf hh hw => ?_⟩
  · rw [exec_reservedHop hi, refuseEncoding_idle hs hf]
  · have refused : step s = .next ({ s with host := rest } : State).refuseEncoding := by
      by_cases hcode : hopField r.w0 = 0x0 ∨ hopField r.w0 = 0xE ∨ hopField r.w0 = 0xF
      · obtain ⟨i, hi, hd⟩ := decodeHost_reservedHop (w1 := r.w1) (w2 := r.w2) (wdata := r.wdata) hcode
        rw [step_request hr hs hh hd, exec_reservedHop hi]
      · have hbits : reservedBitsSet r.w0 = true := by
          rw [reservedBitsSet_iff]
          unfold hopField at hcode
          tauto
        exact step_reservedBits hr hs hh (decodeHost_reservedBits hcode hbits)
    rw [refused, refuseEncoding_idle (s := { s with host := rest }) hs hf]

end Sys2Proof.Machine

/-! The catalog tables (40_command_catalog.md R122, R123): the cells that depend on a parameter of the configuration,
and the rate of a Legacy data phase. -/

namespace Sys2Proof.Machine

/-! ## The cells with a parameter -/

theorem catalog_rdcr_none {cfg : Cfg} (m : Mode) (h : cfg.rdcr = none) : catalog cfg m .rdcr = none := by
  cases m <;> simp [catalog, legacyRow, octalRow, h]

theorem catalog_legacy_rdcr {cfg : Cfg} {r : RdcrRow} (h : cfg.rdcr = some r) :
    catalog cfg .legacy .rdcr = some ⟨r.l.setWidth 16, .none, .read, false, r.lDummy⟩ := by
  simp [catalog, legacyRow, h]

theorem catalog_octal_rdcr {cfg : Cfg} {r : RdcrRow} (h : cfg.rdcr = some r) :
    catalog cfg .octal .rdcr = some ⟨r.o, fixedKind r.oAddr, .read, false, r.oDummy⟩ := by
  simp [catalog, octalRow, h]

/-! ## The Legacy table -/

theorem catalog_legacy_array_none (cfg : Cfg) {c : Cmd} (h : c ∈ [Cmd.dtrd8, .pp4b, .se, .be, .ce]) :
    catalog cfg .legacy c = none := by
  simp only [List.mem_cons, List.not_mem_nil, or_false] at h
  rcases h with rfl | rfl | rfl | rfl | rfl <;> rfl

/-- A Legacy data phase is single-rate, whatever the `dstr` cell says (R145). -/
theorem dataRate_legacy (dstr : Bool) : dataRate .legacy dstr = .str := by cases dstr <;> rfl

theorem describe_legacy_dr (r : Row) (a n : Word) : (r.describe .legacy a n).dr = .str := by
  simp [Row.describe, dataRate_legacy]

/-- Settles O6: the fixed rows are read off the table; RDCR follows the configuration's cells, the array commands have
no row, and `describe_legacy_dr` gives the rate. -/
theorem legacyTable : Obligations.LegacyTable := by
  unfold Obligations.LegacyTable
  intro cfg
  exact ⟨rfl, rfl, rfl, rfl, rfl, rfl, rfl, catalog_rdcr_none .legacy, fun _ => catalog_legacy_rdcr,
    fun _ => catalog_legacy_array_none cfg, rfl, rfl, describe_legacy_dr⟩

/-! ## The Octal table -/

/-- Settles O7: the fixed rows are read off the table, with the address cells of RDSR and RDID as `fixedKind` defines
them; RDCR follows the configuration's cells. -/
theorem octalTable : Obligations.OctalTable := by
  unfold Obligations.OctalTable
  intro cfg regAddr
  exact ⟨rfl, rfl, rfl, rfl, rfl, rfl, rfl, catalog_rdcr_none .octal, fun _ => catalog_octal_rdcr, rfl, rfl, rfl, rfl,
    rfl, rfl, rfl, rfl, rfl⟩

end Sys2Proof.Machine

/-! The transaction builder (41_transaction_builder.md R141): the phases of a described row, one lemma for each case of
the pseudocode, and what the catalog adds to them for the built descriptors. -/

namespace Sys2Proof.Machine

/-! ## The shape a mode gives -/

theorem Mode.opSize_eq (m : Mode) : Mode.opSize m = if m = .legacy then .op8 else .op16 := by cases m <;> rfl
theorem Mode.lines_eq (m : Mode) : Mode.lines m = if m = .legacy then .l1 else .l8 := by cases m <;> rfl
theorem Mode.rate_eq (m : Mode) : Mode.rate m = if m = .legacy then .str else .dtr := by cases m <;> rfl

theorem dataRate_eq (m : Mode) (dstr : Bool) :
    dataRate m dstr = if m = .octal ∧ dstr = false then .dtr else .str := by
  cases m with
  | legacy => exact dataRate_legacy dstr
  | octal => cases dstr <;> rfl

/-! ## The phases of a described row -/

section
variable {r : Row} (m : Mode) (a n : Word)

theorem describe_ap_iff : (r.describe m a n).ap = true ↔ r.ak ≠ .none := by simp [Row.describe]

/-- No address phase (R144, NONE): its fields are those of the normal form. -/
theorem describe_address_absent (h : r.ak = .none) :
    (r.describe m a n).ap = false ∧ (r.describe m a n).aw = .l1 ∧ (r.describe m a n).ar = .str
      ∧ (r.describe m a n).addr = 0 := by
  simp [Row.describe, h]

/-- An address phase of either kind has the lines and the rate of the instruction phase (R144). -/
theorem describe_address_present (h : r.ak ≠ .none) :
    (r.describe m a n).ap = true ∧ (r.describe m a n).aw = Mode.lines m ∧ (r.describe m a n).ar = Mode.rate m := by
  simp [Row.describe, h]

theorem describe_addr_operand (h : r.ak = .operand) : (r.describe m a n).addr = a := by simp [Row.describe, h]

theorem describe_addr_const {k : Word} (h : r.ak = .const k) : (r.describe m a n).addr = k := by
  simp [Row.describe, h]

/-- No data phase (R145, NONE): its fields are those of the normal form. -/
theorem describe_data_absent (h : r.dd = .none) :
    (r.describe m a n).dd = .none ∧ (r.describe m a n).dw = .l1 ∧ (r.describe m a n).dr = .str
      ∧ (r.describe m a n).dlen = 0 := by
  simp [Row.describe, h]

/-- A data phase (R145): the row's direction, the lines of the mode, the caller's length, and the rate `dataRate`. -/
theorem describe_data_present (h : r.dd ≠ .none) :
    (r.describe m a n).dd = r.dd ∧ (r.describe m a n).dw = Mode.lines m ∧ (r.describe m a n).dlen = n
      ∧ (r.describe m a n).dr = dataRate m r.dstr := by
  simp [Row.describe, h]

end

/-! ## The builder -/

theorem build_of_no_row {cfg : Cfg} {c : Cmd} {m : Mode} (a n : Word) (h : catalog cfg m c = none) :
    build cfg c m a n = none := by
  rw [build_eq, h, Option.map_none]

theorem build_of_row {cfg : Cfg} {c : Cmd} {m : Mode} {r : Row} (a n : Word) (h : catalog cfg m c = some r) :
    build cfg c m a n = some (r.describe m a n) := by
  rw [build_eq, h, Option.map_some]

/-- Settles O8: the built descriptor is the described row, and each clause is the lemma of its phase. -/
theorem buildFollowsRow : Obligations.BuildFollowsRow := by
  unfold Obligations.BuildFollowsRow
  intro cfg c m a n
  refine ⟨build_of_no_row a n, fun r hr => ⟨r.describe m a n, build_of_row a n hr, rfl, Mode.opSize_eq m,
    Mode.lines_eq m, Mode.rate_eq m, describe_address_absent m a n, fun hak => ?_, fun k hak => ?_,
    describe_data_absent m a n, fun hdd => ?_, rfl⟩⟩
  · obtain ⟨hap, haw, har⟩ := describe_address_present m a n (r := r) (by simp [hak])
    exact ⟨hap, haw, har, describe_addr_operand m a n hak⟩
  · obtain ⟨hap, haw, har⟩ := describe_address_present m a n (r := r) (by simp [hak])
    exact ⟨hap, haw, har, describe_addr_const m a n hak⟩
  · obtain ⟨hdir, hdw, hlen, hdr⟩ := describe_data_present m a n hdd
    exact ⟨hdir, hdw, hlen, hdr.trans (dataRate_eq m r.dstr)⟩

/-! ## The profiles (R148) -/

/-- The opcode of a Legacy row is one byte, the RDCR row's too. -/
theorem catalog_legacy_opcode_high {cfg : Cfg} {c : Cmd} {r : Row} (h : catalog cfg .legacy c = some r) :
    r.opcode.extractLsb' 8 8 = 0 := by
  cases c
  case rdcr =>
    obtain ⟨row, -, rfl⟩ := Option.map_eq_some_iff.mp h
    ext i hi
    simp
  case dtrd8 | pp4b | se | be | ce => cases h
  all_goals
    cases h
    dsimp only
    decide

/-- RDID is the one single-rate row of the Octal table (40_command_catalog.md R125). -/
theorem catalog_octal_dstr {cfg : Cfg} {c : Cmd} {r : Row} (h : catalog cfg .octal c = some r) (hc : c ≠ .rdid) :
    r.dstr = false := by
  cases c
  case rdid => exact absurd rfl hc
  case rdcr =>
    obtain ⟨row, -, rfl⟩ := Option.map_eq_some_iff.mp h
    rfl
  all_goals
    cases h
    rfl

/-- Normal form (30_encoding.md R104) as three implications. -/
theorem TD.normal_iff (td : TD) :
    td.normal = true ↔
      (td.ap = false → td.aw = .l1 ∧ td.ar = .str ∧ td.addr = 0)
      ∧ (td.dd = .none → td.dw = .l1 ∧ td.dr = .str ∧ td.dlen = 0)
      ∧ (td.isz = .op8 → td.opcode.extractLsb' 8 8 = 0) := by
  simp [TD.normal, or_iff_not_imp_left, and_assoc]

/-- A described row is in normal form, if in Legacy mode its opcode is one byte. -/
theorem describe_normal {r : Row} {m : Mode} (a n : Word) (h : m = .legacy → r.opcode.extractLsb' 8 8 = 0) :
    (r.describe m a n).normal = true := by
  refine (TD.normal_iff _).mpr ⟨fun hap => ?_, fun hdd => (describe_data_absent m a n hdd).2, fun hisz => h ?_⟩
  · have hak : r.ak = .none := by
      by_contra hak
      simp [(describe_ap_iff m a n).mpr hak] at hap
    exact (describe_address_absent m a n hak).2
  · cases m with
    | legacy => rfl
    | octal => cases hisz

/-- Settles O9: the phases of a described row have the shape of the mode; the catalog adds that Legacy opcodes are one
byte (`catalog_legacy_opcode_high`) and that only RDID is single-rate (`catalog_octal_dstr`). -/
theorem builtDescriptorProfiles : Obligations.BuiltDescriptorProfiles := by
  unfold Obligations.BuiltDescriptorProfiles
  intro cfg c m a n td hb
  obtain ⟨r, hr, rfl⟩ := build_some hb
  refine ⟨describe_normal a n ?_, ?_, ?_, r, hr, describe_ap_iff m a n, rfl⟩
  · rintro rfl
    exact catalog_legacy_opcode_high hr
  · rintro rfl
    refine ⟨rfl, catalog_legacy_opcode_high hr, rfl, rfl, fun hap => ?_, fun hdd => ?_⟩
    · exact (describe_address_present .legacy a n ((describe_ap_iff .legacy a n).mp hap)).2
    · obtain ⟨-, hdw, -, -⟩ := describe_data_present .legacy a n hdd
      exact ⟨hdw, describe_legacy_dr r a n⟩
  · rintro rfl
    refine ⟨rfl, rfl, rfl, fun hap => ?_, fun hdd => ?_⟩
    · exact (describe_address_present .octal a n ((describe_ap_iff .octal a n).mp hap)).2
    · obtain ⟨-, hdw, -, hdr⟩ := describe_data_present .octal a n hdd
      exact ⟨hdw, fun hc => by rw [hdr, catalog_octal_dstr hr hc]; rfl⟩

end Sys2Proof.Machine

/-! Register widths (42_register_access.md R161, R163): what `wireLen` answers in each mode, and by the row's rate in
Octal mode. -/

namespace Sys2Proof.Machine

theorem singleRate_iff (cfg : Cfg) (m : Mode) (c : Cmd) :
    singleRate cfg m c = true ↔ ∃ r, catalog cfg m c = some r ∧ r.dstr = true := by
  unfold singleRate
  cases catalog cfg m c <;> simp

@[simp] theorem wireLen_legacy (cfg : Cfg) (c : Cmd) (k : Nat) : wireLen cfg c .legacy k = k := by simp [wireLen]

/-- A double-rate data phase moves an even number of bytes (R161). -/
theorem wireLen_octal_double {cfg : Cfg} {c : Cmd} (k : Nat) (h : singleRate cfg .octal c = false) :
    wireLen cfg c .octal k = k + k % 2 := by
  simp [wireLen, h]

theorem wireLen_octal_single {cfg : Cfg} {c : Cmd} (k : Nat) (h : singleRate cfg .octal c = true) :
    wireLen cfg c .octal k = k := by
  simp [wireLen, h]

theorem wireLen_eq (cfg : Cfg) (c : Cmd) (m : Mode) (k : Nat) :
    wireLen cfg c m k =
      if m = .octal ∧ ¬ (∃ r, catalog cfg m c = some r ∧ r.dstr = true) then k + k % 2 else k := by
  simp only [← singleRate_iff]
  cases m with
  | legacy => simp
  | octal =>
    cases h : singleRate cfg .octal c with
    | false => simp [wireLen_octal_double k h]
    | true => simp [wireLen_octal_single k h]

/-- A widened value fills the data phase of WRCR2 (R163): one byte in Legacy mode, two in Octal mode. -/
theorem widen_length (cfg : Cfg) (v : Byte) (m : Mode) : (widen v m).length = wireLen cfg .wrcr2 m 1 := by
  cases m with
  | legacy => exact (wireLen_legacy cfg .wrcr2 1).symm
  | octal => exact (wireLen_octal_double 1 rfl).symm

/-- Settles O10: `wireLen_eq` is the rule; of the two registers measured, the Octal table has RDSR at double and RDID at
single rate; the bytes of `widen` are its definition. -/
theorem registerWidths : Obligations.RegisterWidths := by
  unfold Obligations.RegisterWidths
  exact ⟨wireLen_eq,
    fun cfg => ⟨wireLen_legacy cfg .rdsr 1, wireLen_octal_double 1 rfl, wireLen_legacy cfg .rdid 3,
      wireLen_octal_single 3 rfl⟩,
    fun _ => ⟨rfl, rfl⟩, widen_length⟩

end Sys2Proof.Machine

/-! Transport errors (60_exceptions.md R257; 42_register_access.md R165): whatever a step does, the call it makes, if
any, either raises TransportFault at once or was answered `Ok`. -/

namespace Sys2Proof.Machine

/-! ## The steps that make no bus transaction -/

@[simp] theorem prepare_hop (s : State) : s.prepare.hop = s.hop := by rw [prepare_eq]
@[simp] theorem prepare_done (s : State) : s.prepare.done = s.done := by rw [prepare_eq]

@[simp] theorem programSplit_trace (s : State) : s.programSplit.trace = s.trace := by
  unfold State.programSplit
  split
  · rfl
  · split <;> rfl

/-- MmapDisable cannot fail, under any environment (30_encoding.md R100). -/
theorem answerTo_mmapDisable (s : State) : s.answerTo .mmapDisable = .ok [] := by
  unfold State.answerTo Env.answer
  split <;> rfl

/-! ## The answer to a step's call -/

/-- What a step makes of the answer to its call: there is no call; an error, which leaves the state of the call with
TransportFault raised; or an `Ok`. -/
inductive CallStep (s t : State) : Prop where
  | silent (htrace : t.trace = s.trace)
  | failed (c : Call) (e : TErr) (ha : s.answerTo c = .err e)
      (ht : t = (s.prepare.called c).raise (.transportFault e))
  | answered (c : Call) (bs : List Byte) (htrace : t.trace = s.trace ++ [(c, .ok bs)])

theorem windowEnable_callStep {s : State} (hs : s.seq = .mmEn) : CallStep s s.windowEnable := by
  rcases attempt_cases s (.mmapEnable (templateRead s.cfg) (templateWrite s.cfg))
      (fun _ t => ({ t with mmapEn := true } : State).respondOk 0 []) with ⟨err, ha, e⟩ | ⟨bs, ha, e⟩
  · exact .failed _ err ha (by rw [prepare_of_ne (by simp [hs]), State.windowEnable, e])
  · exact .answered _ bs (by rw [State.windowEnable, e, ← ha]; rfl)

theorem windowDisable_callStep (s : State) : CallStep s s.windowDisable :=
  .answered .mmapDisable [] (by rw [← answerTo_mmapDisable s]; rfl)

/-- Only the wire commands and the two window operations make a call, and all but MmapDisable may be answered `Err`. -/
theorem step_callStep {s t : State} (h : step s = .next t) : CallStep s t := by
  cases hr : s.rst
  case true =>
    rw [step_reset hr] at h
    cases h
    exact .silent rfl
  case false =>
    rcases step_next hr h with ⟨_, _, _, _, _, _, _, hw⟩ | ⟨_, e⟩ | ⟨_, e⟩ | ⟨_, e⟩ | ⟨_, e⟩ | ⟨_, e⟩ | ⟨hs, e⟩ |
      ⟨_, e⟩ | ⟨_, e⟩ | ⟨_, rest, _, hs, _, _, hi, hx⟩ | ⟨_, _, _, _, _, e⟩
    · rcases hw with ⟨_, _, e⟩ | ⟨td, err, _, _, ha, ht⟩ | ⟨td, bs, _, _, _, _, ha, _, ht⟩
      · exact .silent (by rw [e, refuse_trace, prepare_trace])
      · exact .failed _ err ha ht
      · exact .answered _ bs (by rw [ht, advance_trace, called_trace, prepare_trace, prepare_answerTo, ha])
    · exact .silent (by rw [e, refuse_trace, prepare_trace])
    · exact .silent (by rw [e]; rfl)
    · exact .silent (by rw [e]; rfl)
    · exact .silent (by rw [e, programSplit_trace])
    · exact .silent (by rw [e]; rfl)
    · exact e ▸ windowEnable_callStep hs
    · exact e ▸ windowDisable_callStep s
    · exact .silent (by rw [e])
    · exact .silent (exec_host_trace (s := { s with host := rest }) hs hi hx)
    · exact .silent (by rw [e]; rfl)

/-- Settles O31: by the trace, the step is the failed case of `step_callStep` with this call and this error;
`raise_transportFault` says what it leaves, and `State.prepare` changes no register the record is made from. -/
theorem transportFaultAborts : Obligations.TransportFaultAborts := by
  unfold Obligations.TransportFaultAborts
  intro s t c e h htrace
  cases step_callStep h with
  | silent hsilent => simp [hsilent] at htrace
  | answered c' bs hok => simp [hok] at htrace
  | failed c' e' ha ht =>
    obtain ⟨rfl, rfl⟩ : c' = c ∧ e' = e := by simpa [ht, ha] using htrace
    rw [ht, raise_transportFault, called_eq (by rw [prepare_answerTo, ha])]
    simp

end Sys2Proof.Machine

/-! The end of INIT (43_init_sequencer.md R188 to R190): what each outcome of the comparison leaves, and the step
of INIT_VERIFY, whose register read brings the byte compared. -/

namespace Sys2Proof.Machine

/-! ## The comparison and the payload -/

/-- The mismatch test compares all eight bits (R189). -/
theorem mismatch_iff (vNew vRb : Byte) : mismatch vNew vRb = true ↔ vRb ≠ vNew := bne_iff_ne

@[simp] theorem mismatch_self (v : Byte) : mismatch v v = false := bne_self_eq_false v

theorem initPayload_match (vOld vNew vRb : Byte) :
    initPayload false vOld vNew vRb = 0#8 ++ vOld ++ vNew ++ vRb := BitVec.setWidth_eq _

theorem initPayload_mismatch (vOld vNew vRb : Byte) :
    initPayload true vOld vNew vRb = 0x80#8 ++ vOld ++ vNew ++ vRb := BitVec.setWidth_eq _

/-! ## The three outcomes -/

theorem initConclude_match {s : State} (h : s.vRb = s.vNew) :
    s.initConclude =
      { s with initMismatch := false, seq := .resp
               rsp := ⟨0, 0, 0, 0#8 ++ s.vOld ++ s.vNew ++ s.vRb, s.done, []⟩ } := by
  simp [State.initConclude, State.respondOk, h, initPayload_match]

theorem initConclude_tolerated {s : State} (h : s.vRb ≠ s.vNew) (hf : s.cfg.initMismatchFatal = false) :
    s.initConclude =
      { s with initMismatch := true, seq := .resp
               rsp := ⟨0, 0, 0, 0x80#8 ++ s.vOld ++ s.vNew ++ s.vRb, s.done, []⟩ } := by
  simp [State.initConclude, State.respondOk, hf, (mismatch_iff _ _).2 h, initPayload_mismatch]

theorem initConclude_fatal {s : State} (h : s.vRb ≠ s.vNew) (hf : s.cfg.initMismatchFatal = true) :
    s.initConclude =
      { s with initMismatch := true, fault := true, faultCause := 4, faultOp := s.hop, faultInfo := 0, seq := .resp
               rsp := ⟨4, 0, 0, 0x80#8 ++ s.vOld ++ s.vNew ++ s.vRb, s.done, []⟩ } := by
  rw [State.initConclude, if_pos ⟨(mismatch_iff _ _).2 h, hf⟩, raise_mismatchExn, initPayload_mismatch]

/-! ## The read-back -/

/-- A register read answered `Ok`: the first byte goes to V_RB, whatever pads it (42_register_access.md R162). -/
theorem readRegister_ok {s : State} {c : Cmd} {m : Mode} {a : Word} {td : TD} {b : Byte} {pad : List Byte}
    (hm : s.mode = m) (hb : build s.cfg c m a (BitVec.ofNat 32 (wireLen s.cfg c m 1)) = some td)
    (ha : s.answerTo (.execRead td) = .ok (b :: pad)) :
    s.readRegister c m a = { s.called (.execRead td) with vRb := b } := by
  rw [State.readRegister, sendRead_ok hm hb ha]
  rfl

/-- The descriptor of the Octal-shaped Configuration-2 read (40_command_catalog.md R123): two bytes on the wire for the
one of the register. -/
theorem build_rdcr2_octal (cfg : Cfg) (a : Word) :
    build cfg .rdcr2 .octal a (BitVec.ofNat 32 (wireLen cfg .rdcr2 .octal 1)) =
      some ⟨0x718E, .op16, .l8, .dtr, true, .l8, .dtr, a, .read, .l8, .dtr, 2, cfg.dummyRegO⟩ := by
  rw [wireLen_octal_double 1 rfl]
  rfl

/-- INIT_VERIFY in Octal mode (R188): one read of Configuration-2 at address 0, its first byte in V_RB, then the
comparison. -/
theorem step_initVerify {s : State} {td : TD} {b : Byte} {pad : List Byte} (hr : s.rst = false)
    (hs : s.seq = .initVerify) (hm : s.mode = .octal)
    (htd : td = ⟨0x718E, .op16, .l8, .dtr, true, .l8, .dtr, 0, .read, .l8, .dtr, 2, s.cfg.dummyRegO⟩)
    (ha : s.answerTo (.execRead td) = .ok (b :: pad)) :
    step s = .next (State.initConclude
      { s with env := s.env.next s.cfg s.trace (.execRead td)
               trace := s.trace ++ [(.execRead td, .ok (b :: pad))], vRb := b }) := by
  have hp : s.prepare = s := prepare_of_ne (by simp [hs])
  have hissue : s.prepare.issue = some (.command (.rdcr2O Config.cr2AddrMode)) := by
    simp [hp, State.issue, hs, hm, byMode]
  have hread : exec (.rdcr2O Config.cr2AddrMode) s = .next { s.called (.execRead td) with vRb := b } :=
    congrArg Host.Outcome.next (readRegister_ok hm (by rw [build_rdcr2_octal, htd]) ha)
  rw [step_call hr hissue, hp, hread, called_eq ha]
  simp [resume, State.advance, hs]

/-- Settles O37: `step_initVerify` is the read-back, and each clause is one of the three outcomes of `initConclude`. -/
theorem initVerify : Obligations.InitVerify := by
  unfold Obligations.InitVerify
  intro s hr hs hm c b pad ha u
  have hstep := step_initVerify hr hs hm rfl ha
  refine ⟨fun heq => ?_, fun hne hf => ?_, fun hne hf => ?_⟩
  · exact hstep.trans (congrArg Host.Outcome.next (initConclude_match heq))
  · exact hstep.trans (congrArg Host.Outcome.next (initConclude_tolerated hne hf))
  · exact hstep.trans (congrArg Host.Outcome.next (initConclude_fatal hne hf))

end Sys2Proof.Machine

/-! The page splitter (44_array_access.md R204 to R206): what the length of one chunk is, how the list of chunks is made
of the first one and the rest, and the properties of the whole list. -/

namespace Sys2Proof.Machine

/-! ## One chunk -/

theorem chunkLen_eq (a left : Nat) : chunkLen a left = min (256 - a % 256) left := rfl

theorem chunkLen_pos {a left : Nat} (h : 0 < left) : 1 ≤ chunkLen a left := by
  rw [chunkLen_eq]
  omega

theorem chunkLen_le_page (a left : Nat) : chunkLen a left ≤ 256 := by
  rw [chunkLen_eq]
  omega

theorem chunkLen_le_left (a left : Nat) : chunkLen a left ≤ left := Nat.min_le_right ..

theorem chunkLen_within_page {a left : Nat} (h : 0 < left) : a / 256 = (a + chunkLen a left - 1) / 256 := by
  rw [chunkLen_eq]
  omega

/-- A chunk that leaves bytes over reaches the end of its page. -/
theorem chunkLen_of_rest {a left : Nat} (h : 0 < left - chunkLen a left) : chunkLen a left = 256 - a % 256 := by
  rw [chunkLen_eq] at h ⊢
  omega

/-! ## The first chunk and the rest -/

/-- Any fuel that covers the bytes left makes the same chunks: each takes at least one byte. -/
theorem chunksFuel_congr {f g a left : Nat} (hf : left ≤ f) (hg : left ≤ g) :
    chunksFuel f a left = chunksFuel g a left := by
  induction f generalizing g a left with
  | zero =>
    obtain rfl : left = 0 := by omega
    cases g <;> simp [chunksFuel]
  | succ f ih =>
    by_cases h : left = 0
    · cases g <;> simp [chunksFuel, h]
    · obtain ⟨g, rfl⟩ : ∃ n, g = n + 1 := Nat.exists_eq_succ_of_ne_zero (by omega)
      have hpos : 1 ≤ chunkLen a left := chunkLen_pos (by omega)
      simp only [chunksFuel, if_neg h]
      rw [ih (g := g) (by omega) (by omega)]

@[simp] theorem chunks_zero (a : Nat) : chunks a 0 = [] := rfl

/-- The splitter's loop (R205) without fuel: the chunk at the current address, then the chunks of what is left. -/
theorem chunks_of_pos {a left : Nat} (h : 0 < left) :
    chunks a left = (a, chunkLen a left) :: chunks (a + chunkLen a left) (left - chunkLen a left) := by
  obtain ⟨n, rfl⟩ : ∃ n, left = n + 1 := Nat.exists_eq_succ_of_ne_zero (by omega)
  have hpos : 1 ≤ chunkLen a (n + 1) := chunkLen_pos h
  simp only [chunks, chunksFuel, if_neg (Nat.succ_ne_zero n)]
  rw [chunksFuel_congr (f := n) (by omega) le_rfl]

/-- Induction along the splitter's loop: no bytes left, or one chunk and then the rest. -/
theorem chunks_induction {motive : Nat → Nat → Prop} (done : ∀ a, motive a 0)
    (chunk : ∀ a left, 0 < left → motive (a + chunkLen a left) (left - chunkLen a left) → motive a left)
    (a left : Nat) : motive a left := by
  induction left using Nat.strong_induction_on generalizing a with
  | h left ih =>
    rcases Nat.eq_zero_or_pos left with rfl | h
    · exact done a
    · have hpos : 1 ≤ chunkLen a left := chunkLen_pos h
      exact chunk a left h (ih _ (by omega) _)

/-! ## All chunks -/

/-- A property of every chunk the splitter can make is one of every chunk in the list. -/
theorem forall_mem_chunks {P : Nat × Nat → Prop} (hP : ∀ a left, 0 < left → P (a, chunkLen a left)) (a left : Nat) :
    ∀ p ∈ chunks a left, P p := by
  induction a, left using chunks_induction with
  | done a => simp
  | chunk a left h ih =>
    rw [chunks_of_pos h]
    exact List.forall_mem_cons.2 ⟨hP a left h, ih⟩

theorem chunks_size (a left : Nat) : ∀ p ∈ chunks a left, 1 ≤ p.2 ∧ p.2 ≤ 256 :=
  forall_mem_chunks (fun _ _ h => ⟨chunkLen_pos h, chunkLen_le_page _ _⟩) a left

theorem chunks_within_page (a left : Nat) : ∀ p ∈ chunks a left, p.1 / 256 = (p.1 + p.2 - 1) / 256 :=
  forall_mem_chunks (fun _ _ h => chunkLen_within_page h) a left

theorem chunks_sum (a left : Nat) : ((chunks a left).map Prod.snd).sum = left := by
  induction a, left using chunks_induction with
  | done a => simp
  | chunk a left h ih =>
    rw [chunks_of_pos h, List.map_cons, List.sum_cons, ih]
    exact Nat.add_sub_cancel' (chunkLen_le_left a left)

/-- The list has a first chunk only when there are bytes, and it starts at the address. -/
theorem chunks_head {a left : Nat} {p : Nat × Nat} (hp : (chunks a left).head? = some p) : 0 < left ∧ p.1 = a := by
  rcases Nat.eq_zero_or_pos left with rfl | h
  · simp at hp
  · rw [chunks_of_pos h, List.head?_cons, Option.some.injEq] at hp
    exact ⟨h, hp ▸ rfl⟩

/-- Chunks that follow each other: the second starts where the first ends, on a page boundary. -/
theorem chunks_consecutive {a left i : Nat} {p q : Nat × Nat} (hp : (chunks a left)[i]? = some p)
    (hq : (chunks a left)[i + 1]? = some q) : q.1 = p.1 + p.2 ∧ q.1 % 256 = 0 := by
  induction a, left using chunks_induction generalizing i with
  | done a => simp at hp
  | chunk a left h ih =>
    rw [chunks_of_pos h, List.getElem?_cons_succ] at hq
    rw [chunks_of_pos h] at hp
    cases i with
    | zero =>
      obtain rfl : (a, chunkLen a left) = p := by simpa using hp
      obtain ⟨hrest, hstart⟩ := chunks_head (List.head?_eq_getElem?.trans hq)
      have hend : chunkLen a left = 256 - a % 256 := chunkLen_of_rest hrest
      exact ⟨hstart, by omega⟩
    | succ i => exact ih hp hq

/-- Between the first chunk and the last there are whole pages: such a chunk starts and ends on a page boundary. -/
theorem chunks_middle {a left i : Nat} {p : Nat × Nat} (hi : 0 < i) (hlen : i + 1 < (chunks a left).length)
    (hp : (chunks a left)[i]? = some p) : p.2 = 256 := by
  obtain ⟨j, rfl⟩ : ∃ j, i = j + 1 := Nat.exists_eq_succ_of_ne_zero hi.ne'
  obtain ⟨-, hstart⟩ := chunks_consecutive (List.getElem?_eq_getElem (by omega)) hp
  obtain ⟨hnext, hend⟩ := chunks_consecutive hp (List.getElem?_eq_getElem hlen)
  obtain ⟨hpos, hle⟩ := chunks_size a left p (List.mem_of_getElem? hp)
  omega

/-- The number of chunks is the number of pages the range touches. -/
theorem chunks_length (a left : Nat) :
    (chunks a left).length = if left = 0 then 0 else (a + left - 1) / 256 - a / 256 + 1 := by
  induction a, left using chunks_induction with
  | done a => simp
  | chunk a left h ih =>
    have hle : chunkLen a left ≤ left := chunkLen_le_left a left
    rw [chunks_of_pos h, List.length_cons, ih, if_neg h.ne']
    split
    case isTrue hlast =>
      have hpage : a / 256 = (a + chunkLen a left - 1) / 256 := chunkLen_within_page h
      omega
    case isFalse hrest =>
      have hend : chunkLen a left = 256 - a % 256 := chunkLen_of_rest (Nat.pos_of_ne_zero hrest)
      omega

/-- Settles O48: each clause is the lemma on the list of chunks; that addresses rise is that no chunk is empty. -/
theorem pageSplitCorrect : Obligations.PageSplitCorrect := by
  unfold Obligations.PageSplitCorrect
  intro addr len cs
  refine ⟨chunks_size addr len, chunks_within_page addr len, chunks_sum addr len, fun p hp => (chunks_head hp).2,
    fun i p q hp hq => ?_, fun i p => chunks_middle, chunks_length addr len⟩
  obtain ⟨hnext, hboundary⟩ := chunks_consecutive hp hq
  obtain ⟨hpos, -⟩ := chunks_size addr len p (List.mem_of_getElem? hp)
  exact ⟨hnext, by omega, hboundary⟩

end Sys2Proof.Machine


/-! The two memory-mapped templates (45_memory_mapped.md R232): the built descriptors they come from, and their packed
words. -/

namespace Sys2Proof.Machine

/-! ## The built descriptors -/

/-- The READ descriptor (40_command_catalog.md R123): its dummy cycles are those of the configuration. -/
theorem build_dtrd8_octal (cfg : Cfg) (a n : Word) :
    build cfg .dtrd8 .octal a n =
      some ⟨0xEE11, .op16, .l8, .dtr, true, .l8, .dtr, a, .read, .l8, .dtr, n, cfg.dummyRead⟩ := by
  have hrow : catalog cfg .octal .dtrd8 = some ⟨0xEE11, .operand, .read, false, cfg.dummyRead⟩ := rfl
  exact build_of_row a n hrow

/-- The page-program descriptor (40_command_catalog.md R123): nothing of it depends on the configuration. -/
theorem build_pp4b_octal (cfg : Cfg) (a n : Word) :
    build cfg .pp4b .octal a n =
      some ⟨0x12ED, .op16, .l8, .dtr, true, .l8, .dtr, a, .write, .l8, .dtr, n, 0⟩ := by
  have hrow : catalog cfg .octal .pp4b = some ⟨0x12ED, .operand, .write, false, 0⟩ := rfl
  exact build_of_row a n hrow

/-! ## The templates -/

/-- The read template differs from the built descriptor in its dummy cycles at most. -/
theorem templateRead_of_build {cfg : Cfg} {td : TD} (h : build cfg .dtrd8 .octal 0 0 = some td) :
    templateRead cfg = { td with dummy := Config.templateDummy } := by
  rw [templateRead, h]

/-- With 20 dummy cycles configured the read template is the built descriptor itself. -/
theorem templateRead_of_build_of_dummy {cfg : Cfg} {td : TD} (h : build cfg .dtrd8 .octal 0 0 = some td)
    (hdummy : td.dummy = Config.templateDummy) : templateRead cfg = td := by
  rw [templateRead_of_build h, ← hdummy]

theorem templateRead_pack (cfg : Cfg) : (templateRead cfg).pack = ⟨0xA37FEE11, 0, 0⟩ := by
  rw [templateRead_eq]
  decide

theorem templateWrite_pack (cfg : Cfg) : (templateWrite cfg).pack = ⟨0x03BF12ED, 0, 0⟩ := by
  rw [templateWrite_eq]
  decide

/-- Settles O11: the READ descriptor carries the DUMMY_READ of the configuration, which the read template replaces by
20; the page-program descriptor is the write template as it stands. -/
theorem templatesAreFixed : Obligations.TemplatesAreFixed := by
  unfold Obligations.TemplatesAreFixed
  intro cfg
  have hread := build_dtrd8_octal cfg 0 0
  have hwrite : build cfg .pp4b .octal 0 0 = some (templateWrite cfg) := by
    rw [build_pp4b_octal, templateWrite_eq]
  refine ⟨⟨_, hread, templateRead_of_build hread⟩, hwrite, templateRead_pack cfg, templateWrite_pack cfg,
    fun hdummy => ?_⟩
  rw [templateRead_of_build_of_dummy hread hdummy, hread]

end Sys2Proof.Machine

/-! FAULT stops the engine (60_exceptions.md R254): with FAULT set the engine rests in IDLE or RESP, where its only steps
are to refuse the next request with PV_FAULTED, to hand over a response and to stand still. None of them touches
anything but the host port, the response and the sequencer. -/

namespace Sys2Proof.Machine

/-! ## The refusal -/

/-- FAULT is the first check of every operation code (R253). -/
theorem commonViolation_faulted {s : State} (hf : s.fault = true) (h : BitVec 4) :
    s.commonViolation h = some .faulted := if_pos hf

/-- FAULT is checked before the encoding (R253). -/
theorem refuseEncoding_faulted {s : State} (hs : s.seq = .idle) (hf : s.fault = true) :
    s.refuseEncoding = s.refuse .faulted := by
  simp [State.refuseEncoding, State.busy, hs, hf]

/-- With FAULT set every host operation and every reserved code is refused with PV_FAULTED. -/
theorem exec_host_faulted {s : State} {i : Instr} (hs : s.seq = .idle) (hf : s.fault = true)
    (hi : i.transaction s.cfg = none) : exec i s = .next (s.refuse .faulted) := by
  cases i <;> simp only [Instr.transaction, reduceCtorEq] at hi
  case reservedHop0 | reservedHopE | reservedHopF =>
    exact congrArg Host.Outcome.next (refuseEncoding_faulted hs hf)
  all_goals exact congrArg Host.Outcome.next (accept_common hs (commonViolation_faulted hf _))

/-- The step that takes a request while FAULT is set: whether the decoder gives it an operation or rejects its reserved
bits, it is refused with PV_FAULTED. -/
theorem step_request_faulted {s : State} {r : Request} {rest : List Request} (hr : s.rst = false) (hs : s.seq = .idle)
    (hf : s.fault = true) (hh : s.host = r :: rest) (he : r.expressible = true) :
    step s = .next (({ s with host := rest } : State).refuse .faulted) := by
  cases hd : decodeHost r.w0 r.w1 r.w2 r.wdata with
  | ok i =>
    rw [step_request hr hs hh hd]
    exact exec_host_faulted hs hf (decodeHost_transaction hd _)
  | error e =>
    obtain rfl : e = .reservedBits := by simpa [Request.expressible, hd] using he
    rw [step_reservedBits hr hs hh hd, refuseEncoding_faulted (s := { s with host := rest }) hs hf]

/-! ## The stopped engine -/

/-- IDLE and RESP issue no bus transaction (10_state.md R30). -/
theorem issue_settled {s : State} (h : s.seq.settledState = true) : s.prepare.issue = none := by
  obtain hs | hs : s.seq = .idle ∨ s.seq = .resp := by simpa [Seq.settledState] using h
  all_goals simp [prepare_of_ne, State.issue, hs]

/-- `t` rests in IDLE or RESP and differs from `s` at most in the sequencer, the response and the host port: everything
of the engine, the environment and the trace that R254 freezes is the same. -/
structure StoppedFrom (s t : State) : Prop where
  settled : t.seq.settledState = true
  frame : t = { s with seq := t.seq, rsp := t.rsp, host := t.host, responses := t.responses }

theorem StoppedFrom.refl {s : State} (hq : s.seq.settledState = true) : StoppedFrom s s := ⟨hq, rfl⟩

theorem StoppedFrom.trans {s t u : State} (hst : StoppedFrom s t) (htu : StoppedFrom t u) : StoppedFrom s u where
  settled := htu.settled
  frame := by rw [htu.frame, hst.frame]

theorem StoppedFrom.fault_eq {s t : State} (h : StoppedFrom s t) : t.fault = s.fault := by rw [h.frame]

theorem StoppedFrom.rst_eq {s t : State} (h : StoppedFrom s t) : t.rst = s.rst := by rw [h.frame]

/-- A step of a stopped engine. Of the forms of a step, those of the other sequencer states are ruled out by the state,
and the acceptance of an operation by FAULT. -/
theorem step_stopped {s t : State} (hr : s.rst = false) (hf : s.fault = true) (hq : s.seq.settledState = true)
    (h : step s = .next t) : StoppedFrom s t := by
  have elsewhere {q : Seq} (hs : s.seq = q) (hne : q.settledState = false) : StoppedFrom s t := by
    rw [hs, hne] at hq
    cases hq
  rcases step_next hr h with ⟨_, _, _, _, _, hi, _⟩ | ⟨hi, _⟩ | ⟨_, e⟩ | ⟨hs, _⟩ | ⟨hs, _⟩ | ⟨hs, _⟩ | ⟨hs, _⟩ |
    ⟨hs, _⟩ | ⟨_, e⟩ | ⟨_, rest, _, hs, _, _, hi, hx⟩ | ⟨_, _, _, _, _, e⟩
  · rw [issue_settled hq] at hi
    cases hi
  · rw [issue_settled hq] at hi
    cases hi
  · exact e ▸ ⟨rfl, rfl⟩
  · exact elsewhere hs rfl
  · exact elsewhere hs rfl
  · exact elsewhere hs rfl
  · exact elsewhere hs rfl
  · exact elsewhere hs rfl
  · exact e.symm ▸ .refl hq
  · rw [exec_host_faulted (s := { s with host := rest }) hs hf hi] at hx
    cases hx
    exact ⟨rfl, rfl⟩
  · exact e ▸ ⟨rfl, rfl⟩

/-- A run of at least one step that answers a next state starts with a step that does. -/
theorem run_succ_next {s t : State} {n : Nat} (h : run (n + 1) s = .next t) :
    ∃ u, step s = .next u ∧ run n u = .next t := by
  cases hs : step s with
  | next u => exact ⟨u, rfl, (run_step hs).symm.trans h⟩
  | fault r => simp [run, hs] at h
  | refused r => simp [run, hs] at h

/-- Any number of steps leaves a stopped engine stopped: FAULT and the reset input stay, so each step is one of
`step_stopped`. -/
theorem run_stopped {n : Nat} {s t : State} (hr : s.rst = false) (hf : s.fault = true)
    (hq : s.seq.settledState = true) (h : run n s = .next t) : StoppedFrom s t := by
  induction n generalizing s with
  | zero =>
    cases h
    exact .refl hq
  | succ n ih =>
    obtain ⟨u, hstep, hrun⟩ := run_succ_next h
    have hu : StoppedFrom s u := step_stopped hr hf hq hstep
    exact hu.trans (ih (hu.rst_eq.trans hr) (hu.fault_eq.trans hf) hu.settled hrun)

/-- Settles O33: a consistent state with FAULT rests in IDLE or RESP, so `run_stopped` gives the frame of any run; a
request costs the step that refuses it (`step_request_faulted`) and the step of RESP. -/
theorem faultStopsEngine : Obligations.FaultStopsEngine := by
  unfold Obligations.FaultStopsEngine
  refine ⟨fun n s t hc hf hr h => ?_, fun s r rest hf hr hs hh he => ?_⟩
  · have hstop : StoppedFrom s t := run_stopped hr hf (hc.faultStops hf) h
    rw [hstop.frame]
    exact ⟨rfl, rfl, rfl, hf, rfl, rfl, rfl, rfl, rfl, rfl⟩
  · have hresp : step (({ s with host := rest } : State).refuse .faulted) =
        .next (({ s with host := rest } : State).refuse .faulted).deliver := step_resp hr rfl
    rw [run_step (step_request_faulted hr hs hf hh he), run_step hresp]
    simp [run, State.refuse, State.deliver, Violation.code, hs]

end Sys2Proof.Machine

/-! Decoding and encoding (30_encoding.md R80, R103, R105): the fields of a request word, the lookup of an opcode, what
wire words decode to, and that an instruction is assembled from the transaction it encodes to. -/

namespace Sys2Proof.Machine

/-! ## Request words -/

@[simp] theorem hopField_packW0 (h : BitVec 4) (v : Byte) : hopField (packW0 h v) = h := by
  simp only [hopField, packW0]
  rw [BitVec.extractLsb'_setWidth_of_le (by decide)]
  exact BitVec.extractLsb'_append_eq_right

@[simp] theorem valField_packW0 (h : BitVec 4) (v : Byte) : valField (packW0 h v) = v := by
  simp only [valField, packW0]
  rw [BitVec.extractLsb'_setWidth_of_le (by decide), BitVec.extractLsb'_append_eq_of_le (by decide),
    BitVec.extractLsb'_append_eq_of_le (by decide)]
  exact BitVec.extractLsb'_append_eq_right

@[simp] theorem reservedBitsSet_packW0 (h : BitVec 4) (v : Byte) : reservedBitsSet (packW0 h v) = false := by
  simp only [reservedBitsSet, packW0]
  rw [BitVec.extractLsb'_setWidth_of_le (by decide), BitVec.extractLsb'_setWidth_of_le (by decide),
    BitVec.extractLsb'_append_eq_of_le (by decide), BitVec.extractLsb'_append_eq_right,
    BitVec.extractLsb'_append_eq_of_le (by decide), BitVec.extractLsb'_append_eq_of_le (by decide),
    BitVec.extractLsb'_append_eq_left]
  rfl

/-- The fields of a request word without reserved bits choose the operation. -/
theorem decodeHost_packW0 {h : BitVec 4} (h0 : h ≠ 0x0) (hE : h ≠ 0xE) (hF : h ≠ 0xF) (v : Byte) (addr len : Word)
    (wdata : List Byte) : decodeHost (packW0 h v) addr len wdata = decodeOperation h v addr len wdata := by
  rw [decodeHost, hopField_packW0, if_neg h0, if_neg hE, if_neg hF, reservedBitsSet_packW0, valField_packW0]
  rfl
 
/-! ## Wire words -/

/-- What wire words decode to: the packed words stand for a descriptor, its opcode names a row, the descriptor is the
one the builder makes of that row, and its data phase is the command's (41_transaction_builder.md R141). -/
theorem decode_wire_iff {cfg : Cfg} {p : Packed} {data : List Byte} {i : Instr} :
    decode cfg (.wire p data) = .ok i ↔
      ∃ td c, p.unpack = some td ∧ findCommand cfg (opcodeMode td.isz) td.opcode = some c ∧
        build cfg c (opcodeMode td.isz) td.addr td.dlen = some td ∧
        assemble cfg (opcodeMode td.isz) c td.addr td.dlen.toNat data = .ok i := by
  simp only [decode]
  cases p.unpack with
  | none => simp
  | some td =>
    simp only [decodeDescriptor, Option.some.injEq, exists_and_left, exists_eq_left']
    cases findCommand cfg (opcodeMode td.isz) td.opcode with
    | none => simp
    | some c => by_cases hb : build cfg c (opcodeMode td.isz) td.addr td.dlen = some td <;> simp [hb]

theorem whenPhase_eq_ok {good : Bool} {i j : Instr} : whenPhase good i = .ok j ↔ good = true ∧ i = j := by
  cases good <;> simp [whenPhase]

/-! ## The lookup of an opcode -/

/-- A search ends at a last element that is nowhere before if it has the property and no other element does. -/
theorem find?_concat_eq_some_iff {α : Type} {p : α → Bool} {l : List α} {x : α} (hx : x ∉ l) :
    (l ++ [x]).find? p = some x ↔ p x = true ∧ ∀ y ∈ l, p y = false := by
  rw [List.find?_append]
  cases hl : l.find? p with
  | none =>
    have hnone : ∀ y ∈ l, p y = false := by simpa using hl
    simpa using fun _ => hnone
  | some d =>
    have hd : p d = true := List.find?_some hl
    have hmem : d ∈ l := List.mem_of_find?_eq_some hl
    have hne : d ≠ x := fun e => hx (e ▸ hmem)
    simp only [Option.some_or, Option.some.injEq, hne, false_iff, not_and]
    exact fun _ hall => by simp [hall d hmem] at hd

/-- The row of a command in a mode has this opcode. -/
def rowHasOpcode (cfg : Cfg) (m : Mode) (op : BitVec 16) (c : Cmd) : Bool :=
  (catalog cfg m c).any fun r => r.opcode == op

theorem rowHasOpcode_iff {cfg : Cfg} {m : Mode} {op : BitVec 16} {c : Cmd} :
    rowHasOpcode cfg m op c = true ↔ ∃ r, catalog cfg m c = some r ∧ r.opcode = op := by
  simp [rowHasOpcode, Option.any_eq_true]

theorem findCommand_eq_find (cfg : Cfg) (m : Mode) (op : BitVec 16) :
    findCommand cfg m op = lookupOrder.find? (rowHasOpcode cfg m op) := by
  unfold findCommand
  congr 1
  funext c
  unfold rowHasOpcode
  cases catalog cfg m c <;> rfl

/-- The command an opcode names has a row with this opcode. -/
theorem findCommand_some {cfg : Cfg} {m : Mode} {op : BitVec 16} {c : Cmd} (h : findCommand cfg m op = some c) :
    ∃ r, catalog cfg m c = some r ∧ r.opcode = op := by
  rw [findCommand_eq_find] at h
  exact rowHasOpcode_iff.1 (List.find?_some h)

/-- RDCR is looked up last: an opcode names it where its row has the opcode and no row the spec fixes does (log 30). -/
theorem findCommand_eq_rdcr_iff {cfg : Cfg} {m : Mode} {op : BitVec 16} :
    findCommand cfg m op = some .rdcr ↔
      (∃ r, catalog cfg m .rdcr = some r ∧ r.opcode = op) ∧
        ∀ c r, c ≠ .rdcr → catalog cfg m c = some r → r.opcode ≠ op := by
  have order : lookupOrder =
      [Cmd.wren, .rsten, .rst, .rdsr, .rdcr2, .wrcr2, .rdid, .dtrd8, .pp4b, .se, .be, .ce] ++ [.rdcr] := rfl
  have fixed_rows (c : Cmd) :
      c ∈ [Cmd.wren, .rsten, .rst, .rdsr, .rdcr2, .wrcr2, .rdid, .dtrd8, .pp4b, .se, .be, .ce] ↔ c ≠ .rdcr := by
    cases c <;> decide
  rw [findCommand_eq_find, order, find?_concat_eq_some_iff (by decide), rowHasOpcode_iff]
  simp only [fixed_rows, ← Bool.not_eq_true, rowHasOpcode_iff, not_exists, not_and]
  exact and_congr_right fun _ => ⟨fun h c r hc => h c hc r, fun h c hc r => h c r hc⟩

/-- The opcodes of the Legacy rows the spec fixes (40_command_catalog.md R122). -/
theorem not_legacy_opcode_iff {cfg : Cfg} {op : BitVec 16} :
    (∀ c r, c ≠ .rdcr → catalog cfg .legacy c = some r → r.opcode ≠ op) ↔
      op ∉ [0x06, 0x66, 0x99, 0x05, 0x71, 0x72, 0x9F] := by
  constructor
  · intro h hop
    simp only [List.mem_cons, List.not_mem_nil, or_false] at hop
    rcases hop with e | e | e | e | e | e | e
    · exact h .wren _ (by decide) rfl e.symm
    · exact h .rsten _ (by decide) rfl e.symm
    · exact h .rst _ (by decide) rfl e.symm
    · exact h .rdsr _ (by decide) rfl e.symm
    · exact h .rdcr2 _ (by decide) rfl e.symm
    · exact h .wrcr2 _ (by decide) rfl e.symm
    · exact h .rdid _ (by decide) rfl e.symm
  · rintro h c r hc hr rfl
    cases c
    case rdcr => exact hc rfl
    case dtrd8 | pp4b | se | be | ce => cases hr
    all_goals
      cases hr
      simp at h

/-- The opcodes of the Octal rows the spec fixes (40_command_catalog.md R123). -/
theorem not_octal_opcode_iff {cfg : Cfg} {op : BitVec 16} :
    (∀ c r, c ≠ .rdcr → catalog cfg .octal c = some r → r.opcode ≠ op) ↔
      op ∉ [0x06F9, 0x6699, 0x9966, 0x05FA, 0x718E, 0x728D, 0x9F60, 0xEE11, 0x12ED, 0x21DE, 0xDC23, 0x609F] := by
  constructor
  · intro h hop
    simp only [List.mem_cons, List.not_mem_nil, or_false] at hop
    rcases hop with e | e | e | e | e | e | e | e | e | e | e | e
    · exact h .wren _ (by decide) rfl e.symm
    · exact h .rsten _ (by decide) rfl e.symm
    · exact h .rst _ (by decide) rfl e.symm
    · exact h .rdsr _ (by decide) rfl e.symm
    · exact h .rdcr2 _ (by decide) rfl e.symm
    · exact h .wrcr2 _ (by decide) rfl e.symm
    · exact h .rdid _ (by decide) rfl e.symm
    · exact h .dtrd8 _ (by decide) rfl e.symm
    · exact h .pp4b _ (by decide) rfl e.symm
    · exact h .se _ (by decide) rfl e.symm
    · exact h .be _ (by decide) rfl e.symm
    · exact h .ce _ (by decide) rfl e.symm
  · rintro h c r hc hr rfl
    cases c
    case rdcr => exact hc rfl
    all_goals
      cases hr
      simp at h

/-- RDCR.L is well formed where the configuration has the row and its opcode names it (log 30). -/
theorem rdcrLegacyOk_iff {cfg : Cfg} :
    cfg.rdcrLegacyOk = true ↔
      ∃ r, cfg.rdcr = some r ∧ findCommand cfg .legacy (r.l.setWidth 16) = some .rdcr := by
  unfold Cfg.rdcrLegacyOk
  cases hr : cfg.rdcr with
  | none => simp
  | some r =>
    have widened : r.l.setWidth 16 ∈ [(0x06 : BitVec 8), 0x66, 0x99, 0x05, 0x71, 0x72, 0x9F].map (BitVec.setWidth 16) ↔
        r.l ∈ [0x06, 0x66, 0x99, 0x05, 0x71, 0x72, 0x9F] := by
      refine List.mem_map_of_injective fun a b hab => ?_
      simp only [← BitVec.toNat_inj, BitVec.toNat_setWidth] at hab ⊢
      omega
    rw [show [(0x06 : BitVec 8), 0x66, 0x99, 0x05, 0x71, 0x72, 0x9F].map (BitVec.setWidth 16) =
      [(0x06 : BitVec 16), 0x66, 0x99, 0x05, 0x71, 0x72, 0x9F] from rfl] at widened
    rw [Bool.not_eq_true', ← Bool.not_eq_true, List.contains_iff_mem, ← widened]
    simp only [findCommand_eq_rdcr_iff, not_legacy_opcode_iff, catalog_legacy_rdcr hr, Option.some.injEq,
      exists_eq_left', true_and]

/-- RDCR.O is well formed where the configuration has the row and its opcode names it (log 30). -/
theorem rdcrOctalOk_iff {cfg : Cfg} :
    cfg.rdcrOctalOk = true ↔ ∃ r, cfg.rdcr = some r ∧ findCommand cfg .octal r.o = some .rdcr := by
  unfold Cfg.rdcrOctalOk
  cases hr : cfg.rdcr with
  | none => simp
  | some r =>
    rw [Bool.not_eq_true', ← Bool.not_eq_true, List.contains_iff_mem]
    simp only [findCommand_eq_rdcr_iff, not_octal_opcode_iff, catalog_octal_rdcr hr, Option.some.injEq,
      exists_eq_left', true_and]

/-! ## Transactions -/

/-- The commands whose rows have an operand address (40_command_catalog.md R122, R123). -/
def takesAddress (c : Cmd) : Bool := [Cmd.rdcr2, .wrcr2, .dtrd8, .pp4b, .se, .be].contains c

theorem catalog_not_operand {cfg : Cfg} {m : Mode} {c : Cmd} {r : Row} (h : catalog cfg m c = some r)
    (hc : takesAddress c = false) : r.ak ≠ .operand := by
  have fixed (p : Option Word) : fixedKind p ≠ .operand := by cases p <;> simp [fixedKind]
  cases c
  case rdcr2 | wrcr2 | dtrd8 | pp4b | se | be => cases hc
  case rdcr =>
    cases m <;> obtain ⟨q, -, rfl⟩ := Option.map_eq_some_iff.1 h
    · simp
    · exact fixed q.oAddr
  all_goals
    cases m <;> cases h <;> simp [fixed]

/-- The builder looks at the address of a command only where its row has an operand address (R144). -/
theorem build_congr_address (cfg : Cfg) {c : Cmd} (m : Mode) {a b : Word} (n : Word)
    (h : b = a ∨ takesAddress c = false) : build cfg c m b n = build cfg c m a n := by
  rcases h with rfl | hc
  · rfl
  rw [build_eq, build_eq]
  refine Option.map_congr fun r hr => ?_
  have hk := catalog_not_operand hr hc
  unfold Row.describe
  cases hak : r.ak with
  | operand => exact absurd hak hk
  | none => rfl
  | const k => rfl

/-- The instruction that is assembled has the transaction it is assembled from, its address where the command has an
operand. -/
theorem assemble_transaction {cfg : Cfg} {m : Mode} {c : Cmd} {a n : Word} {data : List Byte} {i : Instr}
    (h : assemble cfg m c a n.toNat data = .ok i) :
    ∃ b, i.transaction cfg = some (c, m, b, n.toNat, data) ∧ (b = a ∨ takesAddress c = false) := by
  cases m <;> cases c <;>
    simp only [assemble, whenPhase_eq_ok, reduceCtorEq, Bool.and_eq_true, beq_iff_eq, List.isEmpty_iff] at h <;>
    obtain ⟨⟨hd, hn⟩, rfl⟩ := h
  case legacy.wrcr2 =>
    exact ⟨a, by rw [Instr.transaction, hn, ← widen_length cfg (byteAt data 0), ← hd], .inl rfl⟩
  case octal.wrcr2 =>
    exact ⟨a, by rw [Instr.transaction, hn, ← widen_length cfg (byteAt data 0), ← hd], .inl rfl⟩
  case octal.dtrd8 => exact ⟨a, by simp [Instr.transaction, hd], .inl rfl⟩
  case octal.pp4b => exact ⟨a, by rw [Instr.transaction, hd], .inl rfl⟩
  case legacy.rdcr2 | octal.rdcr2 | octal.se | octal.be => exact ⟨a, by rw [Instr.transaction, hd, hn], .inl rfl⟩
  all_goals exact ⟨0, by rw [Instr.transaction, hd, hn], .inr rfl⟩

/-- What is assembled is well formed, if the RDCR row has an opcode of its own. -/
theorem assemble_wellFormed {cfg : Cfg} {m : Mode} {c : Cmd} {a n : Word} {data : List Byte} {i : Instr}
    (h : assemble cfg m c a n.toNat data = .ok i)
    (hl : c = .rdcr → m = .legacy → cfg.rdcrLegacyOk = true) (ho : c = .rdcr → m = .octal → cfg.rdcrOctalOk = true) :
    i.wellFormed cfg = true := by
  cases m <;> cases c <;>
    simp only [assemble, whenPhase_eq_ok, reduceCtorEq, Bool.and_eq_true, beq_iff_eq] at h <;>
    obtain ⟨⟨hd, hn⟩, rfl⟩ := h
  case legacy.rdcr => exact hl rfl rfl
  case octal.rdcr => exact ho rfl rfl
  case octal.dtrd8 => simpa [Instr.wellFormed] using hn
  case octal.pp4b =>
    rw [Instr.wellFormed, hd]
    exact hn
  all_goals rfl

theorem pageOk_iff (a : Word) (n : Nat) : pageOk a n = true ↔ 1 ≤ n ∧ n ≤ 256 - a.toNat % 256 := by
  simp [pageOk]

/-- RDID is the one row with a single-rate data phase in Octal mode (40_command_catalog.md R125). -/
theorem singleRate_octal (cfg : Cfg) {c : Cmd} (hc : c ≠ .rdid) : singleRate cfg .octal c = false := by
  unfold singleRate
  cases hr : catalog cfg .octal c with
  | none => rfl
  | some r => exact catalog_octal_dstr hr hc

@[simp] theorem wireLen_octal (cfg : Cfg) {c : Cmd} (hc : c ≠ .rdid) (k : Nat) :
    wireLen cfg c .octal k = k + k % 2 := wireLen_octal_double k (singleRate_octal cfg hc)

/-- A well-formed wire command is assembled from the transaction it has, as the builder carries it. -/
theorem assemble_of_transaction {cfg : Cfg} {m : Mode} {c : Cmd} {a : Word} {n : Nat} {data : List Byte} {i : Instr}
    {td : TD} (hi : i.transaction cfg = some (c, m, a, n, data)) (hwf : i.wellFormed cfg = true)
    (hb : build cfg c m a (BitVec.ofNat 32 n) = some td) :
    assemble cfg m c td.addr td.dlen.toNat data = .ok i := by
  obtain ⟨r, hr, rfl⟩ := build_some hb
  cases i <;> simp only [Instr.transaction, reduceCtorEq, Option.some.injEq, Prod.mk.injEq] at hi <;>
    obtain ⟨rfl, rfl, rfl, rfl, rfl⟩ := hi
  case rdcrL | rdcrO =>
    obtain ⟨q, -, rfl⟩ := Option.map_eq_some_iff.1 hr
    simp [assemble, whenPhase_eq_ok, Row.describe]
  case wrcr2L | wrcr2O =>
    cases hr
    simp [assemble, whenPhase_eq_ok, Row.describe, widen, byteAt]
  case dtrd8O len =>
    cases hr
    have hlen : 1 ≤ len.toNat := of_decide_eq_true hwf
    simp [assemble, whenPhase_eq_ok, Row.describe, hlen]
  case pp4bO addr data =>
    cases hr
    have hpage : pageOk addr data.length = true := hwf
    have hlen : data.length % 4294967296 = data.length := by
      rw [pageOk_iff] at hpage
      omega
    simp [assemble, whenPhase_eq_ok, Row.describe, hlen, hpage]
  all_goals
    cases hr
    rfl
/-! ## Packed descriptors -/

@[simp] theorem OpSize.bit_ofBit (b : Bool) : OpSize.bit (OpSize.ofBit b) = BitVec.ofBool b := by cases b <;> rfl
@[simp] theorem Lines.bit_ofBit (b : Bool) : Lines.bit (Lines.ofBit b) = BitVec.ofBool b := by cases b <;> rfl
@[simp] theorem Rate.bit_ofBit (b : Bool) : Rate.bit (Rate.ofBit b) = BitVec.ofBool b := by cases b <;> rfl

theorem Dir.bits_of_ofBits {b : BitVec 2} {d : Dir} (h : Dir.ofBits b = some d) : Dir.bits d = b := by
  unfold Dir.ofBits at h
  split at h
  · next hb => cases h; exact hb.symm
  · split at h
    · next hb => cases h; exact hb.symm
    · split at h
      · next hb => cases h; exact hb.symm
      · cases h

/-- What a packed form stands for: bit 26 is 0, `dd` is a code, and every other field is read off at its place. -/
theorem unpack_some {p : Packed} {td : TD} (h : p.unpack = some td) :
    p.t0.getLsbD 26 = false ∧ Dir.bits td.dd = p.t0.extractLsb' 22 2 ∧
      td = { opcode := p.t0.extractLsb' 0 16
             isz := OpSize.ofBit (p.t0.getLsbD 16)
             iw := Lines.ofBit (p.t0.getLsbD 17)
             ir := Rate.ofBit (p.t0.getLsbD 18)
             ap := p.t0.getLsbD 19
             aw := Lines.ofBit (p.t0.getLsbD 20)
             ar := Rate.ofBit (p.t0.getLsbD 21)
             addr := p.t1
             dd := td.dd
             dw := Lines.ofBit (p.t0.getLsbD 24)
             dr := Rate.ofBit (p.t0.getLsbD 25)
             dlen := p.t2
             dummy := p.t0.extractLsb' 27 5 } := by
  unfold Packed.unpack at h
  split at h
  · cases h
  · next h26 =>
    obtain ⟨dd, hdd, rfl⟩ := Option.map_eq_some_iff.1 h
    exact ⟨by simpa using h26, Dir.bits_of_ofBits hdd, rfl⟩

/-- A packed form is the packed form of the descriptor it stands for: no bit of it is free. -/
theorem pack_of_unpack {p : Packed} {td : TD} (h : p.unpack = some td) : td.pack = p := by
  obtain ⟨h26, hdd, e⟩ := unpack_some h
  have ht0 : td.t0 = p.t0 := by
    ext i hi
    have hbit : p.t0[i] = p.t0.getLsbD i := (BitVec.getLsbD_eq_getElem hi).symm
    rw [TD.getElem_t0, hdd, hbit, e]
    have single {b : Bool} {j k : Nat} (hj : ¬ j < k) (hk : j < k + 1) (hb : b = p.t0.getLsbD k) :
        (BitVec.ofBool b).getLsbD (j - k) = p.t0.getLsbD j := by
      obtain rfl : j = k := by omega
      simp [hb]
    simp only [OpSize.bit_ofBit, Lines.bit_ofBit, Rate.bit_ofBit]
    split
    · next h16 => simp [h16]
    split
    · exact single ‹_› ‹_› rfl
    split
    · exact single ‹_› ‹_› rfl
    split
    · exact single ‹_› ‹_› rfl
    split
    · exact single ‹_› ‹_› rfl
    split
    · exact single ‹_› ‹_› rfl
    split
    · exact single ‹_› ‹_› rfl
    split
    · next h22 h24 =>
      rw [BitVec.getLsbD_extractLsb', Nat.add_sub_cancel' (by omega)]
      simp
      omega
    split
    · exact single ‹_› ‹_› rfl
    split
    · exact single ‹_› ‹_› rfl
    split
    · next h26' h27 =>
      obtain rfl : i = 26 := by omega
      exact h26.symm
    · next h27 =>
      rw [BitVec.getLsbD_extractLsb', Nat.add_sub_cancel' (by omega)]
      simp
      omega
  rw [TD.pack, ht0, e]


/-! ## Decode and encode -/

theorem encode_of_transaction {cfg : Cfg} {i : Instr} {t : Cmd × Mode × Word × Nat × List Byte}
    (h : i.transaction cfg = some t) : encode cfg i = encodeTransaction cfg t := by
  cases i
  case init | readId | readStatus | readCfg | readCfg2 | writeCfg2 | read | program | eraseSector | eraseBlock
    | eraseChip | mmapEnable | mmapDisable | reservedHop0 | reservedHopE | reservedHopF => cases h
  all_goals
    rw [encode, h]
    rfl

/-- The builder has a row for every well-formed wire command. -/
theorem build_of_wellFormed {cfg : Cfg} {i : Instr} {c : Cmd} {m : Mode} {a : Word} {n : Nat} {data : List Byte}
    (hi : i.transaction cfg = some (c, m, a, n, data)) (hwf : i.wellFormed cfg = true) :
    ∃ td, build cfg c m a (BitVec.ofNat 32 n) = some td := by
  cases i <;> cases hi
  case rdcrL =>
    obtain ⟨r, hr⟩ := Laws.rdcr_of_ok (.inl hwf)
    exact ⟨_, build_of_row _ _ (catalog_legacy_rdcr hr)⟩
  case rdcrO =>
    obtain ⟨r, hr⟩ := Laws.rdcr_of_ok (.inr hwf)
    exact ⟨_, build_of_row _ _ (catalog_octal_rdcr hr)⟩
  all_goals exact ⟨_, rfl⟩

/-- The opcode of a built descriptor and its mode name the command, if it is well formed. -/
theorem findCommand_of_wellFormed {cfg : Cfg} {i : Instr} {c : Cmd} {m : Mode} {a : Word} {n : Nat} {data : List Byte}
    {td : TD} (hi : i.transaction cfg = some (c, m, a, n, data)) (hwf : i.wellFormed cfg = true)
    (hb : build cfg c m a (BitVec.ofNat 32 n) = some td) : findCommand cfg m td.opcode = some c := by
  obtain ⟨r, hr, rfl⟩ := build_some hb
  rcases eq_or_ne c .rdcr with rfl | hc
  · cases i <;> cases hi
    case inl.rdcrL.refl =>
      obtain ⟨q, hq, hfind⟩ := rdcrLegacyOk_iff.1 hwf
      rw [catalog_legacy_rdcr hq] at hr
      cases hr
      exact hfind
    case inl.rdcrO.refl =>
      obtain ⟨q, hq, hfind⟩ := rdcrOctalOk_iff.1 hwf
      rw [catalog_octal_rdcr hq] at hr
      cases hr
      exact hfind
  · exact findCommand_row hr hc

/-- The opcode length of a built descriptor tells the mode it was built for (30_encoding.md R105). -/
theorem opcodeMode_of_build {cfg : Cfg} {c : Cmd} {m : Mode} {a n : Word} {td : TD} (hb : build cfg c m a n = some td) :
    opcodeMode td.isz = m := by
  obtain ⟨r, -, rfl⟩ := build_some hb
  cases m <;> rfl

/-- A well-formed wire command has words, the packed descriptor and the data of its transaction, that decode to it. -/
theorem decode_encode_wire {cfg : Cfg} {i : Instr} {c : Cmd} {m : Mode} {a : Word} {n : Nat} {data : List Byte}
    (hi : i.transaction cfg = some (c, m, a, n, data)) (hwf : i.wellFormed cfg = true) :
    ∃ w, encode cfg i = some w ∧ decode cfg w = .ok i := by
  obtain ⟨td, hb⟩ := build_of_wellFormed hi hwf
  refine ⟨.wire td.pack data, by simp [encode_of_transaction hi, encodeTransaction, hb], ?_⟩
  rw [decode_wire_iff]
  refine ⟨td, c, td.unpack_pack, ?_⟩
  rw [opcodeMode_of_build hb]
  exact ⟨findCommand_of_wellFormed hi hwf hb, build_again hb, assemble_of_transaction hi hwf hb⟩

/-- A host operation has words that decode to it, the data stream of a PROGRAM being of its length. -/
theorem decode_encode_host {cfg : Cfg} {i : Instr} (hi : i.transaction cfg = none) (hwf : i.wellFormed cfg = true) :
    ∃ w, encode cfg i = some w ∧ decode cfg w = .ok i := by
  cases i <;> simp only [Instr.transaction, reduceCtorEq] at hi <;> refine ⟨_, rfl, ?_⟩ <;> rw [decode]
  case program addr len wdata =>
    have hlen : wdata.length = len.toNat := of_decide_eq_true hwf
    rw [decodeHost_packW0 (by decide) (by decide) (by decide)]
    simp [decodeOperation, hlen]
  case reservedHop0 | reservedHopE | reservedHopF => rfl
  all_goals
    rw [decodeHost_packW0 (by decide) (by decide) (by decide)]
    rfl

/-- Settles O2: a wire command by its transaction, a host operation by the fields of its request word. -/
theorem decodeEncodeAgree : Obligations.DecodeEncodeAgree := by
  unfold Obligations.DecodeEncodeAgree
  intro cfg i hwf
  cases hi : i.transaction cfg with
  | none => exact decode_encode_host hi hwf
  | some t => exact decode_encode_wire (data := t.2.2.2.2) hi hwf

/-- Settles O3: the instruction has the transaction it is assembled from, the builder makes the same descriptor of it,
and the packed form of that is the words decoded. -/
theorem wireWordsHaveOneMeaning : Obligations.WireWordsHaveOneMeaning := by
  unfold Obligations.WireWordsHaveOneMeaning
  intro cfg p data i h
  obtain ⟨td, c, hu, -, hb, ha⟩ := decode_wire_iff.1 h
  obtain ⟨b, hi, haddr⟩ := assemble_transaction ha
  rw [encode_of_transaction hi, encodeTransaction, BitVec.ofNat_toNat, BitVec.setWidth_eq,
    build_congr_address cfg _ _ haddr, hb, Option.map_some, pack_of_unpack hu]

/-- What the operation fields decode to is well formed: the one check, of PROGRAM's stream, is the decoder's. -/
theorem decodeOperation_wellFormed {h : BitVec 4} {v : Byte} {addr len : Word} {wdata : List Byte} {cfg : Cfg} :
    ∀ i, decodeOperation h v addr len wdata = .ok i → i.wellFormed cfg = true := by
  have leaf (i : Instr) (hi : i.wellFormed cfg = true) :
      ∀ j, (Except.ok i : Except DecodeError Instr) = .ok j → j.wellFormed cfg = true := by
    rintro j ⟨⟩
    exact hi
  unfold decodeOperation
  repeat refine ok_ite (leaf _ rfl) ?_
  refine ok_ite (fun i hi => ?_) ?_
  · split at hi
    · next hlen =>
      cases hi
      exact decide_eq_true hlen
    · cases hi
  repeat refine ok_ite (leaf _ rfl) ?_
  exact leaf _ rfl

theorem decodeHost_wellFormed {w0 w1 w2 : Word} {wdata : List Byte} {cfg : Cfg} {i : Instr}
    (h : decodeHost w0 w1 w2 wdata = .ok i) : i.wellFormed cfg = true := by
  unfold decodeHost at h
  split at h
  · cases h; rfl
  · split at h
    · cases h; rfl
    · split at h
      · cases h; rfl
      · split at h
        · cases h
        · exact decodeOperation_wellFormed i h

/-- Wire words decode to RDCR only where its row has an opcode of its own (log 30). -/
theorem decode_wire_wellFormed {cfg : Cfg} {p : Packed} {data : List Byte} {i : Instr}
    (h : decode cfg (.wire p data) = .ok i) : i.wellFormed cfg = true := by
  obtain ⟨td, c, -, hfind, -, ha⟩ := decode_wire_iff.1 h
  refine assemble_wellFormed ha ?_ ?_
  · rintro rfl hm
    rw [hm] at hfind
    obtain ⟨r, hr, hop⟩ := findCommand_some hfind
    obtain ⟨q, hq, rfl⟩ := Option.map_eq_some_iff.1 hr
    exact rdcrLegacyOk_iff.2 ⟨q, hq, by rw [← hfind, ← hop]⟩
  · rintro rfl hm
    rw [hm] at hfind
    obtain ⟨r, hr, hop⟩ := findCommand_some hfind
    obtain ⟨q, hq, rfl⟩ := Option.map_eq_some_iff.1 hr
    exact rdcrOctalOk_iff.2 ⟨q, hq, by rw [← hfind, ← hop]⟩

/-- Settles O4: a request by `decodeHost_wellFormed`, wire words by `decode_wire_wellFormed`. -/
theorem decodedIsWellFormed : Obligations.DecodedIsWellFormed := by
  unfold Obligations.DecodedIsWellFormed
  intro cfg w i h
  cases w with
  | host w0 w1 w2 wdata => exact decodeHost_wellFormed h
  | wire p data => exact decode_wire_wellFormed h

/-- Settles O1: each word is decoded by evaluation. -/
theorem specWordsDecode : Obligations.SpecWordsDecode := by
  unfold Obligations.SpecWordsDecode
  exact ⟨rfl, rfl, rfl, rfl, rfl, rfl, rfl, rfl, rfl, rfl, rfl, rfl⟩

/-! ## The call of a wire command -/

/-- A well-formed wire command of the engine's mode makes its call: it is no violation. -/
theorem WireResult.call_of_wellFormed {s t : State} {i : Instr} {c : Cmd} {m : Mode} {a : Word} {n : Nat}
    {data : List Byte} (h : WireResult s t c m a n data) (hi : i.transaction s.cfg = some (c, m, a, n, data))
    (hwf : i.wellFormed s.cfg = true) (hm : s.mode = m) :
    ∃ td, build s.cfg c m a (BitVec.ofNat 32 n) = some td ∧
      t.trace = s.trace ++ [(callOf td data, s.answerTo (callOf td data))] := by
  cases h with
  | failed td e _ hb _ _ ht => exact ⟨td, hb, by rw [ht]; rfl⟩
  | done td bs v l _ hb _ _ _ ht => exact ⟨td, hb, by rw [ht]; rfl⟩
  | violation v hv _ =>
    exfalso
    obtain ⟨td, hb⟩ := build_of_wellFormed hi hwf
    obtain ⟨r, hr, -⟩ := build_some hb
    rcases hv with hne | hrow | ⟨rfl, hpage⟩
    · exact hne hm.symm
    · rw [hrow] at hr
      cases hr
    · cases i <;> cases hi
      exact absurd (hpage.symm.trans hwf) Bool.false_ne_true

/-- A wire command writes data only in a write phase. -/
theorem data_nil_of_transaction {cfg : Cfg} {i : Instr} {c : Cmd} {m : Mode} {a : Word} {n : Nat} {data : List Byte}
    {td : TD} (hi : i.transaction cfg = some (c, m, a, n, data)) (hb : build cfg c m a (BitVec.ofNat 32 n) = some td)
    (hdd : td.dd ≠ .write) : data = [] := by
  rw [build_dd hb] at hdd
  cases i <;> cases hi
  case wrcr2L | wrcr2O | pp4bO => exact absurd rfl hdd
  all_goals rfl

theorem transaction_callOf {td : TD} {data : List Byte} (h : td.dd ≠ .write → data = []) :
    (callOf td data).transaction = some (td, data) := by
  unfold callOf
  cases hd : td.dd
  case write => rfl
  all_goals
    rw [h (by simp [hd])]
    rfl

/-- Settles O30: a well-formed command of the mode makes its call, and the words it encodes to are those of the
descriptor and the data of that call. -/
theorem wireCommandIsItsWords : Obligations.WireCommandIsItsWords := by
  unfold Obligations.WireCommandIsItsWords
  intro s i m c a n data hi hwf hm
  obtain ⟨t, ht, hres⟩ := exec_wire hi
  obtain ⟨td, hb, htrace⟩ := hres.call_of_wellFormed hi hwf hm
  refine ⟨t, callOf td data, td, ht, htrace, transaction_callOf (data_nil_of_transaction hi hb), ?_⟩
  rw [encode_of_transaction hi, encodeTransaction, hb, Option.map_some]

end Sys2Proof.Machine

/-! The shape of transport calls (30_encoding.md R104; 41_transaction_builder.md R148; 42_register_access.md R172): the
call that carries a built transaction is well shaped, and a step makes no other bus call. -/

namespace Sys2Proof.Machine

/-! ## The transaction of an instruction -/

/-- A register-class transaction in Octal mode moves two bytes (42_register_access.md R161, R163). -/
theorem transaction_register_length {cfg : Cfg} {i : Instr} {c : Cmd} {a : Word} {n : Nat} {data : List Byte}
    (hi : i.transaction cfg = some (c, .octal, a, n, data)) (hc : c ∈ [Cmd.rdsr, .rdcr2, .wrcr2, .rdcr]) : n = 2 := by
  cases i <;> cases hi
  case rdsrO | rdcr2O | wrcr2O | rdcrO => exact wireLen_octal cfg (by decide) 1
  all_goals exact absurd hc (by decide)

/-- The data of a write is the data phase of its transaction (R163; 44_array_access.md R203). -/
theorem transaction_write_length {cfg : Cfg} {i : Instr} {c : Cmd} {m : Mode} {a : Word} {n : Nat} {data : List Byte}
    (hi : i.transaction cfg = some (c, m, a, n, data)) (hc : c ∈ [Cmd.wrcr2, .pp4b]) : data.length = n := by
  cases i <;> cases hi
  case wrcr2L | wrcr2O => exact widen_length cfg _ _
  case pp4bO => rfl
  all_goals exact absurd hc (by decide)

/-- The length of a write fits the 32 bits of its descriptor, if a page program stays in its page. -/
theorem transaction_write_length_lt {cfg : Cfg} {i : Instr} {c : Cmd} {m : Mode} {a : Word} {n : Nat}
    {data : List Byte} (hi : i.transaction cfg = some (c, m, a, n, data)) (hc : c ∈ [Cmd.wrcr2, .pp4b])
    (hp : c = .pp4b → pageOk a data.length = true) : n < 2 ^ 32 := by
  rw [← transaction_write_length hi hc]
  cases i <;> cases hi
  case wrcr2L | wrcr2O => simp [widen]
  case pp4bO =>
    have := (pageOk_iff _ _).1 (hp rfl)
    omega
  all_goals exact absurd hc (by decide)

/-! ## The built descriptor -/

/-- A described row has the profile of its mode, if of the Octal rows only that of RDID is single-rate. -/
theorem describe_profile {r : Row} {m : Mode} (a n : Word) (h : m = .octal → r.dstr = true → r.opcode = 0x9F60) :
    (r.describe m a n).profile = true := by
  cases m with
  | legacy => simp [TD.profile, Row.describe, Mode.opSize, Mode.lines, Mode.rate, dataRate_legacy]
  | octal =>
    by_cases hak : r.ak = .none <;> by_cases hdd : r.dd = .none <;> cases hs : r.dstr <;>
      simp_all [TD.profile, Row.describe, Mode.opSize, Mode.lines, Mode.rate, dataRate]

theorem build_profile {cfg : Cfg} {c : Cmd} {m : Mode} {a n : Word} {td : TD} (hb : build cfg c m a n = some td) :
    td.profile = true := by
  obtain ⟨r, hr, rfl⟩ := build_some hb
  refine describe_profile a n ?_
  rintro rfl hd
  rcases eq_or_ne c .rdid with rfl | hc
  · cases hr
    rfl
  · rw [catalog_octal_dstr hr hc] at hd
    cases hd

theorem build_normal {cfg : Cfg} {c : Cmd} {m : Mode} {a n : Word} {td : TD} (hb : build cfg c m a n = some td) :
    td.normal = true := (builtDescriptorProfiles cfg c m a n td hb).1

/-- The length of a data phase is the caller's (R145). -/
theorem build_dlen {cfg : Cfg} {c : Cmd} {m : Mode} {a n : Word} {td : TD} (hb : build cfg c m a n = some td)
    (hd : td.dd ≠ .none) : td.dlen = n := by
  obtain ⟨r, -, rfl⟩ := build_some hb
  exact (describe_data_present m a n hd).2.2.1

/-- An operand address is sent unchanged (R144). -/
theorem build_addr {cfg : Cfg} {c : Cmd} {m : Mode} {a n : Word} {td : TD} (hb : build cfg c m a n = some td)
    (hc : takesAddress c = true) : td.addr = a := by
  obtain ⟨r, hr, rfl⟩ := build_some hb
  refine describe_addr_operand m a n ?_
  cases c <;> cases hc <;> cases m <;> cases hr <;> rfl

/-- A register-class transaction in Octal mode has an even data phase (42_register_access.md R172). -/
theorem build_evenRegister {cfg : Cfg} {i : Instr} {c : Cmd} {m : Mode} {a : Word} {n : Nat} {data : List Byte}
    {td : TD} (hi : i.transaction cfg = some (c, m, a, n, data)) (hb : build cfg c m a (BitVec.ofNat 32 n) = some td)
    (hd : td.dd ≠ .none) : td.evenRegister cfg = true := by
  have hlen := build_dlen hb hd
  obtain ⟨r, hr, rfl⟩ := build_some hb
  cases m with
  | legacy => rfl
  | octal =>
    by_cases hc : c ∈ [Cmd.rdsr, .rdcr2, .wrcr2, .rdcr]
    · obtain rfl := transaction_register_length hi hc
      simp [TD.evenRegister, hlen]
    · have hother : registerOpcode cfg r.opcode = false := by
        cases c
        case rdsr | rdcr2 | wrcr2 | rdcr => simp at hc
        all_goals
          cases hr
          exact registerOpcode_other cfg (by simp)
      simp only [TD.evenRegister, Row.describe, hother]
      simp

/-- The call that carries a built transaction is well shaped, if a page program stays in its page. -/
theorem callOf_wellShaped {cfg : Cfg} {i : Instr} {c : Cmd} {m : Mode} {a : Word} {n : Nat} {data : List Byte} {td : TD}
    (hi : i.transaction cfg = some (c, m, a, n, data)) (hb : build cfg c m a (BitVec.ofNat 32 n) = some td)
    (hp : c = .pp4b → pageOk a data.length = true) : (callOf td data).wellShaped cfg = true := by
  have hnormal := build_normal hb
  have hprofile := build_profile hb
  unfold callOf
  cases hd : td.dd with
  | none => simp [Call.wellShaped, hnormal, hprofile, hd]
  | read =>
    have heven := build_evenRegister hi hb (by simp [hd])
    simp [Call.wellShaped, hnormal, hprofile, heven, hd]
  | write =>
    have heven := build_evenRegister hi hb (by simp [hd])
    have hc : c ∈ [Cmd.wrcr2, .pp4b] := by
      have hdir := build_dd hb
      rw [hd] at hdir
      cases c <;> simp at hdir ⊢
    have hlen : data.length = td.dlen.toNat := by
      rw [build_dlen hb (by simp [hd]), BitVec.toNat_ofNat,
        Nat.mod_eq_of_lt (transaction_write_length_lt hi hc hp), transaction_write_length hi hc]
    have hpage : td.opcode ≠ 0x12ED ∨ pageOk td.addr data.length = true := by
      simp only [List.mem_cons, List.not_mem_nil, or_false] at hc
      rcases hc with rfl | rfl
      · left
        cases m <;> cases hb <;> simp [Row.describe]
      · right
        rw [build_addr hb rfl]
        exact hp rfl
    simp [Call.wellShaped, hnormal, hprofile, heven, hd, hlen]
    simpa [hlen] using hpage

/-! ## One step -/

/-- The transport call of a step: there is none; it is the bus transaction of the wire command the state issues; or it
is one of the two window calls (10_state.md R30). -/
inductive StepCalls (s t : State) : Prop where
  | silent (htrace : t.trace = s.trace) (henv : t.env = s.env)
  | bus (i : Instr) (c : Cmd) (a : Word) (n : Nat) (data : List Byte) (td : TD)
      (hq : s.prepare.issue = some (.command i)) (hi : i.transaction s.cfg = some (c, s.mode, a, n, data))
      (hb : build s.cfg c s.mode a (BitVec.ofNat 32 n) = some td) (hp : c = .pp4b → pageOk a data.length = true)
      (htrace : t.trace = s.trace ++ [(callOf td data, s.answerTo (callOf td data))])
      (henv : t.env = s.env.next s.cfg s.trace (callOf td data))
  | window (c : Call) (hc : c = .mmapEnable (templateRead s.cfg) (templateWrite s.cfg) ∨ c = .mmapDisable)
      (hs : s.seq = .mmEn ∨ s.seq = .mmDis) (htrace : t.trace = s.trace ++ [(c, s.answerTo c)])
      (henv : t.env = s.env.next s.cfg s.trace c)

theorem advance_env (s : State) : s.advance.env = s.env := by rw [advance_frame]

theorem advance_cfg (s : State) : s.advance.cfg = s.cfg := by rw [advance_frame]

@[simp] theorem programSplit_env (s : State) : s.programSplit.env = s.env := by
  unfold State.programSplit
  split
  · rfl
  · split <;> rfl

@[simp] theorem programSplit_cfg (s : State) : s.programSplit.cfg = s.cfg := by
  unfold State.programSplit
  split
  · rfl
  · split <;> rfl

/-- Whatever its answer, MM_EN has made the call with the two templates. -/
theorem windowEnable_calls (s : State) :
    s.windowEnable.trace = (s.called (.mmapEnable (templateRead s.cfg) (templateWrite s.cfg))).trace ∧
      s.windowEnable.env = (s.called (.mmapEnable (templateRead s.cfg) (templateWrite s.cfg))).env ∧
      s.windowEnable.cfg = s.cfg := by
  rcases attempt_cases s (.mmapEnable (templateRead s.cfg) (templateWrite s.cfg))
      (fun _ t => ({ t with mmapEn := true } : State).respondOk 0 []) with ⟨_, _, e⟩ | ⟨_, _, e⟩ <;>
    rw [State.windowEnable, e] <;> exact ⟨rfl, rfl, rfl⟩

/-- A host operation or reserved code leaves the environment and the configuration alone. -/
theorem exec_host_env {s t : State} {i : Instr} (hs : s.seq = .idle) (hi : i.transaction s.cfg = none)
    (h : exec i s = .next t) : t.env = s.env ∧ t.cfg = s.cfg := by
  rcases exec_host hs hi h with ⟨v, e⟩ | ⟨_, _, e⟩ <;> rw [e] <;> exact ⟨rfl, rfl⟩

theorem step_calls {s t : State} (h : step s = .next t) : StepCalls s t := by
  cases hr : s.rst
  case true =>
    rw [step_reset hr] at h
    cases h
    exact .silent rfl rfl
  case false =>
    rcases step_next hr h with ⟨i, c, a, n, data, hq, hi, hw⟩ | ⟨_, e⟩ | ⟨_, e⟩ | ⟨_, e⟩ | ⟨_, e⟩ | ⟨_, e⟩ | ⟨hs, e⟩ |
      ⟨hs, e⟩ | ⟨_, e⟩ | ⟨r, rest, i, hs, _, _, hi, hx⟩ | ⟨_, _, _, _, _, e⟩
    · rcases hw with ⟨v, _, e⟩ | ⟨td, e, hb, hp, _, ht⟩ | ⟨td, bs, v, l, hb, hp, _, _, ht⟩
      · exact .silent (by simp [e]) (by simp [e])
      · exact .bus i c a n data td hq hi hb hp (by simp [ht]) (by simp [ht])
      · exact .bus i c a n data td hq hi hb hp (by simp [ht, advance_trace]) (by simp [ht, advance_env])
    · exact .silent (by simp [e]) (by simp [e])
    · exact .silent (by simp [e]) (by simp [e])
    · exact .silent (by simp [e]) (by simp [e])
    · exact .silent (by simp [e]) (by simp [e])
    · exact .silent (by simp [e]) (by simp [e])
    · obtain ⟨htrace, henv, -⟩ := windowEnable_calls s
      exact .window _ (.inl rfl) (.inl hs) (e ▸ htrace) (e ▸ henv)
    · exact .window .mmapDisable (.inr rfl) (.inr hs) (by rw [e]; rfl) (by rw [e]; rfl)
    · exact .silent (by rw [e]) (by rw [e])
    · exact .silent (exec_host_trace (s := { s with host := rest }) hs hi hx)
        (exec_host_env (s := { s with host := rest }) hs hi hx).1
    · exact .silent (by simp [e]) (by simp [e])

/-- No step writes the configuration (log 1). -/
theorem step_cfg {s t : State} (h : step s = .next t) : t.cfg = s.cfg := by
  cases hr : s.rst
  case true =>
    rw [step_reset hr] at h
    cases h
    rfl
  case false =>
    rcases step_next hr h with ⟨_, _, _, _, _, _, _, hw⟩ | ⟨_, e⟩ | ⟨_, e⟩ | ⟨_, e⟩ | ⟨_, e⟩ | ⟨_, e⟩ | ⟨_, e⟩ |
      ⟨_, e⟩ | ⟨_, e⟩ | ⟨r, rest, i, hs, _, _, hi, hx⟩ | ⟨_, _, _, _, _, e⟩
    · rcases hw with ⟨_, _, e⟩ | ⟨_, _, _, _, _, e⟩ | ⟨_, _, _, _, _, _, _, _, e⟩ <;> simp [e, advance_cfg]
    · simp [e]
    · simp [e]
    · simp [e]
    · simp [e]
    · simp [e]
    · exact e ▸ (windowEnable_calls s).2.2
    · rw [e]
      rfl
    · rw [e]
    · exact (exec_host_env (s := { s with host := rest }) hs hi hx).2
    · simp [e]

/-- Settles O51: a step adds no call, the call that carries a built transaction (`callOf_wellShaped`), or a window call,
whose templates are in normal form and of the Octal profile. -/
theorem traceShapedKept : Obligations.TraceShapedKept := by
  unfold Obligations.TraceShapedKept
  intro s t hs h
  have hcfg : t.cfg = s.cfg := step_cfg h
  have added {c : Call} {a : Answer} (htrace : t.trace = s.trace ++ [(c, a)]) (hc : c.wellShaped s.cfg = true) :
      TraceShaped t := by
    unfold TraceShaped at hs ⊢
    simp [htrace, hcfg, hs, hc]
  cases step_calls h with
  | silent htrace _ =>
    unfold TraceShaped
    rw [htrace, hcfg]
    exact hs
  | bus i c a n data td _ hi hb hp htrace _ => exact added htrace (callOf_wellShaped hi hb hp)
  | window c hc _ htrace _ =>
    refine added htrace ?_
    rcases hc with rfl | rfl <;> rfl

/-! ## The chip's memories -/

/-- Memories in canonical form that read alike are equal: the first entries agree, for the lower of two different
addresses would be listed in one memory alone, where an entry is not the fill byte. -/
theorem wfFrom_ext {fill : Byte} {limit lo : Nat} {m n : Memory} (hm : Memory.wfFrom fill limit lo m = true)
    (hn : Memory.wfFrom fill limit lo n = true) (h : ∀ a, Memory.read fill m a = Memory.read fill n a) : m = n := by
  have listed {k lo : Nat} {b : Byte} {m n : Memory} (hb : b ≠ fill) (hn : Memory.wfFrom fill limit lo n = true)
      (hk : k < lo) (h : ∀ a, Memory.read fill ((k, b) :: m) a = Memory.read fill n a) : False := by
    have hread := h k
    rw [read_of_lt hn hk] at hread
    exact hb (by simpa [Memory.read] using hread)
  induction m generalizing lo n with
  | nil =>
    cases n with
    | nil => rfl
    | cons q n =>
      obtain ⟨-, -, hb, -⟩ := wfFrom_cons.1 hn
      exact (listed (lo := q.1 + 1) (n := []) hb rfl (Nat.lt_succ_self _) fun a => (h a).symm).elim
  | cons p m ih =>
    obtain ⟨k, b⟩ := p
    obtain ⟨hlo, hlimit, hb, hrest⟩ := wfFrom_cons.1 hm
    cases n with
    | nil => exact (listed (lo := k + 1) (n := []) hb rfl (Nat.lt_succ_self _) h).elim
    | cons q n =>
      obtain ⟨k', b'⟩ := q
      obtain ⟨hlo', hlimit', hb', hrest'⟩ := wfFrom_cons.1 hn
      rcases Nat.lt_trichotomy k k' with hk | rfl | hk
      · exact (listed hb (wfFrom_cons.2 ⟨le_rfl, hlimit', hb', hrest'⟩) hk h).elim
      · have hhead : b = b' := by simpa [Memory.read] using h k
        have htail : ∀ a, Memory.read fill m a = Memory.read fill n a := by
          intro a
          rcases Nat.lt_or_ge a (k + 1) with ha | ha
          · rw [read_of_lt hrest ha, read_of_lt hrest' ha]
          · have hne : k ≠ a := by omega
            simpa [Memory.read, hne] using h a
        rw [hhead, ih hrest hrest' htail]
      · exact (listed hb' (wfFrom_cons.2 ⟨le_rfl, hlimit, hb, hrest⟩) hk fun a => (h a).symm).elim

/-- Settles O53: a step leaves the environment alone or moves it on by one call, which keeps the canonical form;
`wfFrom_ext` is the second clause. -/
theorem memoryCanonical : Obligations.MemoryCanonical := by
  unfold Obligations.MemoryCanonical
  refine ⟨fun s t hs h => ?_, fun fill limit m n hm hn h => wfFrom_ext hm hn h⟩
  cases step_calls h with
  | silent _ henv => rw [henv]; exact hs
  | bus _ _ _ _ data td _ _ _ _ _ henv => rw [henv]; exact called_wf (callOf td data) hs
  | window c _ _ _ henv => rw [henv]; exact called_wf c hs

end Sys2Proof.Machine

/-! The invariant `Consistent` (10_state.md R23, R25, R31, R32): which moves of the sequencer keep it, and that every
step is made of such moves. -/

namespace Sys2Proof.Machine

/-! ## Moves to IDLE and RESP -/

/-- In IDLE and RESP the invariant speaks of the fault record and of Legacy mode alone. -/
theorem consistent_of_settled {t : State} (hq : t.seq.settledState = true)
    (hrecord : t.fault = false → t.faultCause = 0 ∧ t.faultOp = 0 ∧ t.faultInfo = 0)
    (hlegacy : t.mode = .legacy → t.mmapEn = false ∧ t.initMismatch = false) : Consistent t := by
  obtain hs | hs : t.seq = .idle ∨ t.seq = .resp := by simpa [Seq.settledState] using hq
  all_goals
    exact {
      noFaultNoRecord := hrecord
      faultStops := fun _ => hq
      legacyOnlyInit := fun hm => ⟨.inl hq, hlegacy hm⟩
      octalPastFlip := fun _ => by rw [hs]; rfl
      windowAlone := fun _ => .inl hq
      hopAgrees := by rw [hs]; rfl
      programRegs := by rw [hs]; exact fun h => absurd h (by decide)
      chunkRegs := by rw [hs]; exact fun h => absurd h (by decide)
      rdcrRow := by rw [hs]; exact fun h => absurd h (by decide)
      eraseRange := by rw [hs]; exact fun h => absurd h (by decide) }

namespace Consistent

theorem legacy_flags {s : State} (hc : Consistent s) (hm : s.mode = .legacy) :
    s.mmapEn = false ∧ s.initMismatch = false := (hc.legacyOnlyInit hm).2

/-- Taking an exception: a sticky one sets FAULT, another leaves the record as it is. -/
theorem raise {s : State} (hc : Consistent s) (e : Exn) : Consistent (s.raise e) := by
  refine consistent_of_settled rfl (fun hf => ?_) hc.legacy_flags
  have hnot : s.fault = false ∧ e.sticky = false := by simpa using hf
  simpa [hnot] using hc.noFaultNoRecord hnot.1

theorem refuse {s : State} (hc : Consistent s) (v : Violation) : Consistent (s.refuse v) :=
  consistent_of_settled rfl hc.noFaultNoRecord hc.legacy_flags

theorem respondOk {s : State} (hc : Consistent s) (p : Word) (d : List Byte) : Consistent (s.respondOk p d) :=
  consistent_of_settled rfl hc.noFaultNoRecord hc.legacy_flags

theorem deliver {s : State} (hc : Consistent s) : Consistent s.deliver :=
  consistent_of_settled rfl hc.noFaultNoRecord hc.legacy_flags

end Consistent

theorem engineReset_consistent (s : State) : Consistent s.engineReset :=
  consistent_of_settled rfl (fun _ => ⟨rfl, rfl, rfl⟩) fun _ => ⟨rfl, rfl⟩

/-! ## Moves inside an operation -/

/-- The registers the invariant does not speak of. -/
theorem Consistent.of_unrelated {s : State} (hc : Consistent s) (pollN : Nat) (vOld vNew vRb : Byte)
    (rbuf : List Byte) (host : List Request) (env : Env) (trace : History) :
    Consistent { s with pollN := pollN, vOld := vOld, vNew := vNew, vRb := vRb, rbuf := rbuf, host := host, env := env,
                        trace := trace } where
  noFaultNoRecord := hc.noFaultNoRecord
  faultStops := hc.faultStops
  legacyOnlyInit := hc.legacyOnlyInit
  octalPastFlip := hc.octalPastFlip
  windowAlone := hc.windowAlone
  hopAgrees := hc.hopAgrees
  programRegs hq :=
    have h := hc.programRegs hq
    ⟨h.buffer, h.parts, h.address, h.doneIsOff, h.range⟩
  chunkRegs := hc.chunkRegs
  rdcrRow := hc.rdcrRow
  eraseRange := hc.eraseRange

/-- A state in which an operation other than those of the window runs. -/
def Seq.running (q : Seq) : Bool := !q.settledState && q != .mmEn && q != .mmDis

/-- While an operation runs there is no FAULT and the window is disabled. -/
theorem Consistent.of_running {s : State} (hc : Consistent s) (hq : s.seq.running = true) :
    s.fault = false ∧ s.mmapEn = false := by
  obtain ⟨⟨hsettled, hen⟩, hdis⟩ : (s.seq.settledState = false ∧ s.seq ≠ .mmEn) ∧ s.seq ≠ .mmDis := by
    simpa [Seq.running] using hq
  constructor
  · by_contra hf
    have := hc.faultStops (by simpa using hf)
    simp [hsettled] at this
  · by_contra hm
    rcases hc.windowAlone (by simpa using hm) with h | h | h
    · simp [hsettled] at h
    · exact hen h
    · exact hdis h

/-- `q'` is a later state of the operation of `q`, on the same side of the flip, and asks for no register that `q` does
not ask for. -/
structure Seq.LeadsTo (q q' : Seq) : Prop where
  running : q.running = true
  flip : q'.beforeFlip = q.beforeFlip
  hop : ∀ h, q.hopAgrees h = true → q'.hopAgrees h = true
  program : q'.inProgram = true → q.inProgram = true
  chunk : q'.inChunk = true → q.inChunk = true
  notRdcr : q' ≠ .rcrRd
  erase : q'.inErase = true → q.inErase = true

theorem Consistent.leadsTo {s : State} (hc : Consistent s) {q' : Seq} (hq : s.seq.LeadsTo q') :
    Consistent { s with seq := q' } := by
  obtain ⟨hfault, hwindow⟩ := hc.of_running hq.running
  exact {
    noFaultNoRecord := hc.noFaultNoRecord
    faultStops := fun hf => absurd (hf.symm.trans hfault) (by decide)
    legacyOnlyInit := fun hm => by
      obtain ⟨hrun, hflags⟩ := hc.legacyOnlyInit hm
      refine ⟨.inr ?_, hflags⟩
      rw [hq.flip]
      refine hrun.resolve_left fun h => ?_
      have := hq.running
      simp [Seq.running, h] at this
    octalPastFlip := fun hm => hq.flip.trans (hc.octalPastFlip hm)
    windowAlone := fun hm => absurd (hm.symm.trans hwindow) (by decide)
    hopAgrees := hq.hop _ hc.hopAgrees
    programRegs := fun h =>
      have hregs := hc.programRegs (hq.program h)
      ⟨hregs.buffer, hregs.parts, hregs.address, hregs.doneIsOff, hregs.range⟩
    chunkRegs := fun h => hc.chunkRegs (hq.chunk h)
    rdcrRow := fun h => absurd h hq.notRdcr
    eraseRange := fun h => hc.eraseRange (hq.erase h) }

/-- A completion poll ends, times out or goes on. -/
theorem Consistent.afterPollRead {s : State} (hc : Consistent s) {finish : State → State}
    (hfinish : Consistent (finish { s with pollN := s.pollN + 1 })) : Consistent (s.afterPollRead finish) := by
  have hcounted : Consistent { s with pollN := s.pollN + 1 } := hc.of_unrelated _ _ _ _ _ _ _ _
  rcases afterPollRead_cases s finish with ⟨_, e⟩ | ⟨_, _, e⟩ | ⟨_, _, e⟩ <;> rw [e]
  · exact hfinish
  · exact hcounted.raise _
  · exact hcounted

/-- The end of INIT is in Octal mode, so that INIT_MISMATCH may be written. -/
theorem Consistent.initConclude {s : State} (hc : Consistent s) (hs : s.seq = .initVerify) :
    Consistent s.initConclude := by
  have hoctal : s.mode ≠ .legacy := fun hm => by
    have := (hc.legacyOnlyInit hm).1
    simp [hs, Seq.settledState, Seq.beforeFlip] at this
  unfold State.initConclude
  split
  · exact consistent_of_settled rfl (fun hf => by simp [Exn.sticky] at hf) fun hm => absurd hm hoctal
  · exact consistent_of_settled rfl hc.noFaultNoRecord fun hm => absurd hm hoctal

/-- The moves that `State.advance` makes inside an operation (10_state.md R30), and that of PG_ADV. -/
theorem leadsTo_next {q q' : Seq}
    (h : (q, q') ∈ [(Seq.initRsten, Seq.initRst), (.initRst, .initPoll), (.initPoll, .initRdcr2),
      (.initRdcr2, .initWren), (.initWren, .initWrcr2), (.initWrcr2, .initFlip), (.wc2Wren, .wc2Wr), (.wc2Wr, .wc2Poll),
      (.pgWren, .pgPp), (.pgPp, .pgPoll), (.pgPoll, .pgAdv), (.erWren, .erCmd), (.erCmd, .erPoll),
      (.pgAdv, .pgSplit)]) :
    q.LeadsTo q' := by
  simp only [List.mem_cons, Prod.mk.injEq, List.not_mem_nil, or_false] at h
  rcases h with ⟨rfl, rfl⟩ | ⟨rfl, rfl⟩ | ⟨rfl, rfl⟩ | ⟨rfl, rfl⟩ | ⟨rfl, rfl⟩ | ⟨rfl, rfl⟩ | ⟨rfl, rfl⟩ | ⟨rfl, rfl⟩ |
    ⟨rfl, rfl⟩ | ⟨rfl, rfl⟩ | ⟨rfl, rfl⟩ | ⟨rfl, rfl⟩ | ⟨rfl, rfl⟩ | ⟨rfl, rfl⟩ <;>
    exact ⟨rfl, rfl, fun _ => id, by decide, by decide, by decide, by decide⟩

/-- What the operation in flight does after an `Ok` keeps the invariant. -/
theorem Consistent.advance {s : State} (hc : Consistent s) : Consistent s.advance := by
  have counted (n : Nat) : Consistent { s with pollN := n } := hc.of_unrelated _ _ _ _ _ _ _ _
  unfold State.advance
  split
  case h_1 hs | h_5 hs | h_6 hs | h_12 hs | h_16 hs | h_19 hs => exact hc.leadsTo (leadsTo_next (by simp [hs]))
  case h_2 hs | h_13 hs | h_17 hs | h_20 hs => exact (counted 0).leadsTo (leadsTo_next (by simp [hs]))
  case h_3 hs | h_18 hs => exact hc.afterPollRead ((counted _).leadsTo (leadsTo_next (by simp [hs])))
  case h_14 hs | h_21 hs => exact hc.afterPollRead ((counted _).respondOk _ _)
  case h_4 hs =>
    have hread : Consistent { s with vOld := s.vRb } := hc.of_unrelated _ _ _ _ _ _ _ _
    exact hread.leadsTo (leadsTo_next (by simp [hs]))
  case h_7 hs => exact hc.initConclude hs
  case h_8 | h_9 | h_10 | h_11 | h_15 => exact hc.respondOk _ _
  all_goals exact hc

/-! ## The steps without a call -/

/-- INIT_FLIP passes from Legacy to Octal mode (43_init_sequencer.md R187). -/
theorem Consistent.initFlip {s : State} (hc : Consistent s) (hs : s.seq = .initFlip) : Consistent s.initFlip := by
  obtain ⟨hfault, hwindow⟩ := hc.of_running (by rw [hs]; rfl)
  have hhop : s.hop = hopInit := by simpa [hs, Seq.hopAgrees] using hc.hopAgrees
  exact {
    noFaultNoRecord := hc.noFaultNoRecord
    faultStops := fun hf => absurd (hf.symm.trans hfault) (by decide)
    legacyOnlyInit := fun hm => by cases hm
    octalPastFlip := fun _ => rfl
    windowAlone := fun hm => absurd (hm.symm.trans hwindow) (by decide)
    hopAgrees := by rw [initFlip_seq, initFlip_hop, hhop]; rfl
    programRegs := fun h => by cases h
    chunkRegs := fun h => by cases h
    rdcrRow := fun h => by cases h
    eraseRange := fun h => by cases h }

/-- The chunk fits its register. -/
theorem chunk_toNat (a left : Nat) : (BitVec.ofNat 9 (chunkLen a left)).toNat = chunkLen a left := by
  have := chunkLen_le_page a left
  rw [BitVec.toNat_ofNat, Nat.mod_eq_of_lt (by omega)]

/-- PG_SPLIT takes the splitter's chunk (44_array_access.md R204, R205). -/
theorem Consistent.programSplit {s : State} (hc : Consistent s) (hs : s.seq = .pgSplit) :
    Consistent s.programSplit := by
  obtain ⟨hfault, hwindow⟩ := hc.of_running (by rw [hs]; rfl)
  have hregs := hc.programRegs (by rw [hs]; rfl)
  have hhop : s.hop = hopProgram := by simpa [hs, Seq.hopAgrees] using hc.hopAgrees
  have hflip (hm : s.mode = .legacy) : False := by
    have := (hc.legacyOnlyInit hm).1
    simp [hs, Seq.settledState, Seq.beforeFlip] at this
  unfold State.programSplit
  split
  · exact hc.respondOk _ _
  next hleft =>
  split
  · exact {
      noFaultNoRecord := hc.noFaultNoRecord
      faultStops := fun hf => absurd (hf.symm.trans hfault) (by decide)
      legacyOnlyInit := fun hm => (hflip hm).elim
      octalPastFlip := fun _ => rfl
      windowAlone := fun hm => absurd (hm.symm.trans hwindow) (by decide)
      hopAgrees := by rw [hhop]; rfl
      programRegs := fun _ => ⟨hregs.buffer, hregs.parts, hregs.address, hregs.doneIsOff, hregs.range⟩
      chunkRegs := fun _ => ⟨Nat.pos_of_ne_zero fun h => hleft (BitVec.eq_of_toNat_eq h), chunk_toNat _ _⟩
      rdcrRow := fun h => by cases h
      eraseRange := fun h => by cases h }
  · exact consistent_of_settled rfl (fun hf => by simpa [Exn.sticky] using hc.noFaultNoRecord hfault) hc.legacy_flags

/-- PG_ADV moves one chunk from ahead to behind; nothing wraps, the range lying in the array (R205, R212). -/
theorem ProgramRegs.programAdvance {s : State} (h : ProgramRegs s) (hle : s.chunk.toNat ≤ s.nLeft.toNat) :
    ProgramRegs s.programAdvance := by
  obtain ⟨hbuffer, hparts, haddress, hdone, hrange⟩ := h
  have hcap : Config.capacity = 33554432 := rfl
  have hlen := s.inFlight.len.isLt
  exact {
    buffer := hbuffer
    parts := by
      simp only [programAdvance_off, programAdvance_nLeft, programAdvance_inFlight, BitVec.toNat_add, BitVec.toNat_sub,
        BitVec.toNat_setWidth]
      omega
    address := by
      simp only [programAdvance_aCur, programAdvance_off, programAdvance_inFlight, BitVec.toNat_add,
        BitVec.toNat_setWidth]
      omega
    doneIsOff := by rw [programAdvance_done, programAdvance_off, hdone]
    range := hrange }

theorem Consistent.programAdvance {s : State} (hc : Consistent s) (hs : s.seq = .pgAdv) :
    Consistent s.programAdvance := by
  have hregs := hc.programRegs (by rw [hs]; rfl)
  obtain ⟨hpos, hchunk⟩ := hc.chunkRegs (by rw [hs]; rfl)
  have hle : s.chunk.toNat ≤ s.nLeft.toNat := hchunk ▸ chunkLen_le_left _ _
  have hmoved : Consistent { s with seq := .pgSplit } := hc.leadsTo (leadsTo_next (by simp [hs]))
  exact {
    noFaultNoRecord := hmoved.noFaultNoRecord
    faultStops := hmoved.faultStops
    legacyOnlyInit := hmoved.legacyOnlyInit
    octalPastFlip := hmoved.octalPastFlip
    windowAlone := hmoved.windowAlone
    hopAgrees := hmoved.hopAgrees
    programRegs := fun _ => hregs.programAdvance hle
    chunkRegs := fun h => by cases h
    rdcrRow := fun h => by cases h
    eraseRange := fun h => by cases h }

/-! ## The window -/

theorem Consistent.windowEnable {s : State} (hc : Consistent s) (hs : s.seq = .mmEn) : Consistent s.windowEnable := by
  have hcalled (c : Call) : Consistent (s.called c) := hc.of_unrelated _ _ _ _ _ _ _ _
  rcases attempt_cases s (.mmapEnable (templateRead s.cfg) (templateWrite s.cfg))
      (fun _ t => ({ t with mmapEn := true } : State).respondOk 0 []) with ⟨_, _, e⟩ | ⟨_, _, e⟩ <;>
    rw [State.windowEnable, e]
  · exact (hcalled _).raise _
  · refine consistent_of_settled rfl hc.noFaultNoRecord fun hm => ?_
    have := (hc.legacyOnlyInit hm).1
    simp [hs, Seq.settledState, Seq.beforeFlip] at this

theorem Consistent.windowDisable {s : State} (hc : Consistent s) : Consistent s.windowDisable :=
  consistent_of_settled rfl hc.noFaultNoRecord fun hm => ⟨rfl, (hc.legacy_flags hm).2⟩

/-! ## Acceptance -/

/-- `q` is the first state of the operation with the code `h` (10_state.md R30). -/
structure Seq.StartsOperation (q : Seq) (h : BitVec 4) : Prop where
  hop : q.hopAgrees h = true
  flip : q.beforeFlip = true ↔ h = hopInit
  window : h = hopMmapEnable ∨ h = hopMmapDisable → q = .mmEn ∨ q = .mmDis
  chunk : q.inChunk = false

/-- An accepted operation starts consistent: the common checks give the mode and the window, and the operation's own
check and its operands what its first state asks of the registers. -/
theorem Consistent.start {s : State} (hc : Consistent s) {h : BitVec 4} {q : Seq}
    (hv : s.commonViolation h = none) (hq : q.StartsOperation h) {req : InFlight} {a : Word} {v : Byte}
    {left o d : Word} {t : State}
    (ht : t = { s with hop := h, inFlight := req, aCur := a, vNew := v, nLeft := left, off := o, done := d, seq := q })
    (hprogram : q.inProgram = true → ProgramRegs t) (hrdcr : q = .rcrRd → s.cfg.rdcr ≠ none)
    (herase : q.inErase = true → h ≠ hopEraseChip → a.toNat < Config.capacity) : Consistent t := by
  obtain ⟨hfault, hlegacy, hoctal, hwindow⟩ := commonViolation_none hv
  subst ht
  exact {
    noFaultNoRecord := hc.noFaultNoRecord
    faultStops := fun hf => absurd (hf.symm.trans hfault) (by decide)
    legacyOnlyInit := fun hm => by
      refine ⟨.inr (hq.flip.2 ?_), hc.legacy_flags hm⟩
      by_contra hne
      cases (show s.mode = .legacy from hm).symm.trans (hoctal hne)
    octalPastFlip := fun hm => by
      by_contra hflip
      have hinit := hq.flip.1 (by simpa using hflip)
      cases (show s.mode = .octal from hm).symm.trans (hlegacy hinit)
    windowAlone := fun hm => .inr (hq.window (hwindow hm))
    hopAgrees := hq.hop
    programRegs := hprogram
    chunkRegs := fun h => absurd (h.symm.trans hq.chunk) (by decide)
    rdcrRow := hrdcr
    eraseRange := herase }

/-- The first states of the operations (10_state.md R30). -/
theorem startsOperation {q : Seq} {h : BitVec 4}
    (hq : (q, h) ∈ [(Seq.initRsten, hopInit), (.ridRd, hopReadId), (.rsrRd, hopReadStatus), (.rcrRd, hopReadCfg),
      (.rc2Rd, hopReadCfg2), (.wc2Wren, hopWriteCfg2), (.rdRd, hopRead), (.pgSplit, hopProgram),
      (.erWren, hopEraseSector), (.erWren, hopEraseBlock), (.erWren, hopEraseChip), (.mmEn, hopMmapEnable),
      (.mmDis, hopMmapDisable)]) : q.StartsOperation h := by
  simp only [List.mem_cons, Prod.mk.injEq, List.not_mem_nil, or_false] at hq
  rcases hq with ⟨rfl, rfl⟩ | ⟨rfl, rfl⟩ | ⟨rfl, rfl⟩ | ⟨rfl, rfl⟩ | ⟨rfl, rfl⟩ | ⟨rfl, rfl⟩ | ⟨rfl, rfl⟩ | ⟨rfl, rfl⟩ |
    ⟨rfl, rfl⟩ | ⟨rfl, rfl⟩ | ⟨rfl, rfl⟩ | ⟨rfl, rfl⟩ | ⟨rfl, rfl⟩ <;>
    exact ⟨by decide, by decide, by decide, by decide⟩

theorem rangeCheck_none {a : Word} {n : Nat} (h : rangeCheck a n = none) : a.toNat + n ≤ Config.capacity := by
  simpa [rangeCheck, inRange] using h

/-- A well-formed request is refused, or accepted into a consistent state. -/
theorem exec_host_consistent {s t : State} {i : Instr} (hc : Consistent s) (hs : s.seq = .idle)
    (hi : i.transaction s.cfg = none) (hwf : i.wellFormed s.cfg = true) (h : exec i s = .next t) : Consistent t := by
  have accepted {c : BitVec 4} {own : Option Violation} {req : InFlight} {load : State → State}
      (hload : s.commonViolation c = none → own = none → Consistent (load { s with hop := c, inFlight := req })) :
      Consistent (s.accept c own req load) := by
    rcases accept_cases s c own req load with ⟨hbusy, _⟩ | ⟨v, _, e⟩ | ⟨_, hv, hown, e⟩
    · exact absurd hs hbusy
    · exact e ▸ hc.refuse v
    · exact e ▸ hload hv hown
  cases i <;> simp only [Instr.transaction, reduceCtorEq] at hi <;> cases h
  case reservedHop0 | reservedHopE | reservedHopF =>
    rcases refuseEncoding_cases s with ⟨hbusy, _⟩ | ⟨v, _, e⟩
    · exact absurd hs hbusy
    · exact e ▸ hc.refuse v
  case init | readId | readStatus | readCfg2 | writeCfg2 | mmapEnable | mmapDisable =>
    exact accepted fun hv _ => hc.start hv (startsOperation (by simp)) rfl (fun h => by cases h)
      (fun h => by cases h) (fun h => by cases h)
  case readCfg =>
    refine accepted fun hv hown => hc.start hv (startsOperation (by simp)) rfl (fun h => by cases h) (fun _ hnone => ?_)
      (fun h => by cases h)
    simp [rdcrCheck, catalog_rdcr_none s.mode hnone] at hown
  case read addr len =>
    refine accepted fun hv _ => ?_
    split
    · exact consistent_of_settled rfl hc.noFaultNoRecord hc.legacy_flags
    · exact hc.start hv (startsOperation (by simp)) rfl (fun h => by cases h) (fun h => by cases h)
        (fun h => by cases h)
  case program addr len wdata =>
    refine accepted fun hv hown => hc.start hv (startsOperation (by simp)) rfl (fun _ => ?_) (fun h => by cases h)
      (fun h => by cases h)
    exact ⟨of_decide_eq_true hwf, Nat.zero_add _, rfl, rfl, rangeCheck_none hown⟩
  case eraseSector | eraseBlock =>
    exact accepted fun hv hown => hc.start hv (startsOperation (by simp)) rfl (fun h => by cases h)
      (fun h => by cases h) fun _ _ => rangeCheck_none hown
  case eraseChip =>
    exact accepted fun hv _ => hc.start hv (startsOperation (by simp)) rfl (fun h => by cases h)
      (fun h => by cases h) fun _ hne => absurd rfl hne

/-! ## Every step -/

/-- Settles O50: each form of a step is a move that keeps the invariant. -/
theorem consistentKept : Obligations.ConsistentKept := by
  unfold Obligations.ConsistentKept
  intro s t hc h
  cases hr : s.rst
  case true =>
    rw [step_reset hr] at h
    cases h
    exact engineReset_consistent s
  case false =>
    have hprepared : Consistent s.prepare := by
      rw [prepare_eq]
      exact hc.of_unrelated _ _ _ _ _ _ _ _
    have hcalled (c : Call) : Consistent (s.prepare.called c) := hprepared.of_unrelated _ _ _ _ _ _ _ _
    have htaken (rest : List Request) : Consistent { s with host := rest } := hc.of_unrelated _ _ _ _ _ _ _ _
    rcases step_next hr h with ⟨_, _, _, _, _, _, _, hw⟩ | ⟨_, e⟩ | ⟨_, e⟩ | ⟨hs, e⟩ | ⟨hs, e⟩ | ⟨hs, e⟩ | ⟨hs, e⟩ |
      ⟨_, e⟩ | ⟨_, e⟩ | ⟨r, rest, i, hs, _, hd, hi, hx⟩ | ⟨_, rest, v, _, _, e⟩
    · rcases hw with ⟨v, _, e⟩ | ⟨td, err, _, _, _, e⟩ | ⟨td, bs, v, l, _, _, _, _, e⟩ <;> rw [e]
      · exact hprepared.refuse v
      · exact (hcalled _).raise _
      · exact ((hcalled _).of_unrelated _ _ _ v l _ _ _).advance
    · exact e ▸ hprepared.refuse .mode
    · exact e ▸ hc.deliver
    · exact e ▸ hc.initFlip hs
    · exact e ▸ hc.programSplit hs
    · exact e ▸ hc.programAdvance hs
    · exact e ▸ hc.windowEnable hs
    · exact e ▸ hc.windowDisable
    · exact e ▸ hc
    · exact exec_host_consistent (htaken rest) hs hi (decodeHost_wellFormed hd) hx
    · exact e ▸ (htaken rest).refuse v

end Sys2Proof.Machine

/-! The transport call of a step, seen from the state (10_state.md R30; 20_memory.md R67, R71): which states make one,
in which opcode length, and that a consistent engine always has a next step. -/

namespace Sys2Proof.Machine

/-! ## What a state issues -/

@[simp] theorem byMode_ne_noRow (m : Mode) (l o : Instr) : byMode m l o ≠ .noRow := by cases m <;> simp [byMode]
@[simp] theorem byMode_ne_unloaded (m : Mode) (l o : Instr) : byMode m l o ≠ .unloaded := by cases m <;> simp [byMode]
@[simp] theorem octalOnly_eq_noRow (m : Mode) (o : Instr) : octalOnly m o = .noRow ↔ m = .legacy := by
  cases m <;> simp [octalOnly]
@[simp] theorem octalOnly_ne_unloaded (m : Mode) (o : Instr) : octalOnly m o ≠ .unloaded := by
  cases m <;> simp [octalOnly]

theorem legacy_of_eraseCommand_noRow {s : State} (h : s.eraseCommand = .noRow) : s.mode = .legacy := by
  unfold State.eraseCommand at h
  split at h
  · exact (octalOnly_eq_noRow _ _).1 h
  split at h
  · exact (octalOnly_eq_noRow _ _).1 h
  split at h
  · exact (octalOnly_eq_noRow _ _).1 h
  · cases h

theorem eraseCommand_unloaded {s : State} (h : s.eraseCommand = .unloaded) :
    s.hop ≠ hopEraseSector ∧ s.hop ≠ hopEraseBlock ∧ s.hop ≠ hopEraseChip := by
  unfold State.eraseCommand at h
  split at h
  · simp at h
  split at h
  · simp at h
  split at h
  · simp at h
  · exact ⟨‹_›, ‹_›, ‹_›⟩

/-- A state that issues a bus transaction runs an operation other than those of the window. -/
theorem issue_running {s : State} {x : Issued} (h : s.issue = some x) : s.seq.running = true := by
  cases hs : s.seq
  case idle | initFlip | pgSplit | pgAdv | mmEn | mmDis | resp => simp [State.issue, hs] at h
  all_goals rfl

/-- RDCR is issued in RCR_RD alone, and PP4B in PG_PP with the current chunk. -/
theorem issue_row {s : State} {i : Instr} {c : Cmd} {m : Mode} {a : Word} {n : Nat} {data : List Byte}
    (h : s.issue = some (.command i)) (hi : i.transaction s.cfg = some (c, m, a, n, data)) :
    (c = .rdcr → s.seq = .rcrRd) ∧ (c = .pp4b → s.seq = .pgPp ∧ a = s.aCur ∧ data = s.chunkData) := by
  unfold State.issue at h
  split at h <;> try cases h
  all_goals
    next hq =>
      rw [hq]
      cases hm : s.mode <;> simp only [byMode, octalOnly, State.eraseCommand, hm] at h
      all_goals
        repeat' split at h
      all_goals
        cases h
      all_goals
        cases hi
        simp

/-- Only the commands of the Octal table alone have no row, and only in Legacy mode. -/
theorem issue_noRow {s : State} (h : s.issue = some .noRow) :
    s.mode = .legacy ∧ s.seq ∈ [Seq.rdRd, .pgPp, .erCmd] := by
  cases hs : s.seq <;> simp [State.issue, hs] at h
  case rdRd | pgPp => exact ⟨h, by decide⟩
  case erCmd => exact ⟨legacy_of_eraseCommand_noRow h, by decide⟩

theorem issue_unloaded {s : State} (h : s.issue = some .unloaded) :
    s.seq = .erCmd ∧ s.hop ≠ hopEraseSector ∧ s.hop ≠ hopEraseBlock ∧ s.hop ≠ hopEraseChip := by
  cases hs : s.seq <;> simp [State.issue, hs] at h
  case erCmd => exact ⟨rfl, eraseCommand_unloaded h⟩

/-- A wire command's row is missing only where it is RDCR and the configuration has none
(40_command_catalog.md R135). -/
theorem rdcr_of_no_row {cfg : Cfg} {i : Instr} {c : Cmd} {m : Mode} {a : Word} {n : Nat} {data : List Byte}
    (hi : i.transaction cfg = some (c, m, a, n, data)) (h : catalog cfg m c = none) : c = .rdcr ∧ cfg.rdcr = none := by
  cases i <;> cases hi
  case rdcrL | rdcrO => exact ⟨rfl, Option.map_eq_none_iff.1 h⟩
  all_goals cases h

/-! ## Consistent states -/

/-- The chunk in work is a slice of the buffer that stays in its page (44_array_access.md R203, R204). -/
theorem Consistent.chunkData_pageOk {s : State} (hc : Consistent s) (hs : s.seq.inChunk = true)
    (hp : s.seq.inProgram = true) : pageOk s.aCur s.chunkData.length = true := by
  obtain ⟨hpos, hchunk⟩ := hc.chunkRegs hs
  obtain ⟨hbuffer, hparts, -, -, -⟩ := hc.programRegs hp
  have hlen : s.chunkData.length = s.chunk.toNat := by
    have hle : s.chunk.toNat ≤ s.nLeft.toNat := hchunk ▸ chunkLen_le_left _ _
    rw [State.chunkData, List.length_take, List.length_drop]
    omega
  rw [pageOk_iff, hlen, hchunk, chunkLen_eq]
  omega

/-- What a consistent state issues is a wire command that makes its call. -/
theorem Consistent.issue_command {s : State} (hc : Consistent s) {x : Issued} (h : s.issue = some x) :
    ∃ i, x = .command i ∧ ∀ c m a n data, i.transaction s.cfg = some (c, m, a, n, data) →
      catalog s.cfg m c ≠ none ∧ (c = .pp4b → pageOk a data.length = true) := by
  cases x with
  | noRow =>
    obtain ⟨hm, hs⟩ := issue_noRow h
    have hrun := (hc.legacyOnlyInit hm).1
    simp only [List.mem_cons, List.not_mem_nil, or_false] at hs
    rcases hs with hs | hs | hs <;> simp [hs, Seq.settledState, Seq.beforeFlip] at hrun
  | unloaded =>
    obtain ⟨hs, hsector, hblock, hchip⟩ := issue_unloaded h
    have hop := hc.hopAgrees
    rw [hs] at hop
    simp only [Seq.hopAgrees, Bool.or_eq_true, beq_iff_eq] at hop
    rcases hop with (h | h) | h
    · exact absurd h hsector
    · exact absurd h hblock
    · exact absurd h hchip
  | command i =>
    refine ⟨i, rfl, fun c m a n data hi => ?_⟩
    obtain ⟨hrdcr, hpp⟩ := issue_row h hi
    refine ⟨fun hnone => ?_, fun hcp => ?_⟩
    · obtain ⟨rfl, hcfg⟩ := rdcr_of_no_row hi hnone
      exact hc.rdcrRow (hrdcr rfl) hcfg
    · obtain ⟨hs, rfl, rfl⟩ := hpp hcp
      exact hc.chunkData_pageOk (by rw [hs]; rfl) (by rw [hs]; rfl)

theorem Consistent.prepare {s : State} (hc : Consistent s) : Consistent s.prepare := by
  rw [prepare_eq]
  exact hc.of_unrelated _ _ _ _ _ _ _ _

/-! ## The host port -/

/-- A step leaves the host port alone, or IDLE takes the request at its head. -/
theorem step_host {s t : State} (h : step s = .next t) :
    t.host = s.host ∨ (s.seq = .idle ∧ ∃ r, s.host = r :: t.host) := by
  have hadvance (u : State) : u.advance.host = u.host := by rw [advance_frame]
  have hprepare : s.prepare.host = s.host := by rw [prepare_eq]
  cases hr : s.rst
  case true =>
    rw [step_reset hr] at h
    cases h
    exact .inl rfl
  case false =>
    rcases step_next hr h with ⟨_, _, _, _, _, _, _, hw⟩ | ⟨_, e⟩ | ⟨_, e⟩ | ⟨_, e⟩ | ⟨_, e⟩ | ⟨_, e⟩ | ⟨_, e⟩ |
      ⟨_, e⟩ | ⟨_, e⟩ | ⟨r, rest, i, hs, hh, _, hi, hx⟩ | ⟨r, rest, v, hs, hh, e⟩
    · left
      rcases hw with ⟨_, _, e⟩ | ⟨_, _, _, _, _, e⟩ | ⟨_, _, _, _, _, _, _, _, e⟩ <;> simp [e, hadvance, hprepare]
    · exact .inl (by simp [e, hprepare])
    · exact .inl (by simp [e])
    · exact .inl (by simp [e])
    · left
      rw [e]
      unfold State.programSplit
      split
      · rfl
      · split <;> rfl
    · exact .inl (by simp [e])
    · left
      rcases attempt_cases s (.mmapEnable (templateRead s.cfg) (templateWrite s.cfg))
          (fun _ t => ({ t with mmapEn := true } : State).respondOk 0 []) with ⟨_, _, e'⟩ | ⟨_, _, e'⟩ <;>
        rw [e, State.windowEnable, e'] <;> rfl
    · exact .inl (by rw [e]; rfl)
    · exact .inl (by rw [e])
    · refine .inr ⟨hs, r, ?_⟩
      have hrest : t.host = rest := by
        rcases exec_host (s := { s with host := rest }) hs hi hx with ⟨_, e⟩ | ⟨_, _, e⟩ <;> rw [e]
        rfl
      rw [hrest, hh]
    · exact .inr ⟨hs, r, by rw [e, hh]; rfl⟩

/-- Settles O14: acceptance and the refusal of an encoding hold a request while BUSY; a step takes one in IDLE alone. -/
theorem busyHoldsRequests : Obligations.BusyHoldsRequests := by
  unfold Obligations.BusyHoldsRequests
  refine ⟨fun s i hs hi => ?_, fun s t hs h => (step_host h).resolve_right fun hidle => hs hidle.1⟩
  cases i <;> simp only [Instr.transaction, reduceCtorEq] at hi
  case reservedHop0 | reservedHopE | reservedHopF =>
    rcases refuseEncoding_cases s with ⟨_, e⟩ | ⟨_, hidle, _⟩
    · exact congrArg Host.Outcome.next e
    · exact absurd hidle hs
  all_goals exact congrArg Host.Outcome.next (accept_busy hs)

/-- Settles O54: of the two stops, a consistent state excludes the erase command without an erase code, and a host that
presents requests that exist the other; the rest is `consistentKept` and `step_host`. -/
theorem noStop : Obligations.NoStop := by
  unfold Obligations.NoStop
  intro s hc hh
  have hnext : ∃ t, step s = .next t := by
    cases hr : s.rst
    case true => exact ⟨_, step_reset hr⟩
    case false =>
      rcases step_cases hr with ⟨i, _, e⟩ | ⟨_, e⟩ | ⟨hq, _⟩ | ⟨_, e⟩ | ⟨_, e⟩ | ⟨_, e⟩ | ⟨_, e⟩ | ⟨_, e⟩ | ⟨_, e⟩ |
        ⟨_, _, e⟩ | ⟨r, rest, i, _, _, _, e⟩ | ⟨_, _, _, _, _, e⟩ | ⟨r, rest, _, hport, hr, _⟩
      · obtain ⟨t, ht⟩ := exec_next i s.prepare
        exact ⟨t.advance, by rw [e, ht]; rfl⟩
      · exact ⟨_, e⟩
      · obtain ⟨_, hx, _⟩ := hc.prepare.issue_command hq
        cases hx
      · exact ⟨_, e⟩
      · exact ⟨_, e⟩
      · exact ⟨_, e⟩
      · exact ⟨_, e⟩
      · exact ⟨_, e⟩
      · exact ⟨_, e⟩
      · exact ⟨_, e⟩
      · exact e ▸ exec_next i _
      · exact ⟨_, e⟩
      · simp [State.hostExpressible, hport, hr] at hh
  obtain ⟨t, ht⟩ := hnext
  refine ⟨t, ht, consistentKept s t hc ht, ?_⟩
  rcases step_host ht with e | ⟨_, r, e⟩
  · rw [State.hostExpressible, e]
    exact hh
  · rw [State.hostExpressible, e, List.all_cons, Bool.and_eq_true] at hh
    exact hh.2

/-! ## The call -/

/-- The states without a transport call (10_state.md R30). -/
def Seq.makesNoCall (q : Seq) : Bool := [Seq.idle, .resp, .initFlip, .pgSplit, .pgAdv].contains q

/-- A step that makes a call starts in a state that makes one. -/
theorem StepCalls.silent_of_makesNoCall {s t : State} (h : StepCalls s t) (hq : s.seq.makesNoCall = true) :
    t.trace = s.trace ∧ t.env = s.env := by
  cases h with
  | silent htrace henv => exact ⟨htrace, henv⟩
  | bus i c a n data td hissue _ _ _ _ _ =>
    exfalso
    revert hissue hq
    unfold State.issue
    rw [prepare_seq]
    cases s.seq <;> simp [Seq.makesNoCall]
  | window c _ hs _ _ => rcases hs with hs | hs <;> rw [hs] at hq <;> cases hq

/-- In a consistent state that makes a call nothing prevents it. -/
theorem Consistent.step_makes_call {s t : State} (hc : Consistent s) (hr : s.rst = false) (h : step s = .next t)
    (hq : s.seq.makesNoCall = false) : ∃ c, t.trace = s.trace ++ [(c, s.answerTo c)] := by
  have elsewhere {q : Seq} (hs : s.seq = q) (hne : q.makesNoCall = true) :
      ∃ c, t.trace = s.trace ++ [(c, s.answerTo c)] := by
    rw [hs, hne] at hq
    cases hq
  rcases step_next hr h with ⟨i, c, a, n, data, hissue, hi, hw⟩ | ⟨hissue, _⟩ | ⟨hs, _⟩ | ⟨hs, _⟩ | ⟨hs, _⟩ | ⟨hs, _⟩ |
    ⟨_, e⟩ | ⟨_, e⟩ | ⟨hs, _⟩ | ⟨_, _, _, hs, _⟩ | ⟨_, _, _, hs, _⟩
  · rcases hw with ⟨v, hv, _⟩ | ⟨td, err, _, _, _, e⟩ | ⟨td, bs, v, l, _, _, _, _, e⟩
    · obtain ⟨j, hj, hcall⟩ := hc.prepare.issue_command hissue
      cases hj
      rw [prepare_cfg] at hcall
      obtain ⟨hrow, hpage⟩ := hcall _ _ _ _ _ hi
      rcases hv with hnone | ⟨hpp, hfalse⟩
      · exact absurd hnone hrow
      · exact absurd (hfalse.symm.trans (hpage hpp)) Bool.false_ne_true
    · exact ⟨callOf td data, by simp [e]⟩
    · exact ⟨callOf td data, by simp [e, advance_trace]⟩
  · obtain ⟨_, hx, _⟩ := hc.prepare.issue_command hissue
    cases hx
  · exact elsewhere hs rfl
  · exact elsewhere hs rfl
  · exact elsewhere hs rfl
  · exact elsewhere hs rfl
  · exact ⟨_, e ▸ (windowEnable_calls s).1⟩
  · exact ⟨.mmapDisable, by rw [e]; rfl⟩
  · exact elsewhere hs rfl
  · exact elsewhere hs rfl
  · exact elsewhere hs rfl

/-- The opcode length of a built descriptor is that of its mode (10_state.md R22). -/
theorem build_isz {cfg : Cfg} {c : Cmd} {m : Mode} {a n : Word} {td : TD} (hb : build cfg c m a n = some td) :
    td.isz = if m = .legacy then .op8 else .op16 := by
  obtain ⟨r, -, rfl⟩ := build_some hb
  exact Mode.opSize_eq m

/-- Settles O39: `step_calls` says which call a step makes, `Consistent.step_makes_call` when it makes one. -/
theorem oneCallPerStep : Obligations.OneCallPerStep := by
  unfold Obligations.OneCallPerStep
  intro s t hr h
  have hcalls : StepCalls s t := step_calls h
  have hmakes : s.seq ∈ [Seq.idle, .resp, .initFlip, .pgSplit, .pgAdv] ↔ s.seq.makesNoCall = true :=
    List.contains_iff_mem.symm
  refine ⟨fun hq => hcalls.silent_of_makesNoCall (hmakes.1 hq), ?_,
    fun hc hq => hc.step_makes_call hr h (by simpa [hmakes] using hq), fun c' a' td' data' htrace' hc' => ?_⟩
  · cases hcalls with
    | silent htrace henv => exact .inl ⟨htrace, henv⟩
    | bus _ _ _ _ _ _ _ _ _ _ htrace henv => exact .inr ⟨_, htrace, henv⟩
    | window c _ _ htrace henv => exact .inr ⟨c, htrace, henv⟩
  · cases hcalls with
    | silent htrace _ => simp [htrace] at htrace'
    | bus i c a n data td _ hi hb _ htrace _ =>
      obtain ⟨rfl, -⟩ : callOf td data = c' ∧ _ := by simpa [htrace] using htrace'
      rw [transaction_callOf (data_nil_of_transaction hi hb)] at hc'
      cases hc'
      exact build_isz hb
    | window c hcall _ htrace _ =>
      obtain ⟨rfl, -⟩ : c = c' ∧ _ := by simpa [htrace] using htrace'
      rcases hcall with rfl | rfl <;> cases hc'

/-- Settles O40: a bus transaction is made where an operation runs, and then a consistent engine has its window
disabled. -/
theorem noBusCallWhileWindow : Obligations.NoBusCallWhileWindow := by
  unfold Obligations.NoBusCallWhileWindow
  intro s t hc hm h
  cases step_calls h with
  | silent htrace _ => exact .inl htrace
  | bus _ _ _ _ _ _ hissue _ _ _ _ _ =>
    have hrun := issue_running hissue
    rw [prepare_seq] at hrun
    exact absurd (hm.symm.trans (hc.of_running hrun).2) (by decide)
  | window c hcall _ htrace _ =>
    refine .inr ⟨c, _, htrace, ?_⟩
    rcases hcall with rfl | rfl <;> rfl

end Sys2Proof.Machine

/-! Acceptance (60_exceptions.md R253): each operation on an idle engine, the steps without a call, and the whole rule
of acceptance in the order of its checks. -/

namespace Sys2Proof.Machine

/-! ## The operations, accepted or refused by their own check -/

theorem commonViolation_init {s : State} (hf : s.fault = false) (hm : s.mode = .legacy) (he : s.mmapEn = false) :
    s.commonViolation hopInit = none := by
  simp [State.commonViolation, hf, hm, he]

theorem catalog_rdcr_eq_none_iff {cfg : Cfg} (m : Mode) : catalog cfg m .rdcr = none ↔ cfg.rdcr = none := by
  cases m <;> exact Option.map_eq_none_iff

/-- The check of READ_CFG looks for the row of the configuration (42_register_access.md R168). -/
theorem rdcrCheck_row {s : State} (h : s.cfg.rdcr ≠ none) : rdcrCheck s = none :=
  if_pos (Option.isSome_iff_ne_none.2 fun hnone => h ((catalog_rdcr_eq_none_iff s.mode).1 hnone))

theorem rdcrCheck_noRow {s : State} (h : s.cfg.rdcr = none) : rdcrCheck s = some .mode := by
  simp [rdcrCheck, catalog_rdcr_none s.mode h]

/-- Settles O15: the common checks pass and INIT has no check of its own. -/
theorem initAccepted : Obligations.InitAccepted := by
  unfold Obligations.InitAccepted
  intro s hs hf hm he
  exact congrArg Host.Outcome.next (accept_start hs (commonViolation_init hf hm he))

/-- Settles O16: the common checks pass; READ_CFG alone has a check of its own. -/
theorem registerOperationsAccepted : Obligations.RegisterOperationsAccepted := by
  unfold Obligations.RegisterOperationsAccepted
  intro s addr val hs hf hm he
  have hv {h : BitVec 4} (hh : h ≠ hopInit) : s.commonViolation h = none := commonViolation_octal hf hm (.inl he) hh
  have hstart {h : BitVec 4} {req : InFlight} {load : State → State} (hh : h ≠ hopInit) :
      Host.Outcome.next (s.accept h none req load) =
        (.next (load { s with hop := h, inFlight := req }) : Host.Outcome State Fault Refusal) :=
    congrArg Host.Outcome.next (accept_start hs (hv hh))
  refine ⟨hstart (by decide), hstart (by decide), fun hrow => ?_, fun hnone => ?_, hstart (by decide),
    hstart (by decide)⟩
  · rw [exec, execReadCfg, rdcrCheck_row hrow]
    exact hstart (by decide)
  · rw [exec, execReadCfg, rdcrCheck_noRow hnone, accept_own hs (hv (by decide))]
    rfl

/-- Settles O17: in range nothing refuses, out of range the operation's own check does. -/
theorem readAndProgramAccepted : Obligations.ReadAndProgramAccepted := by
  unfold Obligations.ReadAndProgramAccepted
  intro s addr len wdata hs hf hm he
  have hv {h : BitVec 4} (hh : h ≠ hopInit) : s.commonViolation h = none := commonViolation_octal hf hm (.inl he) hh
  refine ⟨fun hin => ⟨fun hne => ?_, fun hzero => ?_, ?_⟩, fun hout => ⟨?_, ?_⟩⟩
  · rw [exec, execRead, rangeCheck_in hin, accept_start hs (hv (by decide)), if_neg hne]
    rfl
  · rw [exec, execRead, rangeCheck_in hin, accept_start hs (hv (by decide)), if_pos hzero]
    rfl
  · rw [exec, execProgram, rangeCheck_in hin, accept_start hs (hv (by decide))]
  · rw [exec, execRead, rangeCheck_out hout, accept_own hs (hv (by decide))]
    rfl
  · rw [exec, execProgram, rangeCheck_out hout, accept_own hs (hv (by decide))]
    rfl

/-- Settles O18: below CAPACITY nothing refuses, at or past it the operation's own check does; ERASE_CHIP has none. -/
theorem erasesAccepted : Obligations.ErasesAccepted := by
  unfold Obligations.ErasesAccepted
  intro s addr hs hf hm he
  have hv {h : BitVec 4} (hh : h ≠ hopInit) : s.commonViolation h = none := commonViolation_octal hf hm (.inl he) hh
  refine ⟨fun hin => ⟨?_, ?_⟩, fun hout => ⟨?_, ?_⟩, ?_⟩
  · rw [exec, execEraseSector, rangeCheck_in (show addr.toNat + 1 ≤ Config.capacity from hin),
      accept_start hs (hv (by decide))]
  · rw [exec, execEraseBlock, rangeCheck_in (show addr.toNat + 1 ≤ Config.capacity from hin),
      accept_start hs (hv (by decide))]
  · rw [exec, execEraseSector, rangeCheck_out (show Config.capacity < addr.toNat + 1 from Nat.lt_succ_of_le hout),
      accept_own hs (hv (by decide))]
    rfl
  · rw [exec, execEraseBlock, rangeCheck_out (show Config.capacity < addr.toNat + 1 from Nat.lt_succ_of_le hout),
      accept_own hs (hv (by decide))]
    rfl
  · exact congrArg Host.Outcome.next (accept_start hs (hv (by decide)))

/-! ## The steps without a wire command -/

theorem step_initFlip {s : State} (hr : s.rst = false) (hs : s.seq = .initFlip) : step s = .next s.initFlip := by
  simp [step, State.plan, hr, prepare_of_ne, State.issue, hs]

theorem step_programSplit {s : State} (hr : s.rst = false) (hs : s.seq = .pgSplit) :
    step s = .next s.programSplit := by
  simp [step, State.plan, hr, prepare_of_ne, State.issue, hs]

theorem step_programAdvance {s : State} (hr : s.rst = false) (hs : s.seq = .pgAdv) :
    step s = .next s.programAdvance := by
  simp [step, State.plan, hr, prepare_of_ne, State.issue, hs]

theorem step_windowEnable {s : State} (hr : s.rst = false) (hs : s.seq = .mmEn) : step s = .next s.windowEnable := by
  simp [step, State.plan, hr, prepare_of_ne, State.issue, hs]

theorem step_windowDisable {s : State} (hr : s.rst = false) (hs : s.seq = .mmDis) :
    step s = .next s.windowDisable := by
  simp [step, State.plan, hr, prepare_of_ne, State.issue, hs]

theorem step_noRequest {s : State} (hr : s.rst = false) (hs : s.seq = .idle) (hh : s.host = []) :
    step s = .next s := by
  simp [step, State.plan, hr, prepare_of_ne, State.issue, hs, State.planIdle, hh]

theorem programSplit_finished {s : State} (h : s.nLeft = 0) : s.programSplit = s.respondOk 0 [] := by
  simp [State.programSplit, h]

/-- The splitter's chunk always passes the page guard (44_array_access.md R203, R204). -/
theorem chunk_pageOk {a : Word} {left : Nat} (h : 0 < left) : pageOk a (chunkLen a.toNat left) = true := by
  rw [pageOk_iff, chunkLen_eq]
  omega

theorem programSplit_chunk {s : State} (h : s.nLeft ≠ 0) :
    s.programSplit =
      { s with chunk := BitVec.ofNat 9 (chunkLen s.aCur.toNat s.nLeft.toNat), seq := .pgWren } := by
  have hpos : 0 < s.nLeft.toNat := Nat.pos_of_ne_zero fun hz => h (BitVec.eq_of_toNat_eq hz)
  rw [State.programSplit, if_neg h, chunk_toNat, if_pos (chunk_pageOk hpos)]

/-- Settles O19: acceptance whatever MMAP_EN is, and the two answers MM_EN can get; MM_DIS can get but one. -/
theorem windowOperations : Obligations.WindowOperations := by
  unfold Obligations.WindowOperations
  refine ⟨fun s hs hf hm => ⟨?_, ?_⟩, fun s hr hs => ?_, fun s hr hs => ?_⟩
  · exact congrArg Host.Outcome.next
      (accept_start hs (commonViolation_octal hf hm (.inr (.inl rfl)) (by decide)))
  · exact congrArg Host.Outcome.next
      (accept_start hs (commonViolation_octal hf hm (.inr (.inr rfl)) (by decide)))
  · intro c
    refine ⟨fun bs ha => ?_, fun e ha => ?_⟩
    · rw [step_windowEnable hr hs, State.windowEnable, attempt_ok ha, called_eq ha]
      rfl
    · rw [step_windowEnable hr hs, State.windowEnable, attempt_err ha, called_eq ha, raise_transportFault]
  · rw [step_windowDisable hr hs, State.windowDisable, called_eq (answerTo_mmapDisable s)]
    rfl

/-- Settles O28: the guard by its definition, PP4B and PG_SPLIT by the cases of theirs. -/
theorem pageGuard : Obligations.PageGuard := by
  unfold Obligations.PageGuard
  refine ⟨pageOk_iff, fun s addr data h => ?_, fun s hr hs hleft => ?_⟩
  · rw [exec, execPp4bO, h, if_neg Bool.false_ne_true, raise_protocolViolation]
    rfl
  · have hpos : 0 < s.nLeft.toNat := Nat.pos_of_ne_zero fun hz => hleft (BitVec.eq_of_toNat_eq hz)
    refine ⟨_, step_programSplit hr hs, ?_⟩
    rw [programSplit_chunk hleft]
    refine ⟨rfl, rfl, chunk_toNat _ _, ?_⟩
    dsimp only
    rw [chunk_toNat]
    exact chunk_pageOk hpos

/-- Settles O36: each of these steps is its operation; PG_ADV adds and subtracts modulo the word size. -/
theorem stepsWithoutCalls : Obligations.StepsWithoutCalls := by
  unfold Obligations.StepsWithoutCalls
  intro s hr
  refine ⟨step_initFlip hr, step_resp hr, fun hs => ⟨_, step_programAdvance hr hs, rfl, ?_, ?_, fun hle => ?_, ?_⟩,
    fun hs hleft => ?_, step_noRequest hr⟩
  · simp
  · simp
  · have hlt := s.nLeft.isLt
    simp
    omega
  · simp
  · rw [step_programSplit hr hs, programSplit_finished hleft]
    rfl

/-! ## The rule as a whole -/

theorem reservedBitsSet_eq_false {w0 : Word} (hlow : w0.extractLsb' 4 4 = 0) (hhigh : w0.extractLsb' 16 16 = 0) :
    reservedBitsSet w0 = false := by
  rw [← Bool.not_eq_true, reservedBitsSet_iff, not_or]
  exact ⟨not_not_intro hlow, not_not_intro hhigh⟩

/-- The operation codes (30_encoding.md R81). -/
theorem operation_codes : ∀ h : BitVec 4, h ∉ [0x0, 0xE, 0xF] →
    h = 0x1 ∨ h = 0x2 ∨ h = 0x3 ∨ h = 0x4 ∨ h = 0x5 ∨ h = 0x6 ∨ h = 0x7 ∨ h = 0x8 ∨ h = 0x9 ∨ h = 0xA ∨ h = 0xB ∨
      h = 0xC ∨ h = 0xD := by
  decide

/-- The operation a code stands for, with the operands it takes from the request (30_encoding.md R81, R82). -/
inductive CodeOf (r : Request) : BitVec 4 → Instr → Prop where
  | init : CodeOf r 0x1 .init
  | readId : CodeOf r 0x2 .readId
  | readStatus : CodeOf r 0x3 .readStatus
  | readCfg : CodeOf r 0x4 .readCfg
  | readCfg2 : CodeOf r 0x5 (.readCfg2 r.w1)
  | writeCfg2 : CodeOf r 0x6 (.writeCfg2 r.w1 (valField r.w0))
  | read : CodeOf r 0x7 (.read r.w1 r.w2)
  | program (hlen : r.wdata.length = r.w2.toNat) : CodeOf r 0x8 (.program r.w1 r.w2 r.wdata)
  | eraseSector : CodeOf r 0x9 (.eraseSector r.w1)
  | eraseBlock : CodeOf r 0xA (.eraseBlock r.w1)
  | eraseChip : CodeOf r 0xB .eraseChip
  | mmapEnable : CodeOf r 0xC .mmapEnable
  | mmapDisable : CodeOf r 0xD .mmapDisable

/-- A request without reserved bits and with the code of an operation decodes to that operation. -/
theorem decodeHost_of_codeOf {r : Request} {h : BitVec 4} {i : Instr} (hi : CodeOf r h i)
    (hcode : r.w0.extractLsb' 0 4 = h) (hlow : r.w0.extractLsb' 4 4 = 0) (hhigh : r.w0.extractLsb' 16 16 = 0) :
    decodeHost r.w0 r.w1 r.w2 r.wdata = .ok i := by
  have hfield : hopField r.w0 = h := hcode
  have hoperation : decodeOperation h (valField r.w0) r.w1 r.w2 r.wdata = .ok i := by
    cases hi with
    | program hlen => exact if_pos hlen
    | _ => rfl
  have h0 : h ≠ 0x0 := by cases hi <;> decide
  have hE : h ≠ 0xE := by cases hi <;> decide
  have hF : h ≠ 0xF := by cases hi <;> decide
  rw [decodeHost, hfield, if_neg h0, if_neg hE, if_neg hF, reservedBitsSet_eq_false hlow hhigh,
    if_neg Bool.false_ne_true, hoperation]

/-- The step that takes a request with the code of an operation and no reserved bits set. -/
theorem step_operation {s : State} {r : Request} {rest : List Request} {h : BitVec 4} {i : Instr} (hi : CodeOf r h i)
    (hr : s.rst = false) (hs : s.seq = .idle) (hh : s.host = r :: rest) (hcode : r.w0.extractLsb' 0 4 = h)
    (hlow : r.w0.extractLsb' 4 4 = 0) (hhigh : r.w0.extractLsb' 16 16 = 0) : step s = exec i { s with host := rest } :=
  step_request hr hs hh (decodeHost_of_codeOf hi hcode hlow hhigh)

/-- Every request a host can present, its code not reserved and no reserved bits set, is of an operation: R82 excludes
the one that would not be. -/
theorem codeOf_of_expressible {r : Request} {h : BitVec 4} (he : r.expressible = true)
    (hcode : r.w0.extractLsb' 0 4 = h) (hreserved : h ∉ [0x0, 0xE, 0xF]) (hlow : r.w0.extractLsb' 4 4 = 0)
    (hhigh : r.w0.extractLsb' 16 16 = 0) : ∃ i, CodeOf r h i := by
  rcases operation_codes h hreserved with rfl | rfl | rfl | rfl | rfl | rfl | rfl | rfl | rfl | rfl | rfl | rfl | rfl
  · exact ⟨_, .init⟩
  · exact ⟨_, .readId⟩
  · exact ⟨_, .readStatus⟩
  · exact ⟨_, .readCfg⟩
  · exact ⟨_, .readCfg2⟩
  · exact ⟨_, .writeCfg2⟩
  · exact ⟨_, .read⟩
  · have hfield : hopField r.w0 = 0x8 := hcode
    have hbits : reservedBitsSet r.w0 = false := reservedBitsSet_eq_false hlow hhigh
    refine ⟨_, .program ?_⟩
    by_contra hne
    simp [Request.expressible, decodeHost, hfield, hbits, decodeOperation, hne] at he
  · exact ⟨_, .eraseSector⟩
  · exact ⟨_, .eraseBlock⟩
  · exact ⟨_, .eraseChip⟩
  · exact ⟨_, .mmapEnable⟩
  · exact ⟨_, .mmapDisable⟩

/-- Every operation goes through `State.accept` with its own code. -/
theorem CodeOf.exec_accept {r : Request} {h : BitVec 4} {i : Instr} (hi : CodeOf r h i) (s : State) :
    ∃ own req load, exec i s = .next (s.accept h own req load) := by
  cases hi <;> exact ⟨_, _, _, rfl⟩

/-- Settles O12: FAULT and the encoding are the earlier rules; the mode and the window are the common checks of
`State.accept`; of the operations that pass them each is accepted or refused by its own check. -/
theorem acceptanceInOrder : Obligations.AcceptanceInOrder := by
  unfold Obligations.AcceptanceInOrder
  intro s r rest hr hs hh he
  obtain ⟨h, hcode⟩ : ∃ h, r.w0.extractLsb' 0 4 = h := ⟨_, rfl⟩
  rw [hcode]
  by_cases hf : s.fault = true
  · refine ⟨_, step_request_faulted hr hs hf hh he, ?_⟩
    intro u h refused
    rw [if_pos hf]
    rfl
  have hfault : s.fault = false := Bool.eq_false_iff.2 hf
  by_cases hres : r.w0.extractLsb' 4 4 ≠ 0 ∨ r.w0.extractLsb' 16 16 ≠ 0 ∨ h = 0x0 ∨ h = 0xE ∨ h = 0xF
  · refine ⟨_, reservedEncodingsRefused.2 s r rest hr hs hfault hh (by rw [hcode]; tauto), ?_⟩
    intro u h refused
    rw [if_neg hf, if_pos hres]
  have hcodes : h ∉ [0x0, 0xE, 0xF] := by
    simp only [List.mem_cons, List.not_mem_nil, or_false]
    tauto
  have hlow : r.w0.extractLsb' 4 4 = 0 := by tauto
  have hhigh : r.w0.extractLsb' 16 16 = 0 := by tauto
  obtain ⟨i, hi⟩ := codeOf_of_expressible he hcode hcodes hlow hhigh
  have hstep : step s = exec i { s with host := rest } := step_operation hi hr hs hh hcode hlow hhigh
  have hrefuse {v : Violation} (hv : s.commonViolation h = some v) :
      step s = .next (({ s with host := rest } : State).refuse v) := by
    obtain ⟨own, req, load, hx⟩ := hi.exec_accept { s with host := rest }
    rw [hstep, hx, accept_common (s := { s with host := rest }) hs hv]
  have hcommon : s.commonViolation h =
      if h = 0x1 ∧ s.mode = .octal then some .mode
      else if h ≠ 0x1 ∧ s.mode = .legacy then some .mode
      else if s.mmapEn = true ∧ h ≠ 0xC ∧ h ≠ 0xD then some .mmap
      else none := by
    rw [State.commonViolation, if_neg hf]
  by_cases hinit : h = 0x1 ∧ s.mode = .octal
  · refine ⟨_, hrefuse (by rw [hcommon, if_pos hinit]), ?_⟩
    intro u h refused
    rw [if_neg hf, if_neg hres, if_pos hinit]
    rfl
  by_cases hlegacy : h ≠ 0x1 ∧ s.mode = .legacy
  · refine ⟨_, hrefuse (by rw [hcommon, if_neg hinit, if_pos hlegacy]), ?_⟩
    intro u h refused
    rw [if_neg hf, if_neg hres, if_neg hinit, if_pos hlegacy]
    rfl
  by_cases hwindow : s.mmapEn = true ∧ h ≠ 0xC ∧ h ≠ 0xD
  · refine ⟨_, hrefuse (by rw [hcommon, if_neg hinit, if_neg hlegacy, if_pos hwindow]), ?_⟩
    intro u h refused
    rw [if_neg hf, if_neg hres, if_neg hinit, if_neg hlegacy, if_pos hwindow]
    rfl
  have hmode : s.mode = if h = 0x1 then .legacy else .octal := by
    cases hm : s.mode <;> split <;> simp_all
  simp only [if_neg hf, if_neg hres, if_neg hinit, if_neg hlegacy, if_neg hwindow]
  have hoctal (hne : h ≠ 0x1) : s.mode = .octal := by rw [hmode, if_neg hne]
  have hw (hC : h ≠ 0xC) (hD : h ≠ 0xD) : s.mmapEn = false :=
    Bool.eq_false_iff.2 fun hen => hwindow ⟨hen, hC, hD⟩
  have hregister := registerOperationsAccepted { s with host := rest } r.w1 (valField r.w0) hs hfault
  have harray := readAndProgramAccepted { s with host := rest } r.w1 r.w2 r.wdata hs hfault
  have herase := erasesAccepted { s with host := rest } r.w1 hs hfault
  clear hf hres hcodes hrefuse hcommon hinit hlegacy
  cases hi with
  | init =>
    refine ⟨_, hstep.trans (initAccepted { s with host := rest } hs hfault hmode (hw (by decide) (by decide))), ?_⟩
    simp [hfault]
  | readId =>
    obtain ⟨hid, -⟩ := hregister (hoctal (by decide)) (hw (by decide) (by decide))
    exact ⟨_, hstep.trans hid, by simp [hfault]⟩
  | readStatus =>
    obtain ⟨-, hstatus, -⟩ := hregister (hoctal (by decide)) (hw (by decide) (by decide))
    exact ⟨_, hstep.trans hstatus, by simp [hfault]⟩
  | readCfg =>
    obtain ⟨-, -, hrow, hnone, -⟩ := hregister (hoctal (by decide)) (hw (by decide) (by decide))
    by_cases hcfg : s.cfg.rdcr = none
    · exact ⟨_, hstep.trans (hnone hcfg), by simp [catalog_rdcr_eq_none_iff, hcfg]⟩
    · exact ⟨_, hstep.trans (hrow hcfg), by simp [hfault, catalog_rdcr_eq_none_iff, hcfg]⟩
  | readCfg2 =>
    obtain ⟨-, -, -, -, hcfg2, -⟩ := hregister (hoctal (by decide)) (hw (by decide) (by decide))
    exact ⟨_, hstep.trans hcfg2, by simp [hfault]⟩
  | writeCfg2 =>
    obtain ⟨-, -, -, -, -, hwrite⟩ := hregister (hoctal (by decide)) (hw (by decide) (by decide))
    exact ⟨_, hstep.trans hwrite, by simp [hfault, valField]⟩
  | read =>
    obtain ⟨hin, hout⟩ := harray (hoctal (by decide)) (hw (by decide) (by decide))
    by_cases hrange : r.w1.toNat + r.w2.toNat ≤ 0x02000000
    · obtain ⟨hread, hempty, -⟩ := hin hrange
      by_cases hz : r.w2 = 0
      · exact ⟨_, hstep.trans (hempty hz), by simpa [hfault, hrange] using hz⟩
      · exact ⟨_, hstep.trans (hread hz), by simpa [hfault, hrange] using hz⟩
    · exact ⟨_, hstep.trans (hout (by omega)).1, by simp [hrange]⟩
  | program =>
    obtain ⟨hin, hout⟩ := harray (hoctal (by decide)) (hw (by decide) (by decide))
    by_cases hrange : r.w1.toNat + r.w2.toNat ≤ 0x02000000
    · exact ⟨_, hstep.trans (hin hrange).2.2, by simp [hfault, hrange]⟩
    · exact ⟨_, hstep.trans (hout (by omega)).2, by simp [hrange]⟩
  | eraseSector =>
    obtain ⟨hin, hout, -⟩ := herase (hoctal (by decide)) (hw (by decide) (by decide))
    by_cases hrange : r.w1.toNat < 0x02000000
    · exact ⟨_, hstep.trans (hin hrange).1, by simp [hfault, Nat.succ_le_of_lt hrange]⟩
    · exact ⟨_, hstep.trans (hout (by omega)).1, by simp [hrange]⟩
  | eraseBlock =>
    obtain ⟨hin, hout, -⟩ := herase (hoctal (by decide)) (hw (by decide) (by decide))
    by_cases hrange : r.w1.toNat < 0x02000000
    · exact ⟨_, hstep.trans (hin hrange).2, by simp [hfault, Nat.succ_le_of_lt hrange]⟩
    · exact ⟨_, hstep.trans (hout (by omega)).2, by simp [hrange]⟩
  | eraseChip =>
    obtain ⟨-, -, hchip⟩ := herase (hoctal (by decide)) (hw (by decide) (by decide))
    exact ⟨_, hstep.trans hchip, by simp [hfault]⟩
  | mmapEnable =>
    obtain ⟨hen, -⟩ := windowOperations.1 { s with host := rest } hs hfault (hoctal (by decide))
    exact ⟨_, hstep.trans hen, by simp [hfault]⟩
  | mmapDisable =>
    obtain ⟨-, hdis⟩ := windowOperations.1 { s with host := rest } hs hfault (hoctal (by decide))
    exact ⟨_, hstep.trans hdis, by simp [hfault]⟩

end Sys2Proof.Machine

/-! Reset and the words the host reads (10_state.md R33, R37; 30_encoding.md R90; 70_reset_and_hazards.md R290), and the
instruction a step runs (10_state.md R30). -/

namespace Sys2Proof.Machine

/-! ## Reset -/

/-- Settles O49: IDLE with no record and no window is consistent; the memories and the trace are empty. -/
theorem resetIsConsistent : Obligations.ResetIsConsistent := by
  unfold Obligations.ResetIsConsistent
  exact ⟨consistent_of_settled rfl (fun _ => ⟨rfl, rfl, rfl⟩) fun _ => ⟨rfl, rfl⟩, reset_memory_wf, rfl,
    ⟨rfl, fun h => by cases h⟩⟩

/-- Settles O55: the reset state stands still without a request, and the reset input leads to `State.engineReset`, which
is that state but for what lies outside the engine. -/
theorem resetLeaves : Obligations.ResetLeaves := by
  unfold Obligations.ResetLeaves
  refine ⟨⟨rfl, rfl, rfl, rfl, rfl, rfl, rfl, rfl, rfl, rfl, rfl, step_noRequest rfl rfl rfl⟩, fun s hr => ?_⟩
  have hstatus : s.engineReset.statusWord = State.reset.statusWord := rfl
  exact ⟨s.engineReset, step_reset hr, rfl, rfl, rfl, rfl, rfl, rfl, rfl, rfl, rfl, hstatus, rfl, rfl, rfl, rfl, rfl,
    rfl⟩

/-! ## The words the host reads -/

/-- Settles O56: each field is cut out of the concatenation it is part of. -/
theorem hostWords : Obligations.HostWords := by
  unfold Obligations.HostWords
  have hmode (m : Mode) : modeBit m = decide (m = .octal) := by cases m <;> rfl
  have hbusy (s : State) : s.busy = decide (s.seq ≠ .idle) := by
    simp [State.busy, bne, Bool.beq_eq_decide_eq]
  refine ⟨fun s => ⟨?_, ?_, ?_, ?_, ?_, ?_, ?_, ?_, ?_, ?_, rfl⟩, fun r => ⟨?_, ?_, ?_, ?_, rfl, rfl⟩⟩
  iterate 5
    · simp only [State.statusWord, BitVec.getLsbD_setWidth, BitVec.getLsbD_append]
      simp [hmode, hbusy]
  · rw [State.statusWord, BitVec.extractLsb'_setWidth_of_le (by decide)]
    iterate 5 rw [BitVec.extractLsb'_append_eq_of_le (by decide)]
    exact BitVec.extractLsb'_append_eq_right
  · rw [State.statusWord, BitVec.extractLsb'_setWidth_of_le (by decide)]
    iterate 6 rw [BitVec.extractLsb'_append_eq_of_le (by decide)]
    exact BitVec.extractLsb'_append_eq_right
  · rw [State.statusWord, BitVec.extractLsb'_setWidth_of_le (by decide)]
    iterate 7 rw [BitVec.extractLsb'_append_eq_of_le (by decide)]
    exact BitVec.extractLsb'_append_eq_right
  · rw [State.statusWord, BitVec.extractLsb'_setWidth_of_le (by decide)]
    iterate 8 rw [BitVec.extractLsb'_append_eq_of_le (by decide)]
    exact BitVec.extractLsb'_append_eq_right
  · rw [State.statusWord, BitVec.extractLsb'_setWidth_of_le (by decide)]
    iterate 8 rw [BitVec.extractLsb'_append_eq_of_le (by decide)]
    exact BitVec.extractLsb'_append_eq_left
  · rw [Response.q0, BitVec.extractLsb'_setWidth_of_le (by decide)]
    exact BitVec.extractLsb'_append_eq_right
  · rw [Response.q0, BitVec.extractLsb'_setWidth_of_le (by decide)]
    iterate 1 rw [BitVec.extractLsb'_append_eq_of_le (by decide)]
    exact BitVec.extractLsb'_append_eq_right
  · rw [Response.q0, BitVec.extractLsb'_setWidth_of_le (by decide)]
    iterate 2 rw [BitVec.extractLsb'_append_eq_of_le (by decide)]
    exact BitVec.extractLsb'_append_eq_right
  · rw [Response.q0, BitVec.extractLsb'_setWidth_of_le (by decide)]
    iterate 2 rw [BitVec.extractLsb'_append_eq_of_le (by decide)]
    exact BitVec.extractLsb'_append_eq_left

/-! ## The instruction a step runs -/

/-- A state that issues a wire command runs it, and then the operation goes on. -/
theorem step_exec_advance {s : State} {i : Instr} (hr : s.rst = false) (hq : s.prepare.issue = some (.command i)) :
    ∃ t, exec i s.prepare = .next t ∧ step s = .next t.advance := by
  obtain ⟨t, ht⟩ := exec_next i s.prepare
  exact ⟨t, ht, by rw [step_call hr hq, ht]; rfl⟩

/-- A placed wire command is what the next step issues (log 10): the data of a page program fills one chunk. -/
theorem placeWire_issues {cfg : Cfg} {i : Instr} {t : Cmd × Mode × Word × Nat × List Byte}
    (hi : i.transaction cfg = some t) (hwf : i.wellFormed cfg = true) (s : State) :
    (s.placeWire i).rst = false ∧ (s.placeWire i).prepare = s.placeWire i ∧
      (s.placeWire i).issue = some (.command i) := by
  cases i <;> cases hi
  case pp4bO addr data =>
    have hpage := (pageOk_iff _ _).1 hwf
    have hlen : data.length % 512 = data.length := Nat.mod_eq_of_lt (by omega)
    refine ⟨rfl, rfl, ?_⟩
    simp [State.placeWire, State.issue, octalOnly, State.chunkData, hlen]
  all_goals exact ⟨rfl, rfl, rfl⟩

/-- Settles O29: a request by `step_request`, a state that issues a command by `step_exec_advance`, and placed words
because they are placed in such a state. -/
theorem stepRunsDecodedInstruction : Obligations.StepRunsDecodedInstruction := by
  unfold Obligations.StepRunsDecodedInstruction
  refine ⟨fun s r rest i hr hs hh hd => step_request hr hs hh hd, fun s i => step_exec_advance,
    fun s p data i hd => ?_⟩
  obtain ⟨td, c, -, -, -, ha⟩ := decode_wire_iff.1 hd
  obtain ⟨b, hi, -⟩ := assemble_transaction ha
  obtain ⟨hr, hprepare, hissue⟩ := placeWire_issues hi (decode_wire_wellFormed hd) s
  have hplace : s.placeWords (.wire p data) = s.placeWire i := by rw [State.placeWords, hd]
  rw [hplace]
  have hstep := step_exec_advance hr (hprepare.symm ▸ hissue)
  rwa [hprepare] at hstep

end Sys2Proof.Machine

/-! The wire commands, answered `Ok` (40_command_catalog.md R122, R123, R128 to R140): the descriptor of each, and the
one call it makes. -/

namespace Sys2Proof.Machine

/-! ## A command, a write and a read whose answer is known -/

theorem sendCommand_complete {s : State} {c : Cmd} {m : Mode} {a : Word} {td : TD} {bs : List Byte} (hm : s.mode = m)
    (hb : build s.cfg c m a 0 = some td) (ha : s.answerTo (.execCmd td) = .ok bs) :
    s.sendCommand c m a =
      { s with env := s.env.next s.cfg s.trace (.execCmd td), trace := s.trace ++ [(.execCmd td, .ok bs)] } := by
  rw [sendCommand_ok hm hb ha, called_eq ha]

theorem sendWrite_complete {s : State} {c : Cmd} {m : Mode} {a : Word} {data : List Byte} {td : TD} {bs : List Byte}
    (hm : s.mode = m) (hb : build s.cfg c m a (BitVec.ofNat 32 data.length) = some td)
    (ha : s.answerTo (.execWrite td data) = .ok bs) :
    s.sendWrite c m a data =
      { s with env := s.env.next s.cfg s.trace (.execWrite td data)
               trace := s.trace ++ [(.execWrite td data, .ok bs)] } := by
  rw [sendWrite_ok hm hb ha, called_eq ha]

theorem readRegister_complete {s : State} {c : Cmd} {m : Mode} {a : Word} {td : TD} {b : Byte} {pad : List Byte}
    (hm : s.mode = m) (hb : build s.cfg c m a (BitVec.ofNat 32 (wireLen s.cfg c m 1)) = some td)
    (ha : s.answerTo (.execRead td) = .ok (b :: pad)) :
    s.readRegister c m a =
      { s with env := s.env.next s.cfg s.trace (.execRead td)
               trace := s.trace ++ [(.execRead td, .ok (b :: pad))], vRb := b } := by
  rw [readRegister_ok hm hb ha, called_eq ha]

theorem sendRead_rbuf_complete {s : State} {c : Cmd} {m : Mode} {a : Word} {n : Nat} {td : TD} {bs : List Byte}
    (hm : s.mode = m) (hb : build s.cfg c m a (BitVec.ofNat 32 n) = some td)
    (ha : s.answerTo (.execRead td) = .ok bs) (hn : bs.length = n) :
    s.sendRead c m a n n storeRbuf =
      { s with env := s.env.next s.cfg s.trace (.execRead td), trace := s.trace ++ [(.execRead td, .ok bs)]
               rbuf := bs } := by
  rw [sendRead_ok hm hb ha, called_eq ha, List.take_of_length_le hn.le]
  rfl

/-! ## The descriptors with a cell of the configuration -/

/-- The address phase of a NONE or CONST cell (40_command_catalog.md R126): with the constant where there is one. -/
theorem describe_fixedKind (op : BitVec 16) (p : Option Word) (dstr : Bool) (dummy : BitVec 5) (a n : Word) :
    (Row.mk op (fixedKind p) .read dstr dummy).describe .octal a n =
      ⟨op, .op16, .l8, .dtr, p.isSome, if p.isSome then .l8 else .l1, if p.isSome then .dtr else .str, p.getD 0, .read,
        .l8, if dstr then .str else .dtr, n, dummy⟩ := by
  cases p <;> cases dstr <;> rfl

theorem build_rdsr_octal (cfg : Cfg) (a n : Word) :
    build cfg .rdsr .octal a n =
      some ⟨0x05FA, .op16, .l8, .dtr, cfg.regAddrO.isSome, if cfg.regAddrO.isSome then .l8 else .l1,
        if cfg.regAddrO.isSome then .dtr else .str, cfg.regAddrO.getD 0, .read, .l8, .dtr, n, cfg.dummyRegO⟩ := by
  rw [build_eq]
  exact congrArg some (describe_fixedKind _ _ false _ a n)

theorem build_rdid_octal (cfg : Cfg) (a n : Word) :
    build cfg .rdid .octal a n =
      some ⟨0x9F60, .op16, .l8, .dtr, cfg.regAddrO.isSome, if cfg.regAddrO.isSome then .l8 else .l1,
        if cfg.regAddrO.isSome then .dtr else .str, cfg.regAddrO.getD 0, .read, .l8, .str, n, cfg.dummyRegO⟩ := by
  rw [build_eq]
  exact congrArg some (describe_fixedKind _ _ true _ a n)

theorem build_rdcr_legacy {cfg : Cfg} {r : RdcrRow} (h : cfg.rdcr = some r) (a n : Word) :
    build cfg .rdcr .legacy a n =
      some ⟨r.l.setWidth 16, .op8, .l1, .str, false, .l1, .str, 0, .read, .l1, .str, n, r.lDummy⟩ :=
  build_of_row a n (catalog_legacy_rdcr h)

theorem build_rdcr_octal {cfg : Cfg} {r : RdcrRow} (h : cfg.rdcr = some r) (a n : Word) :
    build cfg .rdcr .octal a n =
      some ⟨r.o, .op16, .l8, .dtr, r.oAddr.isSome, if r.oAddr.isSome then .l8 else .l1,
        if r.oAddr.isSome then .dtr else .str, r.oAddr.getD 0, .read, .l8, .dtr, n, r.oDummy⟩ := by
  rw [build_of_row a n (catalog_octal_rdcr h)]
  exact congrArg some (describe_fixedKind _ _ false _ a n)

/-! ## Every command -/

/-- Settles O20: each sends its command. -/
theorem legacyCommandsComplete : Obligations.LegacyCommandsComplete := by
  unfold Obligations.LegacyCommandsComplete
  intro s p hp hm c bs ha
  simp only [List.mem_cons, List.not_mem_nil, or_false] at hp
  rcases hp with rfl | rfl | rfl <;> exact congrArg Host.Outcome.next (sendCommand_complete hm rfl ha)

/-- Settles O21: two register reads of one byte, and the identification read. -/
theorem legacyReadsComplete : Obligations.LegacyReadsComplete := by
  unfold Obligations.LegacyReadsComplete
  intro s addr hm
  refine ⟨?_, ?_, ?_⟩
  · intro c b ha
    exact congrArg Host.Outcome.next (readRegister_complete hm rfl ha)
  · intro c b ha
    exact congrArg Host.Outcome.next (readRegister_complete hm rfl ha)
  · intro c b0 b1 b2 ha
    exact congrArg Host.Outcome.next (sendRead_rbuf_complete hm rfl ha rfl)

/-- Settles O22: each sends its command, the sector and block erases with their address. -/
theorem octalCommandsComplete : Obligations.OctalCommandsComplete := by
  unfold Obligations.OctalCommandsComplete
  intro s addr hm
  refine ⟨fun p hp => ?_, fun p hp => ?_⟩ <;> intro c bs ha <;>
    simp only [List.mem_cons, List.not_mem_nil, or_false] at hp
  · rcases hp with rfl | rfl | rfl | rfl <;> exact congrArg Host.Outcome.next (sendCommand_complete hm rfl ha)
  · rcases hp with rfl | rfl <;> exact congrArg Host.Outcome.next (sendCommand_complete hm rfl ha)

/-- Settles O23: two register reads of two bytes, and the identification read; the fixed address is a cell of the
configuration. -/
theorem octalReadsComplete : Obligations.OctalReadsComplete := by
  unfold Obligations.OctalReadsComplete
  intro s addr hm ap aw ar fixed
  refine ⟨?_, ?_, ?_⟩
  · intro c b pad ha
    exact congrArg Host.Outcome.next (readRegister_complete hm (build_rdsr_octal s.cfg 0 2) ha)
  · intro c b pad ha
    exact congrArg Host.Outcome.next (readRegister_complete hm (build_rdcr2_octal s.cfg addr) ha)
  · intro c b0 b1 b2 ha
    exact congrArg Host.Outcome.next (sendRead_rbuf_complete hm (build_rdid_octal s.cfg 0 3) ha rfl)

/-- Settles O24: the widened value is written. -/
theorem configurationWritesComplete : Obligations.ConfigurationWritesComplete := by
  unfold Obligations.ConfigurationWritesComplete
  intro s addr v
  refine ⟨fun hm => ?_, fun hm => ?_⟩ <;> intro c bs ha <;>
    exact congrArg Host.Outcome.next (sendWrite_complete hm rfl ha)

/-- Settles O25: an array read keeps its bytes; a page program that passes the guard writes its own. -/
theorem arrayTransfersComplete : Obligations.ArrayTransfersComplete := by
  unfold Obligations.ArrayTransfersComplete
  intro s addr hm
  refine ⟨fun len => ?_, fun data hpos hle => ?_⟩ <;> intro c bs ha
  · refine congrArg Host.Outcome.next (sendRead_rbuf_complete hm ?_ ha (answerTo_length ha))
    rw [BitVec.ofNat_toNat, BitVec.setWidth_eq]
    exact build_dtrd8_octal s.cfg addr len
  · rw [exec, execPp4bO, if_pos ((pageOk_iff addr data.length).2 ⟨hpos, hle⟩)]
    exact congrArg Host.Outcome.next (sendWrite_complete hm (build_pp4b_octal s.cfg addr _) ha)

/-- Settles O26: a register read, with the row of the configuration. -/
theorem configurationReadsComplete : Obligations.ConfigurationReadsComplete := by
  unfold Obligations.ConfigurationReadsComplete
  intro s r hrow
  refine ⟨fun hm => ?_, fun hm => ?_⟩
  · intro c b ha
    exact congrArg Host.Outcome.next (readRegister_complete hm (by
      rw [wireLen_legacy]
      exact build_rdcr_legacy hrow 0 1) ha)
  · intro c b pad ha
    exact congrArg Host.Outcome.next (readRegister_complete hm (by
      rw [wireLen_octal s.cfg (by decide)]
      exact build_rdcr_octal hrow 0 2) ha)

/-! ## The wrong table -/

theorem sendCommand_none {s : State} {c : Cmd} {m : Mode} {a : Word} (h : ∀ n, s.descriptor c m a n = none) :
    s.sendCommand c m a = s.refuse .mode := by
  rw [State.sendCommand, h, raise_protocolViolation]

theorem sendRead_none {s : State} {c : Cmd} {m : Mode} {a : Word} {n k : Nat} {store : List Byte → State → State}
    (h : ∀ n, s.descriptor c m a n = none) : s.sendRead c m a n k store = s.refuse .mode := by
  rw [State.sendRead, h, raise_protocolViolation]

theorem sendWrite_none {s : State} {c : Cmd} {m : Mode} {a : Word} {data : List Byte}
    (h : ∀ n, s.descriptor c m a n = none) : s.sendWrite c m a data = s.refuse .mode := by
  rw [State.sendWrite, h, raise_protocolViolation]

/-- A command of the other mode's table, or without a row, has no descriptor (41_transaction_builder.md R142). -/
theorem descriptor_eq_none {s : State} {c : Cmd} {m : Mode} (h : m ≠ s.mode ∨ catalog s.cfg m c = none) (a : Word)
    (n : Nat) : s.descriptor c m a n = none := by
  rcases h with hm | hrow
  · exact descriptor_other hm.symm
  · unfold State.descriptor
    split
    · exact build_of_no_row _ _ hrow
    · rfl

/-- Settles O27: without a descriptor each command raises PV_MODE; a well-formed page program passes its guard first. -/
theorem wrongTableNotBuilt : Obligations.WrongTableNotBuilt := by
  unfold Obligations.WrongTableNotBuilt
  intro s i c m a n data hi hwf h
  have hnone := descriptor_eq_none (c := c) h
  have hrefuse : ({ s with rsp := ⟨1, 2, 0, 0, s.done, []⟩, seq := .resp } : State) = s.refuse .mode := rfl
  rw [hrefuse]
  cases i <;> simp only [Instr.transaction, reduceCtorEq, Option.some.injEq, Prod.mk.injEq] at hi <;>
    obtain ⟨rfl, rfl, rfl, rfl, rfl⟩ := hi
  case pp4bO addr data =>
    have hpage : pageOk addr data.length = true := hwf.resolve_right (by decide)
    rw [exec, execPp4bO, if_pos hpage, sendWrite_none (hnone addr)]
  case wrcr2L | wrcr2O => exact congrArg Host.Outcome.next (sendWrite_none (hnone _))
  case wrenL | wrenO | rstenL | rstenO | rstL | rstO | seO | beO | ceO =>
    exact congrArg Host.Outcome.next (sendCommand_none (hnone _))
  all_goals exact congrArg Host.Outcome.next (sendRead_none (hnone _))

end Sys2Proof.Machine

/-! Causes of FAULT (10_state.md R29; 60_exceptions.md R256 to R259). -/

namespace Sys2Proof.Machine

@[simp] theorem prepare_fault (s : State) : s.prepare.fault = s.fault := by rw [prepare_eq]
@[simp] theorem prepare_pollN (s : State) : s.prepare.pollN = s.pollN := by rw [prepare_eq]
@[simp] theorem prepare_vOld (s : State) : s.prepare.vOld = s.vOld := by rw [prepare_eq]

theorem pollExhausted_iff (cfg : Cfg) (n : Nat) :
    pollExhausted cfg n = true ↔ cfg.pollLimit ≠ 0 ∧ cfg.pollLimit ≤ n := by
  simp [pollExhausted]

/-- Of what follows a call answered `Ok`, two things set FAULT: the bound of a poll, and a fatal mismatch. -/
theorem advance_faults {s : State} (hf : s.fault = false) (h : s.advance.fault = true) :
    (s.seq ∈ [Seq.initPoll, .wc2Poll, .pgPoll, .erPoll] ∧ wipSet s.cfg s.vRb = true ∧
      pollExhausted s.cfg (s.pollN + 1) = true ∧
      s.advance = ({ s with pollN := s.pollN + 1 } : State).raise .completionTimeout) ∨
    (s.seq = .initVerify ∧ s.vRb ≠ s.vNew ∧ s.cfg.initMismatchFatal = true ∧
      s.advance = ({ s with initMismatch := true } : State).raise .initMismatch) := by
  have poll {finish : State → State} (hfin : ∀ u : State, (finish u).fault = u.fault)
      (h : (s.afterPollRead finish).fault = true) :
      wipSet s.cfg s.vRb = true ∧ pollExhausted s.cfg (s.pollN + 1) = true ∧
        s.afterPollRead finish = ({ s with pollN := s.pollN + 1 } : State).raise .completionTimeout := by
    rcases afterPollRead_cases s finish with ⟨_, e⟩ | ⟨hw, hp, e⟩ | ⟨_, _, e⟩
    · rw [e, hfin, hf] at h; cases h
    · exact ⟨hw, hp, e⟩
    · rw [e] at h; exact absurd h (by simp [hf])
  unfold State.advance at h ⊢
  split at h
  case h_3 hq | h_14 hq | h_18 hq | h_21 hq =>
    rw [hq]
    exact .inl ⟨by simp, poll (fun _ => rfl) h⟩
  case h_7 hq =>
    rw [hq]
    refine .inr ⟨rfl, ?_⟩
    by_cases hm : s.vRb = s.vNew
    · rw [initConclude_match hm] at h
      exact absurd h (by simp [hf])
    cases hfatal : s.cfg.initMismatchFatal
    · rw [initConclude_tolerated hm hfatal] at h
      exact absurd h (by simp [hf])
    · exact ⟨hm, rfl, by simp [State.initConclude, mismatch_iff, hm, hfatal, hq]⟩
  all_goals exact absurd h (by simp [hf, State.goto, State.startPoll, State.respondOk])

theorem callOf_ne_mmapDisable (td : TD) (data : List Byte) : callOf td data ≠ .mmapDisable := by
  unfold callOf
  split <;> simp

/-- Settles O32: of the forms of a step, those that set FAULT are an `Err` of a wire command's call, what follows its
`Ok`, and an `Err` of MMAP_ENABLE's call. -/
theorem faultCauses : Obligations.FaultCauses := by
  unfold Obligations.FaultCauses
  intro s t hf h ht
  have kept (he : t.fault = s.fault) : False := by rw [he, hf] at ht; cases ht
  cases hr : s.rst
  case true =>
    rw [step_reset hr] at h
    cases h
    cases ht
  case false =>
    rcases step_next hr h with ⟨i, c, a, n, data, hq, hi, hw⟩ | ⟨_, e⟩ | ⟨_, e⟩ | ⟨_, e⟩ | ⟨_, e⟩ | ⟨_, e⟩ | ⟨_, e⟩ |
      ⟨_, e⟩ | ⟨_, e⟩ | ⟨r, rest, i, hs, _, _, hi, hx⟩ | ⟨_, _, _, _, _, e⟩
    · rcases hw with ⟨v, _, e⟩ | ⟨td, e, _, _, ha, ht⟩ | ⟨td, bs, v, l, _, _, _, _, e⟩
      · exact (kept (by rw [e]; exact prepare_fault s)).elim
      · rw [ht, raise_transportFault]
        exact ⟨prepare_hop s, rfl, .inl ⟨rfl, callOf td data, e, by simp [ha], rfl, callOf_ne_mmapDisable td data,
          by simp⟩⟩
      · rw [e] at ht
        rcases advance_faults (by simp [hf]) ht with ⟨hq, hwip, hex, ha⟩ | ⟨hq, hm, hfatal, ha⟩
        · rw [e, ha, raise_completionTimeout]
          obtain ⟨hlim, hle⟩ := (pollExhausted_iff _ _).1 hex
          refine ⟨prepare_hop s, rfl, .inr (.inl ⟨rfl, rfl, by simpa using hq, by simpa using hlim, by simpa using hle,
            by simpa [wipSet] using hwip, by simp⟩)⟩
        · rw [e, ha, raise_mismatchExn]
          have hs : s.seq = .initVerify := by simpa using hq
          have hnew : s.prepare.vNew = s.vNew := prepare_vNew (by simp [hs])
          exact ⟨prepare_hop s, rfl, .inr (.inr ⟨rfl, rfl, hs, by simpa using hfatal, by simpa [hnew] using hm, rfl,
            by simp [hnew]⟩)⟩
    · exact (kept (by rw [e]; exact prepare_fault s)).elim
    · exact (kept (by rw [e]; rfl)).elim
    · exact (kept (by rw [e]; rfl)).elim
    · refine (kept ?_).elim
      rw [e]
      unfold State.programSplit
      split
      · rfl
      · split <;> simp [State.raise, Exn.sticky]
    · exact (kept (by rw [e]; rfl)).elim
    · rw [State.windowEnable] at e
      rcases attempt_cases s (.mmapEnable (templateRead s.cfg) (templateWrite s.cfg))
          (fun _ t => ({ t with mmapEn := true } : State).respondOk 0 []) with ⟨err, ha, eq⟩ | ⟨_, _, eq⟩
      · rw [e, eq, raise_transportFault]
        exact ⟨rfl, rfl, .inl ⟨rfl, _, err, by rw [← ha]; rfl, rfl, by simp, rfl⟩⟩
      · exact (kept (by rw [e, eq]; rfl)).elim
    · exact (kept (by rw [e]; rfl)).elim
    · exact (kept (by rw [e])).elim
    · refine (kept ?_).elim
      rcases exec_host (s := { s with host := rest }) hs hi hx with ⟨v, e⟩ | ⟨_, _, e⟩
      · rw [e]; rfl
      · rw [e]
    · exact (kept (by rw [e]; rfl)).elim

end Sys2Proof.Machine

/-! The completion poll (42_register_access.md R166) under any answers. -/

namespace Sys2Proof.Machine

/-! ## Entering a poll -/

/-- No operation starts in a polling state. -/
theorem exec_host_polls {s t : State} {i : Instr} (hs : s.seq = .idle) (hi : i.transaction s.cfg = none)
    (h : exec i s = .next t) : t.seq ∉ [Seq.initPoll, .wc2Poll, .pgPoll, .erPoll] := by
  have accepted {c : BitVec 4} {own : Option Violation} {req : InFlight} {load : State → State}
      (hl : ∀ u : State, (load u).seq ∉ [Seq.initPoll, .wc2Poll, .pgPoll, .erPoll]) :
      (s.accept c own req load).seq ∉ [Seq.initPoll, .wc2Poll, .pgPoll, .erPoll] := by
    rcases accept_cases s c own req load with ⟨_, e⟩ | ⟨v, _, e⟩ | ⟨_, _, _, e⟩
    · rw [e, hs]; decide
    · rw [e, refuse_seq]; decide
    · rw [e]; exact hl _
  cases i <;> simp only [Instr.transaction, reduceCtorEq] at hi <;> cases h
  case reservedHop0 | reservedHopE | reservedHopF =>
    rcases refuseEncoding_cases s with ⟨_, e⟩ | ⟨v, _, e⟩
    · rw [e, hs]; decide
    · rw [e, refuse_seq]; decide
  case read addr len =>
    refine accepted fun u => ?_
    split <;> simp
  all_goals exact accepted fun u => by simp

/-- What follows an `Ok` enters a poll with POLL_N cleared (log 13). -/
theorem advance_enters_poll {s : State} (h : s.advance.seq ∈ [Seq.initPoll, .wc2Poll, .pgPoll, .erPoll]) :
    s.advance.seq = s.seq ∨ s.advance.pollN = 0 := by
  have poll {finish : State → State} (hfin : ∀ u, (finish u).seq ∉ [Seq.initPoll, .wc2Poll, .pgPoll, .erPoll])
      (h : (s.afterPollRead finish).seq ∈ [Seq.initPoll, .wc2Poll, .pgPoll, .erPoll]) :
      (s.afterPollRead finish).seq = s.seq := by
    rcases afterPollRead_cases s finish with ⟨_, e⟩ | ⟨_, _, e⟩ | ⟨_, _, e⟩
    · rw [e] at h; exact absurd h (hfin _)
    · rw [e, raise_completionTimeout] at h; simp at h
    · rw [e]
  have verify : s.initConclude.seq = .resp := by
    unfold State.initConclude
    split <;> rfl
  unfold State.advance at h ⊢
  split at h
  case h_2 | h_13 | h_17 | h_20 => exact .inr rfl
  case h_3 | h_14 | h_18 | h_21 => exact .inl (poll (by simp) h)
  case h_7 => rw [verify] at h; simp at h
  all_goals simp_all

/-! ## A Status read of a poll -/

/-- The Status read of the engine's mode. -/
theorem issue_polling {s : State} (hq : s.seq ∈ [Seq.initPoll, .wc2Poll, .pgPoll, .erPoll]) :
    s.prepare.issue = some (byMode s.mode .rdsrL .rdsrO) := by
  rw [prepare_of_ne (by rintro h; simp [h] at hq)]
  simp only [List.mem_cons, List.not_mem_nil, or_false] at hq
  rcases hq with h | h | h | h <;> simp only [State.issue, h]

theorem build_rdsr_some (cfg : Cfg) (m : Mode) (a n : Word) : ∃ td, build cfg .rdsr m a n = some td := by
  cases m
  · exact ⟨_, rfl⟩
  · exact ⟨_, build_rdsr_octal cfg a n⟩

/-- The Status read of a polling state, and then what its operation does. -/
theorem step_poll {s : State} {td : TD} {b : Byte} {pad : List Byte} (hr : s.rst = false)
    (hq : s.seq ∈ [Seq.initPoll, .wc2Poll, .pgPoll, .erPoll])
    (hb : build s.cfg .rdsr s.mode 0 (if s.mode = .octal then 2 else 1) = some td)
    (ha : s.answerTo (.execRead td) = .ok (b :: pad)) :
    step s = .next (State.advance
      { s with
        env := s.env.next s.cfg s.trace (.execRead td)
        trace := s.trace ++ [(.execRead td, .ok (b :: pad))]
        vRb := b }) := by
  have hp : s.prepare = s := prepare_of_ne (by rintro h; simp [h] at hq)
  have hi := issue_polling hq
  cases hm : s.mode <;> rw [hm] at hi hb <;> rw [step_call hr hi, hp]
  · show resume (.next (s.readRegister .rdsr .legacy 0)) = _
    rw [readRegister_complete hm hb ha]
    simp only [resume, hm]
  · show resume (.next (s.readRegister .rdsr .octal 0)) = _
    rw [readRegister_complete hm (by rw [wireLen_octal s.cfg (by simp)]; exact hb) ha]
    simp only [resume, hm]

/-- How a poll goes on, its Status byte in V_RB. -/
theorem advance_polling {s : State} (hq : s.seq ∈ [Seq.initPoll, .wc2Poll, .pgPoll, .erPoll]) :
    s.advance =
      if wipSet s.cfg s.vRb = false then pollEnd { s with pollN := s.pollN + 1 } s.seq
      else if s.cfg.pollLimit ≠ 0 ∧ s.cfg.pollLimit ≤ s.pollN + 1 then
        ({ s with pollN := s.pollN + 1 } : State).raise .completionTimeout
      else { s with pollN := s.pollN + 1 } := by
  have he : s.advance = s.afterPollRead fun t => pollEnd t s.seq := by
    simp only [List.mem_cons, List.not_mem_nil, or_false] at hq
    rcases hq with h | h | h | h <;> simp [State.advance, h, pollEnd, State.goto]
  rw [he]
  simp only [State.afterPollRead, pollExhausted_iff]

/-- Settles O34: what follows an `Ok` alone enters a poll, and it clears POLL_N; a step in a poll is `step_poll`, and the
clauses are the branches of `advance_polling`. -/
theorem pollRule : Obligations.PollRule := by
  unfold Obligations.PollRule
  refine ⟨fun s t hr h ht => ?_, fun s hr hq => ?_⟩
  · have responds {p : Prop} (he : t.seq = .resp) : p := by rw [he] at ht; simp at ht
    have leaves {q : Seq} {p : Prop} (he : t.seq = q) (hne : q ∉ [Seq.initPoll, .wc2Poll, .pgPoll, .erPoll]) : p :=
      absurd (he ▸ ht) hne
    rcases step_next hr h with ⟨_, _, _, _, _, _, _, hw⟩ | ⟨_, e⟩ | ⟨_, e⟩ | ⟨_, e⟩ | ⟨_, e⟩ | ⟨_, e⟩ | ⟨_, e⟩ |
      ⟨_, e⟩ | ⟨_, e⟩ | ⟨r, rest, i, hs, _, _, hi, hx⟩ | ⟨_, _, _, _, _, e⟩
    · rcases hw with ⟨_, _, e⟩ | ⟨_, _, _, _, _, e⟩ | ⟨_, _, _, _, _, _, _, _, e⟩
      · exact leaves (q := .resp) (by rw [e]; rfl) (by decide)
      · exact leaves (q := .resp) (by rw [e]; rfl) (by decide)
      · rw [e] at ht ⊢
        simpa using advance_enters_poll ht
    · exact leaves (q := .resp) (by rw [e]; rfl) (by decide)
    · exact leaves (q := .idle) (by rw [e]; rfl) (by decide)
    · exact leaves (q := .initVerify) (by rw [e]; rfl) (by decide)
    · revert ht
      rw [e]
      unfold State.programSplit
      split
      · simp
      · split <;> simp [State.raise]
    · exact leaves (q := .pgSplit) (by rw [e]; rfl) (by decide)
    · rw [State.windowEnable] at e
      rcases attempt_cases s (.mmapEnable (templateRead s.cfg) (templateWrite s.cfg))
          (fun _ t => ({ t with mmapEn := true } : State).respondOk 0 []) with ⟨_, _, eq⟩ | ⟨_, _, eq⟩ <;>
        exact leaves (q := .resp) (by rw [e, eq]; rfl) (by decide)
    · exact leaves (q := .resp) (by rw [e]; rfl) (by decide)
    · exact .inl (by rw [e])
    · exact absurd ht (exec_host_polls (s := { s with host := rest }) hs hi hx)
    · exact leaves (q := .resp) (by rw [e]; rfl) (by decide)
  · obtain ⟨td, hb⟩ := build_rdsr_some s.cfg s.mode 0 (if s.mode = .octal then 2 else 1)
    refine ⟨td, hb, fun b pad ha => ?_⟩
    have hstep := step_poll hr hq hb ha
    rw [advance_polling (by exact hq)] at hstep
    refine ⟨fun hw => ?_, fun hw hlim hle => ?_, fun hw hlt => ?_⟩
    · rw [if_pos (show wipSet s.cfg b = false from hw)] at hstep
      refine ⟨fun h => ?_, fun h => ?_, fun h => ?_⟩
      · simpa [pollEnd, h] using hstep
      · simpa [pollEnd, h] using hstep
      · rcases h with h | h <;> simpa [pollEnd, h, State.respondOk] using hstep
    · rw [if_neg (by simpa [wipSet] using hw), if_pos ⟨hlim, hle⟩, raise_completionTimeout] at hstep
      exact hstep
    · rw [if_neg (by simpa [wipSet] using hw), if_neg (by dsimp only; omega)] at hstep
      exact hstep

end Sys2Proof.Machine

/-! The unbounded poll, and the second byte of a double-rate register read (60_exceptions.md R262;
42_register_access.md R162). -/

namespace Sys2Proof.Machine

/-! ## The unbounded poll -/

/-- The descriptor of a poll's Status read in the engine's mode. -/
def statusRead (s : State) : TD := transactionOf s.cfg .rdsr s.mode 0 (if s.mode = .octal then 2 else 1)

theorem build_statusRead (s : State) :
    build s.cfg .rdsr s.mode 0 (if s.mode = .octal then 2 else 1) = some (statusRead s) := by
  obtain ⟨td, h⟩ := build_rdsr_some s.cfg s.mode 0 (if s.mode = .octal then 2 else 1)
  rw [statusRead, transactionOf, h]
  rfl

theorem statusRead_dlen (s : State) : 0 < (statusRead s).dlen.toNat := by
  rw [build_dlen (build_statusRead s) (by simp [build_dd (build_statusRead s)])]
  split <;> decide

/-- The first byte of a scripted answer is kept, whatever its length. -/
theorem fitBytes_cons (h : History) (c : Call) (n : Nat) (b : Byte) (pad : List Byte) :
    ∃ q, fitBytes h c (n + 1) (b :: pad) = b :: q := by
  rw [fitBytes, List.range_succ_eq_map]
  exact ⟨_, rfl⟩

/-- A scripted answer of at least one byte, to a read of at least one. -/
theorem answerTo_script_cons {s : State} {td : TD} {b : Byte} {pad : List Byte} {more : List Answer}
    (hk : s.env.kind = .any) (hs : s.env.script = .ok (b :: pad) :: more) (hn : 0 < td.dlen.toNat) :
    ∃ q, s.answerTo (.execRead td) = .ok (b :: q) := by
  obtain ⟨k, hlen⟩ := Nat.exists_eq_add_one.mpr hn
  obtain ⟨q, hq⟩ := fitBytes_cons s.trace (.execRead td) k b pad
  refine ⟨q, ?_⟩
  rw [← hq, ← hlen]
  simp [State.answerTo, Env.answer, Env.anyAnswer, hk, hs, Answer.fit, Call.dataLen]

/-- The environment of a script after a read. -/
theorem next_script {e : Env} {cfg : Cfg} {h : History} {td : TD} (hk : e.kind = .any) :
    e.next cfg h (.execRead td) = { e with script := e.script.tail } := by
  simp [Env.next, hk, Env.anyNext]

/-- A Status read that shows WIP set leaves an unbounded poll where it is. -/
theorem step_poll_hangs {s : State} {b : Byte} {pad : List Byte} {more : List Answer} (hr : s.rst = false)
    (hq : s.seq ∈ [Seq.initPoll, .wc2Poll, .pgPoll, .erPoll]) (hlim : s.cfg.pollLimit = 0) (hk : s.env.kind = .any)
    (hs : s.env.script = .ok (b :: pad) :: more) (hw : b.getLsbD s.cfg.wipBit.val = true) :
    ∃ q, step s = .next
      { s with
        env := { s.env with script := more }
        trace := s.trace ++ [(.execRead (statusRead s), .ok (b :: q))]
        vRb := b
        pollN := s.pollN + 1 } := by
  obtain ⟨q, ha⟩ := answerTo_script_cons hk hs (statusRead_dlen s)
  refine ⟨q, ?_⟩
  rw [step_poll hr hq (build_statusRead s) ha, advance_polling (by exact hq), if_neg (by simpa [wipSet] using hw),
    if_neg (fun h => h.1 hlim), next_script hk, hs]
  rfl

/-- Settles O35, by induction on the answers: each is one step of `step_poll_hangs`. -/
theorem pollHangs : Obligations.PollHangs := by
  unfold Obligations.PollHangs
  intro s answers
  induction answers generalizing s with
  | nil =>
    intro more _ _ _ _ hs _
    refine ⟨s, [], rfl, ?_, rfl, fun i b pad h => by simp at h⟩
    have : more = s.env.script := by simpa using hs.symm
    simp [this]
  | cons bs answers ih =>
    intro more hr hq hlim hk hs hall
    obtain ⟨b, pad, rfl, hw⟩ := hall bs List.mem_cons_self
    obtain ⟨q, hstep⟩ := step_poll_hangs hr hq hlim hk hs hw
    obtain ⟨t, reads, hrun, ht, hreads, hanswers⟩ :=
      ih { s with
            env := { s.env with script := answers.map Answer.ok ++ more }
            trace := s.trace ++ [(.execRead (statusRead s), .ok (b :: q))]
            vRb := b
            pollN := s.pollN + 1 } more (by exact hr) (by exact hq) (by exact hlim) (by exact hk) rfl
        (fun bs h => hall bs (List.mem_cons_of_mem _ h))
    refine ⟨t, (.execRead (statusRead s), .ok (b :: q)) :: reads, (run_step hstep).trans hrun, ?_, ?_, ?_⟩
    · rw [ht]
      simp [Nat.add_assoc, Nat.add_comm]
    · simpa [List.replicate_succ, statusRead] using hreads
    · intro i c p hi
      cases i with
      | zero =>
        obtain ⟨rfl, -⟩ : b = c ∧ pad = p := by simpa using hi
        exact ⟨q, rfl⟩
      | succ i => exact hanswers i c p (by simpa using hi)

/-! ## The register reads of the Octal table -/

/-- A register read of the Octal table and its descriptor. -/
structure RegisterRead (s : State) (i : Instr) (c : Cmd) (a : Word) (td : TD) : Prop where
  issued : s.issue = some (.command i)
  runs : ∀ u : State, exec i u = .next (u.readRegister c .octal a)
  double : c ∈ [Cmd.rdsr, .rdcr2, .rdcr]
  built : build s.cfg c .octal a 2 = some td

theorem RegisterRead.dlen {s : State} {i : Instr} {c : Cmd} {a : Word} {td : TD} (h : RegisterRead s i c a td) :
    td.dlen = 2 := by
  refine build_dlen h.built ?_
  have hc := h.double
  simp only [List.mem_cons, List.not_mem_nil, or_false] at hc
  rcases hc with rfl | rfl | rfl <;> simp [build_dd h.built]

/-- Its step: the two bytes answered, of which the first is kept. -/
theorem RegisterRead.step_eq {s : State} {i : Instr} {c : Cmd} {a : Word} {td : TD} (h : RegisterRead s i c a td)
    {b p : Byte} {more : List Answer} (hr : s.rst = false) (hm : s.mode = .octal) (hq : s.seq ≠ .initWrcr2)
    (hk : s.env.kind = .any) (hs : s.env.script = .ok [b, p] :: more) :
    step s = .next (State.advance
      { s with
        env := { s.env with script := more }
        trace := s.trace ++ [(.execRead td, .ok [b, p])]
        vRb := b }) := by
  have hp : s.prepare = s := prepare_of_ne hq
  have hlen : wireLen s.cfg c .octal 1 = 2 := wireLen_octal s.cfg (fun he => by simpa [he] using h.double) 1
  rw [step_read (i := i) (c := c) (m := .octal) (a := a) (td := td) (n := 2) (k := 1) (store := storeVRb)
    (by exact hr) (by rw [hp]; exact h.issued) (by rw [hp, h.runs, State.readRegister, hlen]) hm h.built
    (by rw [h.dlen]; rfl) hk hs, hp]
  rfl

theorem registerRead_exists {s : State} (hm : s.mode = .octal)
    (hq : s.seq ∈ [Seq.initPoll, .wc2Poll, .pgPoll, .erPoll, .rsrRd, .rcrRd, .rc2Rd, .initRdcr2, .initVerify])
    (hrow : s.seq = .rcrRd → s.cfg.rdcr ≠ none) : ∃ i c a td, RegisterRead s i c a td := by
  simp only [List.mem_cons, List.not_mem_nil, or_false] at hq
  rcases hq with h | h | h | h | h | h | h | h | h
  case inr.inr.inr.inr.inr.inl =>
    obtain ⟨r, hr⟩ := Option.ne_none_iff_exists'.1 (hrow h)
    exact ⟨_, _, _, _, by simp only [State.issue, h, hm]; rfl, fun _ => rfl, by simp, build_rdcr_octal hr 0 2⟩
  case inr.inr.inr.inr.inr.inr.inl | inr.inr.inr.inr.inr.inr.inr.inl | inr.inr.inr.inr.inr.inr.inr.inr =>
    exact ⟨_, _, _, _, by simp only [State.issue, h, hm]; rfl, fun _ => rfl, by simp, build_rdcr2_octal s.cfg _⟩
  all_goals
    exact ⟨_, _, _, _, by simp only [State.issue, h, hm]; rfl, fun _ => rfl, by simp, build_rdsr_octal s.cfg 0 2⟩

/-! ## The second byte -/

/-- What follows an `Ok` does not look at the calls made. -/
theorem advance_retrace (s : State) (h : History) :
    ({ s with trace := h } : State).advance = { s.advance with trace := h } := by
  by_cases hq : s.seq ∈ [Seq.initPoll, .wc2Poll, .pgPoll, .erPoll]
  · rw [advance_polling hq, advance_polling (by exact hq)]
    unfold pollEnd
    split_ifs <;> rfl
  · unfold State.advance
    cases hs : s.seq
    case initVerify =>
      unfold State.initConclude
      dsimp only
      split_ifs <;> rfl
    case initPoll | wc2Poll | pgPoll | erPoll => simp [hs] at hq
    case idle | initFlip | pgSplit | pgAdv | mmEn | mmDis | resp => simp [hs]
    all_goals rfl

/-- Settles O41: whichever register is read, the two steps go on from states that differ in the trace alone. -/
theorem padByteIgnored : Obligations.PadByteIgnored := by
  unfold Obligations.PadByteIgnored
  intro s b p q more hr hm hk hq hrow
  obtain ⟨i, c, a, td, hread⟩ := registerRead_exists hm hq hrow
  have hne : s.seq ≠ .initWrcr2 := by rintro h; simp [h] at hq
  have scripted (x : Byte) : RegisterRead { s with env := { s.env with script := .ok [b, x] :: more } } i c a td :=
    ⟨hread.issued, hread.runs, hread.double, hread.built⟩
  have stepped (x : Byte) : step { s with env := { s.env with script := .ok [b, x] :: more } } =
      .next { ({ s with env := { s.env with script := more }, vRb := b } : State).advance with
        trace := s.trace ++ [(.execRead td, .ok [b, x])] } := by
    rw [(scripted x).step_eq hr hm hne hk rfl, ← advance_retrace]
  exact ⟨_, _, stepped p, stepped q, rfl⟩

end Sys2Proof.Machine

/-! Which step writes which register (10_state.md R21 to R31). -/

namespace Sys2Proof.Machine

/-- INIT_MISMATCH is written in INIT_VERIFY alone (10_state.md R23). -/
theorem advance_initMismatch {s : State} (h : s.seq ≠ .initVerify) : s.advance.initMismatch = s.initMismatch := by
  by_cases hq : s.seq ∈ [Seq.initPoll, .wc2Poll, .pgPoll, .erPoll]
  · rw [advance_polling hq]
    unfold pollEnd
    split_ifs <;> rfl
  · cases hs : s.seq <;> simp [State.advance, hs, State.goto, State.startPoll, State.respondOk]
    all_goals simp [hs] at h hq

/-- What follows an `Ok` does not clear FAULT. -/
theorem advance_fault {s : State} (h : s.fault = true) : s.advance.fault = true := by
  by_cases hq : s.seq ∈ [Seq.initPoll, .wc2Poll, .pgPoll, .erPoll]
  · rw [advance_polling hq]
    unfold pollEnd
    split_ifs <;> simp [State.respondOk, State.raise, h]
  · cases hs : s.seq <;> simp [State.advance, hs, State.goto, State.startPoll, State.respondOk, h]
    case initPoll | wc2Poll | pgPoll | erPoll => simp [hs] at hq
    unfold State.initConclude
    split_ifs <;> simp [State.respondOk, State.raise, h]

/-- What the step of a state that issues a bus transaction leaves alone, however the call ends. -/
structure CommandFrame (s t : State) : Prop where
  frame : t = { s with
    env := t.env, trace := t.trace, vNew := t.vNew, vRb := t.vRb, rbuf := t.rbuf, seq := t.seq, pollN := t.pollN
    vOld := t.vOld, rsp := t.rsp, fault := t.fault, faultCause := t.faultCause, faultOp := t.faultOp
    faultInfo := t.faultInfo, initMismatch := t.initMismatch }
  initMismatch : s.seq ≠ .initVerify → t.initMismatch = s.initMismatch
  pollN : s.seq ∉ [Seq.initPoll, .wc2Poll, .pgPoll, .erPoll] → t.seq ∉ [Seq.initPoll, .wc2Poll, .pgPoll, .erPoll] →
    t.pollN = s.pollN
  vOld : s.seq ≠ .initRdcr2 → t.vOld = s.vOld
  vNew : s.seq ≠ .initWrcr2 → t.vNew = s.vNew
  vRb : s.seq.readsByte = false → t.vRb = s.vRb
  rbuf : s.seq.readsList = false → t.rbuf = s.rbuf
  rsp : t.seq ≠ .resp → t.rsp = s.rsp
  fault : s.fault = true → t.fault = true

theorem CommandFrame.refuse (s : State) (v : Violation) : CommandFrame s (s.prepare.refuse v) where
  frame := by rw [prepare_eq s]; rfl
  initMismatch := fun _ => by rw [prepare_eq s]; rfl
  pollN := fun _ _ => prepare_pollN s
  vOld := fun _ => prepare_vOld s
  vNew := prepare_vNew
  vRb := fun _ => prepare_vRb s
  rbuf := fun _ => prepare_rbuf s
  rsp := fun h => absurd rfl h
  fault := fun h => (prepare_fault s).trans h

theorem CommandFrame.failed (s : State) (c : Call) (e : TErr) :
    CommandFrame s ((s.prepare.called c).raise (.transportFault e)) where
  frame := by rw [prepare_eq s]; rfl
  initMismatch := fun _ => by rw [prepare_eq s]; rfl
  pollN := fun _ _ => prepare_pollN s
  vOld := fun _ => prepare_vOld s
  vNew := prepare_vNew
  vRb := fun _ => prepare_vRb s
  rbuf := fun _ => prepare_rbuf s
  rsp := fun h => absurd rfl h
  fault := fun _ => by simp [raise_transportFault]

theorem CommandFrame.done {s : State} {i : Instr} {c : Cmd} {m : Mode} {a : Word} {n : Nat} {data : List Byte}
    (hq : s.prepare.issue = some (.command i)) (hi : i.transaction s.cfg = some (c, m, a, n, data)) (call : Call)
    {v : Byte} {l : List Byte} (hk : ReadsKept s c v l) :
    CommandFrame s (State.advance { s.prepare.called call with vRb := v, rbuf := l }) := by
  obtain ⟨hbyte, hlist⟩ := issue_reads hq (by simpa using hi)
  rw [prepare_seq] at hbyte hlist
  have hmis : s.prepare.initMismatch = s.initMismatch := by rw [prepare_eq s]
  exact {
    frame := by
      rw [advance_frame, prepare_eq s]
      rfl
    initMismatch := fun h => (advance_initMismatch (by simpa using h)).trans hmis
    pollN := fun h h' => (advance_pollN (by simpa using h) h').trans (prepare_pollN s)
    vOld := fun h => (advance_vOld (by simpa using h)).trans (prepare_vOld s)
    vNew := fun h => by
      rw [advance_frame]
      exact prepare_vNew h
    vRb := fun h => by
      rw [advance_frame]
      exact hk.byte fun hc => by rw [hbyte hc] at h; cases h
    rbuf := fun h => by
      rw [advance_frame]
      exact hk.list fun hc => by rw [hlist hc] at h; cases h
    rsp := fun h => (advance_rsp h).trans (by rw [prepare_eq s]; rfl)
    fault := fun h => advance_fault (by simpa using h) }

/-- The states that issue no wire command (10_state.md R30). -/
theorem issue_elsewhere {s : State} {x : Issued} (h : s.prepare.issue = some x) :
    s.seq ∉ [Seq.idle, .initFlip, .pgSplit, .pgAdv, .mmEn, .mmDis, .resp] := by
  intro hq
  simp only [List.mem_cons, List.not_mem_nil, or_false] at hq
  rw [prepare_of_ne (by rcases hq with hs | hs | hs | hs | hs | hs | hs <;> simp [hs])] at h
  rcases hq with hs | hs | hs | hs | hs | hs | hs <;> simp [State.issue, hs] at h

/-- The step of a state that issues a bus transaction, the reset input low. -/
theorem commandFrame_of_step {s t : State} (hr : s.rst = false) (h : step s = .next t) {x : Issued}
    (hx : s.prepare.issue = some x) : CommandFrame s t := by
  have elsewhere {p : Prop} (hs : s.seq ∈ [Seq.idle, .initFlip, .pgSplit, .pgAdv, .mmEn, .mmDis, .resp]) : p :=
    absurd hs (issue_elsewhere hx)
  rcases step_next hr h with ⟨i, c, a, n, data, hq, hi, hw⟩ | ⟨_, e⟩ | ⟨hs, _⟩ | ⟨hs, e⟩ | ⟨hs, _⟩ | ⟨hs, _⟩ | ⟨hs, _⟩ |
    ⟨hs, _⟩ | ⟨hs, _⟩ | ⟨_, _, _, hs, _⟩ | ⟨_, _, _, hs, _⟩
  · rcases hw with ⟨v, _, e⟩ | ⟨td, e, _, _, _, e'⟩ | ⟨td, bs, v, l, _, _, _, hk, e⟩
    · rw [e]; exact .refuse s v
    · rw [e']; exact .failed s _ e
    · rw [e]; exact .done hq hi _ hk
  · rw [e]; exact .refuse s _
  all_goals exact elsewhere (by simp [hs])

/-- What PG_SPLIT writes (44_array_access.md R205). -/
theorem programSplit_frame (s : State) :
    s.programSplit = { s with chunk := s.programSplit.chunk, rsp := s.programSplit.rsp, seq := s.programSplit.seq } ∧
      (s.programSplit.seq ≠ .resp → s.programSplit.rsp = s.rsp) := by
  unfold State.programSplit
  split_ifs
  · exact ⟨rfl, fun h => absurd rfl h⟩
  · exact ⟨rfl, fun _ => rfl⟩
  · rw [raise_protocolViolation]
    exact ⟨rfl, fun h => absurd rfl h⟩

/-- What MM_EN writes (45_memory_mapped.md R233). -/
theorem windowEnable_frame (s : State) :
    s.windowEnable.seq = .resp ∧
      s.windowEnable = { s with
        env := s.windowEnable.env, trace := s.windowEnable.trace, mmapEn := s.windowEnable.mmapEn
        fault := s.windowEnable.fault, faultCause := s.windowEnable.faultCause, faultOp := s.windowEnable.faultOp
        faultInfo := s.windowEnable.faultInfo, rsp := s.windowEnable.rsp, seq := s.windowEnable.seq } ∧
      (s.fault = true → s.windowEnable.fault = true) := by
  rcases attempt_cases s (.mmapEnable (templateRead s.cfg) (templateWrite s.cfg))
      (fun _ t => ({ t with mmapEn := true } : State).respondOk 0 []) with ⟨_, _, e⟩ | ⟨_, _, e⟩ <;>
    rw [State.windowEnable, e]
  · rw [raise_transportFault]
    exact ⟨rfl, rfl, fun _ => rfl⟩
  · exact ⟨rfl, rfl, id⟩

/-- Settles O38: a state that issues a bus transaction leaves the frame of `CommandFrame`; every other form of a step
says itself what it writes. -/
theorem registerWriters : Obligations.RegisterWriters := by
  unfold Obligations.RegisterWriters
  intro s t hr h
  have stopped (hc : Consistent s) (hf : s.fault = true) : s.seq.settledState = true := hc.faultStops hf
  cases hx : s.prepare.issue with
  | some x =>
    obtain ⟨hframe, hmis, hpoll, hvOld, hvNew, hvRb, hrbuf, hrsp, hfault⟩ := commandFrame_of_step hr h hx
    have hq := issue_elsewhere hx
    have hflip : s.seq ≠ .initFlip := by rintro he; simp [he] at hq
    refine ⟨?_, hmis, fun _ _ => by rw [hframe], fun _ _ => by rw [hframe], fun _ => ?_, fun _ _ => ?_,
      fun _ => by rw [hframe], hpoll, hvOld, fun hne _ => hvNew hne, fun hne => hvRb ?_, fun h1 h2 => hrbuf ?_, hrsp,
      fun _ => by rw [hframe], hfault, fun hc hf => ?_, ?_⟩
    · rw [if_neg hflip, hframe]
    · rw [hframe]; exact ⟨rfl, rfl, rfl⟩
    · rw [hframe]; exact ⟨rfl, rfl, rfl⟩
    · simpa [Seq.readsByte] using hne
    · simp [Seq.readsList, h1, h2]
    · have hrun := issue_running hx
      rw [prepare_seq] at hrun
      simp [(hc.of_running hrun).1] at hf
    · rw [hframe]; exact ⟨rfl, hr⟩
  | none =>
    rcases step_next hr h with ⟨_, _, _, _, _, hq, _⟩ | ⟨hq, _⟩ | ⟨hs, e⟩ | ⟨hs, e⟩ | ⟨hs, e⟩ | ⟨hs, e⟩ | ⟨hs, e⟩ |
      ⟨hs, e⟩ | ⟨hs, e⟩ | ⟨r, rest, i, hs, _, _, hi, hq⟩ | ⟨_, _, _, hs, _, e⟩
    · rw [hx] at hq; cases hq
    · rw [hx] at hq; cases hq
    · simp [e, hs, hr, State.deliver]
    · simp [e, hs, hr, State.initFlip]
    · obtain ⟨hframe, hrsp⟩ := programSplit_frame s
      rw [e, hframe]
      simpa [hs, hr] using hrsp
    · simp [e, hs, hr, State.programAdvance]
    · obtain ⟨hresp, hframe, hfault⟩ := windowEnable_frame s
      rw [e, hframe]
      have hnever : Consistent s → s.fault = false := fun hc => by
        by_contra hf
        simpa [hs, Seq.settledState] using stopped hc (by simpa using hf)
      simp +contextual [hs, hr, hresp, hfault, hnever]
    · simp [e, hs, hr, State.windowDisable, State.respondOk]
    · simp [e, hs, hr]
    · have hrsp := exec_host_rsp (s := { s with host := rest }) hi hq
      rcases exec_host (s := { s with host := rest }) hs hi hq with ⟨v, e⟩ | ⟨_, _, e⟩
      · simp [e, hs, hr, State.refuse]
      · rw [e]
        simpa [hs, hr] using hrsp
    · simp [e, hs, hr, State.refuse]

end Sys2Proof.Machine

/-! The register operations, READ and the erases from request to response (42_register_access.md R167 to R171;
44_array_access.md R200, R202, R207 to R210). -/

namespace Sys2Proof.Machine

theorem ready_iff (s : State) : s.ready = true ↔ s.rst = false ∧ s.seq = .idle ∧ s.fault = false := by
  simp [State.ready, and_assoc]

theorem build_transactionOf {cfg : Cfg} {c : Cmd} {m : Mode} {a n : Word} {td : TD} (h : build cfg c m a n = some td) :
    build cfg c m a n = some (transactionOf cfg c m a n) := by
  rw [transactionOf, h]
  rfl

/-! ## The register reads -/

/-- The read of a register operation and its response. -/
theorem run_registerRead {s : State} {i : Instr} {c : Cmd} {a : Word} {td : TD} (h : RegisterRead s i c a td)
    {b p : Byte} {more : List Answer} (hr : s.rst = false) (hm : s.mode = .octal)
    (hq : s.seq ∈ [Seq.rsrRd, .rcrRd, .rc2Rd]) (hk : s.env.kind = .any) (hs : s.env.script = .ok [b, p] :: more) :
    run 2 s = .next
      { s with
        env := { s.env with script := more }
        trace := s.trace ++ [(.execRead td, .ok [b, p])]
        vRb := b
        rsp := ⟨0, 0, 0, b.setWidth 32, s.done, []⟩
        responses := s.responses ++ [⟨0, 0, 0, b.setWidth 32, s.done, []⟩]
        seq := .idle } := by
  have hstep := h.step_eq hr hm (by rintro he; simp [he] at hq) hk hs
  have hadvance (u : State) (hu : u.seq = s.seq) : u.advance = u.respondOk (bytePayload u.vRb) [] := by
    simp only [List.mem_cons, List.not_mem_nil, or_false] at hq
    rcases hq with hq | hq | hq <;> simp [State.advance, hu, hq]
  rw [hadvance _ (by rfl)] at hstep
  rw [run_step hstep, run_step (step_resp (by exact hr) rfl)]
  rfl

theorem run_readId {s : State} {i0 i1 i2 : Byte} {more : List Answer} (hr : s.rst = false) (hm : s.mode = .octal)
    (hq : s.seq = .ridRd) (hk : s.env.kind = .any) (hs : s.env.script = .ok [i0, i1, i2] :: more) :
    run 2 s = .next
      { s with
        env := { s.env with script := more }
        trace := s.trace ++ [(.execRead (transactionOf s.cfg .rdid .octal 0 3), .ok [i0, i1, i2])]
        rbuf := [i0, i1, i2]
        rsp := ⟨0, 0, 0, 0#8 ++ i2 ++ i1 ++ i0, s.done, []⟩
        responses := s.responses ++ [⟨0, 0, 0, 0#8 ++ i2 ++ i1 ++ i0, s.done, []⟩]
        seq := .idle } := by
  have hp : s.prepare = s := prepare_of_ne (by simp [hq])
  have hdlen : (transactionOf s.cfg .rdid .octal 0 3).dlen = 3 := by
    rw [transactionOf, build_rdid_octal]
    rfl
  have hstep := step_read (i := .rdidO) (c := .rdid) (m := .octal) (a := 0) (n := 3) (k := 3) (store := storeRbuf) hr
    (by simp [hp, State.issue, hq, hm, byMode]) rfl hm (build_transactionOf (build_rdid_octal s.cfg 0 3))
    (by exact (congrArg BitVec.toNat hdlen).symm) hk hs
  simp only [hp, State.advance, storeRbuf, hq] at hstep
  rw [run_step hstep, run_step (step_resp (by exact hr) rfl)]
  rfl

/-- Settles O42: after its acceptance each operation is one read and its response. -/
theorem registerReadsWhole : Obligations.RegisterReadsWhole := by
  unfold Obligations.RegisterReadsWhole
  intro s r rest more hready hm hw hk hh hlow hhigh u
  obtain ⟨hr, hs, hf⟩ := (ready_iff s).1 hready
  obtain ⟨hid, hstatus, hcfg, -, hcfg2, -⟩ :=
    registerOperationsAccepted { s with host := rest } r.w1 0 hs hf hm hw
  refine ⟨fun h td a b pad hop hrow hcode hscript => ?_, fun i0 i1 i2 hcode hscript => ?_⟩
  · have whole {i : Instr} {j : Instr} {q : Seq} {c : Cmd} {v : State} (hi : CodeOf r h i)
        (hq : q ∈ [Seq.rsrRd, .rcrRd, .rc2Rd])
        (hv : v = { s with host := rest, hop := h, inFlight := ⟨a, 0, []⟩, seq := q })
        (haccept : exec i { s with host := rest } = .next v) (hread : RegisterRead v j c a td) :
        run 3 s = .next { u with
          hop := h
          inFlight := ⟨a, 0, []⟩
          vRb := b
          trace := s.trace ++ [(.execRead td, .ok [b, pad])]
          rsp := ⟨0, 0, 0, b.setWidth 32, s.done, []⟩
          responses := s.responses ++ [⟨0, 0, 0, b.setWidth 32, s.done, []⟩] } := by
      subst hv
      rw [run_step ((step_operation hi hr hs hh hcode hlow hhigh).trans haccept),
        run_registerRead hread (by exact hr) (by exact hm) hq (by exact hk) (by exact hscript)]
      simp only [u, hs]
    simp only [List.mem_cons, Prod.mk.injEq, List.not_mem_nil, or_false] at hop
    rcases hop with ⟨rfl, rfl, rfl⟩ | ⟨rfl, rfl, rfl⟩ | ⟨rfl, rfl, rfl⟩
    · refine whole .readStatus (q := .rsrRd) (by simp) rfl hstatus (j := .rdsrO) (c := .rdsr) ?_
      exact ⟨by simp [State.issue, hm, byMode], fun _ => rfl, by simp, build_transactionOf (build_rdsr_octal _ _ _)⟩
    · obtain ⟨row, hrdcr⟩ := Option.ne_none_iff_exists'.1 (hrow rfl)
      refine whole .readCfg (q := .rcrRd) (by simp) rfl (hcfg (hrow rfl)) (j := .rdcrO) (c := .rdcr) ?_
      exact ⟨by simp [State.issue, hm, byMode], fun _ => rfl, by simp,
        build_transactionOf (build_rdcr_octal hrdcr _ _)⟩
    · refine whole .readCfg2 (q := .rc2Rd) (by simp) rfl hcfg2 (j := .rdcr2O r.w1) (c := .rdcr2) ?_
      exact ⟨by simp [State.issue, hm, byMode], fun _ => rfl, by simp, rfl⟩
  · rw [run_step ((step_operation .readId hr hs hh hcode hlow hhigh).trans hid),
      run_readId (by exact hr) (by exact hm) rfl (by exact hk) (by exact hscript)]
    simp only [u, hs]

/-! ## READ -/

/-- The read of a READ and its response. -/
theorem run_arrayRead {s : State} {bytes : List Byte} {more : List Answer} (hr : s.rst = false) (hm : s.mode = .octal)
    (hq : s.seq = .rdRd) (hlen : bytes.length = s.inFlight.len.toNat) (hk : s.env.kind = .any)
    (hs : s.env.script = .ok bytes :: more) :
    run 2 s = .next
      { s with
        env := { s.env with script := more }
        trace := s.trace ++
          [(.execRead (transactionOf s.cfg .dtrd8 .octal s.inFlight.addr s.inFlight.len), .ok bytes)]
        rbuf := bytes
        rsp := ⟨0, 0, 0, 0, s.done, bytes⟩
        responses := s.responses ++ [⟨0, 0, 0, 0, s.done, bytes⟩]
        seq := .idle } := by
  have hp : s.prepare = s := prepare_of_ne (by simp [hq])
  have hb : build s.cfg .dtrd8 .octal s.inFlight.addr (BitVec.ofNat 32 s.inFlight.len.toNat) =
      some (transactionOf s.cfg .dtrd8 .octal s.inFlight.addr s.inFlight.len) := by
    rw [BitVec.ofNat_toNat, BitVec.setWidth_eq]
    rfl
  have hstep := step_read (i := .dtrd8O s.inFlight.addr s.inFlight.len) (c := .dtrd8) (m := .octal)
    (n := s.inFlight.len.toNat) (k := s.inFlight.len.toNat) (store := storeRbuf) hr
    (by simp [hp, State.issue, hq, hm, octalOnly]) rfl hm hb hlen hk hs
  simp only [hp, State.advance, storeRbuf, hq, List.take_of_length_le hlen.le] at hstep
  rw [run_step hstep, run_step (step_resp (by exact hr) rfl)]
  rfl

/-- Settles O43: a READ of zero bytes responds at its acceptance; any other is one transaction and its response. -/
theorem readWhole : Obligations.ReadWhole := by
  unfold Obligations.ReadWhole
  intro s r rest hready hm hw hh hcode hlow hhigh hrange u
  obtain ⟨hr, hs, hf⟩ := (ready_iff s).1 hready
  obtain ⟨hread, hempty, -⟩ :=
    (readAndProgramAccepted { s with host := rest } r.w1 r.w2 [] hs hf hm hw).1 hrange
  have haccept := step_operation .read hr hs hh hcode hlow hhigh
  refine ⟨fun hz => ?_, fun bytes more hne hlen hk hscript => ?_⟩
  · rw [run_step (haccept.trans (hempty hz)), run_step (step_resp (by exact hr) rfl)]
    simp only [run, State.deliver, u, hs]
  · rw [run_step (haccept.trans (hread hne))]
    rw [run_arrayRead (by exact hr) (by exact hm) rfl (by exact hlen) (by exact hk) (by exact hscript)]
    simp only [u, hs]

/-! ## Write Enable, a command, and the poll -/

/-- The step of a state that issues a command without a data phase, answered `Ok`. -/
theorem step_sends {s : State} {i : Instr} {c : Cmd} {a : Word} {more : List Answer} (hr : s.rst = false)
    (hne : s.seq ≠ .initWrcr2) (hi : s.issue = some (.command i))
    (hx : ∀ u : State, exec i u = .next (u.sendCommand c s.mode a))
    (hb : build s.cfg c s.mode a 0 = some (transactionOf s.cfg c s.mode a 0)) (hk : s.env.kind = .any)
    (hs : s.env.script = .ok [] :: more) :
    step s = .next (State.advance
      { s with
        env := { s.env with script := more }
        trace := s.trace ++ [(.execCmd (transactionOf s.cfg c s.mode a 0), .ok [])] }) := by
  have hp : s.prepare = s := prepare_of_ne hne
  rw [step_command hr (by rw [hp]; exact hi) (by rw [hp]; exact hx s) rfl hb hk hs, hp]

/-- A write operation's Write Enable. -/
theorem step_wren {s : State} {q q' : Seq} {more : List Answer} (hr : s.rst = false) (hm : s.mode = .octal)
    (hq : s.seq = q) (hqq : (q, q') ∈ [(Seq.wc2Wren, Seq.wc2Wr), (.pgWren, .pgPp), (.erWren, .erCmd)])
    (hk : s.env.kind = .any) (hs : s.env.script = .ok [] :: more) :
    step s = .next
      { s with
        env := { s.env with script := more }
        trace := s.trace ++ [(.execCmd (transactionOf s.cfg .wren .octal 0 0), .ok [])]
        seq := q' } := by
  simp only [List.mem_cons, Prod.mk.injEq, List.not_mem_nil, or_false] at hqq
  rcases hqq with ⟨rfl, rfl⟩ | ⟨rfl, rfl⟩ | ⟨rfl, rfl⟩ <;>
    · rw [step_sends (i := .wrenO) (c := .wren) (a := 0) hr (by simp [hq]) (by simp [State.issue, hq, hm, byMode])
        (fun u => by rw [hm]; rfl) (by rw [hm]; rfl) hk hs, hm]
      simp [State.advance, hq, State.goto]

/-- The write of WRITE_CFG2, the value widened to two bytes (42_register_access.md R163). -/
theorem step_writeCfg2 {s : State} {more : List Answer} (hr : s.rst = false) (hm : s.mode = .octal)
    (hq : s.seq = .wc2Wr) (hk : s.env.kind = .any) (hs : s.env.script = .ok [] :: more) :
    step s = .next
      { s with
        env := { s.env with script := more }
        trace := s.trace ++ [(.execWrite (transactionOf s.cfg .wrcr2 .octal s.aCur 2) [s.vNew, 0x00], .ok [])]
        pollN := 0
        seq := .wc2Poll } := by
  have hp : s.prepare = s := prepare_of_ne (by simp [hq])
  have hstep := step_write (i := .wrcr2O s.aCur s.vNew) (c := .wrcr2) (m := .octal) (a := s.aCur)
    (data := [s.vNew, 0x00]) (td := transactionOf s.cfg .wrcr2 .octal s.aCur 2) hr
    (by simp [hp, State.issue, hq, hm, byMode]) rfl hm rfl hk hs
  simpa only [hp, State.advance, hq, State.startPoll] using hstep

/-- The poll of WRITE_CFG2 and of the erases, and its response. -/
theorem run_poll_response {s : State} {p : Poll} {more : List Answer} (hr : s.rst = false) (hm : s.mode = .octal)
    (hq : s.seq ∈ [Seq.wc2Poll, .erPoll]) (hk : s.env.kind = .any) (h0 : s.pollN = 0)
    (hp : PollReturns s.cfg .octal p) (hs : s.env.script = p.answers ++ more) :
    run (p.busy.length + 2) s = .next
      { s with
        env := { s.env with script := more }
        trace := s.trace ++ p.history s.cfg .octal
        vRb := byteAt p.last 0
        pollN := p.reads
        rsp := ⟨0, 0, 0, 0, s.done, []⟩
        responses := s.responses ++ [⟨0, 0, 0, 0, s.done, []⟩]
        seq := .idle } := by
  simp only [List.mem_cons, List.not_mem_nil, or_false] at hq
  have hpoll := poll_run hr (by rcases hq with h | h <;> simp [h]) hk h0 (hm.symm ▸ hp) hs
  have hend (u : State) : pollEnd u s.seq = u.respondOk 0 [] := by rcases hq with h | h <;> simp [pollEnd, h]
  rw [hend] at hpoll
  rw [show p.busy.length + 2 = p.busy.length + 1 + 1 from rfl, run_add hpoll, run_step (step_resp (by exact hr) rfl),
    ← hm]
  rfl

/-- Settles O44: acceptance, Write Enable, the write, the poll and the response, one after another. -/
theorem writeCfg2Whole : Obligations.WriteCfg2Whole := by
  unfold Obligations.WriteCfg2Whole
  intro s r rest p more hready hm hw hk hh hcode hlow hhigh hp hscript
  obtain ⟨hr, hs, hf⟩ := (ready_iff s).1 hready
  obtain ⟨-, -, -, -, -, haccept⟩ :=
    registerOperationsAccepted { s with host := rest } r.w1 (valField r.w0) hs hf hm hw
  rw [run_step ((step_operation .writeCfg2 hr hs hh hcode hlow hhigh).trans haccept),
    run_step (step_wren (q' := .wc2Wr) (by exact hr) (by exact hm) rfl (by simp) (by exact hk) (by exact hscript)),
    run_step (step_writeCfg2 (by exact hr) (by exact hm) rfl (by exact hk) rfl),
    run_poll_response (by exact hr) (by exact hm) (by simp) (by exact hk) rfl (by exact hp) rfl]
  simp [hs, valField]

/-- The command of an erase, its address as given (44_array_access.md R208 to R210). -/
theorem step_erase {s : State} {c : Cmd} {a : Word} {more : List Answer} (hr : s.rst = false) (hm : s.mode = .octal)
    (hq : s.seq = .erCmd)
    (hc : (s.hop, c, a) ∈ [(hopEraseSector, Cmd.se, s.aCur), (hopEraseBlock, .be, s.aCur), (hopEraseChip, .ce, 0)])
    (hk : s.env.kind = .any) (hs : s.env.script = .ok [] :: more) :
    step s = .next
      { s with
        env := { s.env with script := more }
        trace := s.trace ++ [(.execCmd (transactionOf s.cfg c .octal a 0), .ok [])]
        pollN := 0
        seq := .erPoll } := by
  have stepped {i : Instr} (hi : s.issue = some (.command i))
      (hx : ∀ u : State, exec i u = .next (u.sendCommand c .octal a))
      (hb : build s.cfg c .octal a 0 = some (transactionOf s.cfg c .octal a 0)) :
      step s = .next
        { s with
          env := { s.env with script := more }
          trace := s.trace ++ [(.execCmd (transactionOf s.cfg c .octal a 0), .ok [])]
          pollN := 0
          seq := .erPoll } := by
    have hstep := step_sends (c := c) (a := a) hr (by simp [hq]) hi (by rw [hm]; exact hx) (by rw [hm]; exact hb) hk hs
    simpa only [State.advance, hq, hm, State.startPoll] using hstep
  simp only [List.mem_cons, Prod.mk.injEq, List.not_mem_nil, or_false] at hc
  rcases hc with ⟨hh, rfl, rfl⟩ | ⟨hh, rfl, rfl⟩ | ⟨hh, rfl, rfl⟩
  · exact stepped (i := .seO s.aCur) (by simp [State.issue, hq, State.eraseCommand, hh, hm, octalOnly])
      (fun _ => rfl) rfl
  · exact stepped (i := .beO s.aCur) (by simp [State.issue, hq, State.eraseCommand, hh, hm, octalOnly])
      (fun _ => rfl) rfl
  · exact stepped (i := .ceO) (by simp [State.issue, hq, State.eraseCommand, hh, hm, octalOnly]) (fun _ => rfl) rfl

/-- The erases, from the state their acceptance leaves. -/
theorem run_erase {s : State} {c : Cmd} {a : Word} {p : Poll} {more : List Answer} (hr : s.rst = false)
    (hm : s.mode = .octal) (hq : s.seq = .erWren)
    (hc : (s.hop, c, a) ∈ [(hopEraseSector, Cmd.se, s.aCur), (hopEraseBlock, .be, s.aCur), (hopEraseChip, .ce, 0)])
    (hk : s.env.kind = .any) (hp : PollReturns s.cfg .octal p)
    (hs : s.env.script = [.ok [], .ok []] ++ p.answers ++ more) :
    run (p.busy.length + 4) s = .next
      { s with
        env := { s.env with script := more }
        trace := s.trace
          ++ [(.execCmd (transactionOf s.cfg .wren .octal 0 0), .ok []),
              (.execCmd (transactionOf s.cfg c .octal a 0), .ok [])]
          ++ p.history s.cfg .octal
        vRb := byteAt p.last 0
        pollN := p.reads
        rsp := ⟨0, 0, 0, 0, s.done, []⟩
        responses := s.responses ++ [⟨0, 0, 0, 0, s.done, []⟩]
        seq := .idle } := by
  rw [run_step (step_wren (q' := .erCmd) hr hm hq (by simp) hk hs),
    run_step (step_erase (by exact hr) (by exact hm) rfl (by exact hc) (by exact hk) rfl),
    run_poll_response (by exact hr) (by exact hm) (by simp) (by exact hk) rfl (by exact hp) rfl]
  simp

/-- Settles O45: the three erases differ in their acceptance and their command. -/
theorem eraseWhole : Obligations.EraseWhole := by
  unfold Obligations.EraseWhole
  intro s r rest p more h c a hop hready hm hw hk hh hcode hlow hhigh ha hp hscript
  obtain ⟨hr, hs, hf⟩ := (ready_iff s).1 hready
  obtain ⟨hin, -, hchip⟩ := erasesAccepted { s with host := rest } r.w1 hs hf hm hw
  have accepted {i : Instr} (hi : CodeOf r h i) {v : State} (hx : exec i { s with host := rest } = .next v) :
      step s = .next v := (step_operation hi hr hs hh hcode hlow hhigh).trans hx
  simp only [List.mem_cons, Prod.mk.injEq, List.not_mem_nil, or_false] at hop
  rcases hop with ⟨rfl, rfl, rfl⟩ | ⟨rfl, rfl, rfl⟩ | ⟨rfl, rfl, rfl⟩
  · rw [run_step (accepted .eraseSector (hin ha).1),
      run_erase (c := .se) (a := r.w1) (by exact hr) (by exact hm) rfl (by simp) (by exact hk)
        (by exact hp) (by exact hscript)]
    simp [hs]
  · rw [run_step (accepted .eraseBlock (hin ha).2),
      run_erase (c := .be) (a := r.w1) (by exact hr) (by exact hm) rfl (by simp) (by exact hk)
        (by exact hp) (by exact hscript)]
    simp [hs]
  · rw [run_step (accepted .eraseChip hchip),
      run_erase (c := .ce) (a := 0) (by exact hr) (by exact hm) rfl (by simp) (by exact hk)
        (by exact hp) (by exact hscript)]
    simp [hs]

end Sys2Proof.Machine

/-! INIT from request to response (43_init_sequencer.md R181 to R190). -/

namespace Sys2Proof.Machine

theorem step_initRsten {s : State} {more : List Answer} (hr : s.rst = false) (hm : s.mode = .legacy)
    (hq : s.seq = .initRsten) (hk : s.env.kind = .any) (hs : s.env.script = .ok [] :: more) :
    step s = .next
      { s with
        env := { s.env with script := more }
        trace := s.trace ++ [(.execCmd (transactionOf s.cfg .rsten .legacy 0 0), .ok [])]
        seq := .initRst } := by
  have hstep := step_sends (i := .rstenL) (c := .rsten) (a := 0) hr (by simp [hq])
    (by simp [State.issue, hq, hm, byMode]) (fun u => by rw [hm]; rfl) (by rw [hm]; rfl) hk hs
  simpa only [State.advance, hq, State.goto, hm] using hstep

theorem step_initRst {s : State} {more : List Answer} (hr : s.rst = false) (hm : s.mode = .legacy)
    (hq : s.seq = .initRst) (hk : s.env.kind = .any) (hs : s.env.script = .ok [] :: more) :
    step s = .next
      { s with
        env := { s.env with script := more }
        trace := s.trace ++ [(.execCmd (transactionOf s.cfg .rst .legacy 0 0), .ok [])]
        pollN := 0
        seq := .initPoll } := by
  have hstep := step_sends (i := .rstL) (c := .rst) (a := 0) hr (by simp [hq])
    (by simp [State.issue, hq, hm, byMode]) (fun u => by rw [hm]; rfl) (by rw [hm]; rfl) hk hs
  simpa only [State.advance, hq, State.startPoll, hm] using hstep

/-- The read of Configuration-2 before the write (R182). -/
theorem step_initRdcr2 {s : State} {old : Byte} {more : List Answer} (hr : s.rst = false) (hm : s.mode = .legacy)
    (hq : s.seq = .initRdcr2) (hk : s.env.kind = .any) (hs : s.env.script = .ok [old] :: more) :
    step s = .next
      { s with
        env := { s.env with script := more }
        trace := s.trace ++ [(.execRead (transactionOf s.cfg .rdcr2 .legacy 0 1), .ok [old])]
        vRb := old
        vOld := old
        seq := .initWren } := by
  have hp : s.prepare = s := prepare_of_ne (by simp [hq])
  have hstep := step_read (i := .rdcr2L Config.cr2AddrMode) (c := .rdcr2) (m := .legacy) (a := 0) (n := 1) (k := 1)
    (store := storeVRb) (td := transactionOf s.cfg .rdcr2 .legacy 0 1) hr
    (by simp [hp, State.issue, hq, hm, byMode]) rfl hm rfl rfl hk hs
  simpa [hp, State.advance, hq, storeVRb, byteAt] using hstep

theorem step_initWren {s : State} {more : List Answer} (hr : s.rst = false) (hm : s.mode = .legacy)
    (hq : s.seq = .initWren) (hk : s.env.kind = .any) (hs : s.env.script = .ok [] :: more) :
    step s = .next
      { s with
        env := { s.env with script := more }
        trace := s.trace ++ [(.execCmd (transactionOf s.cfg .wren .legacy 0 0), .ok [])]
        seq := .initWrcr2 } := by
  have hstep := step_sends (i := .wrenL) (c := .wren) (a := 0) hr (by simp [hq])
    (by simp [State.issue, hq, hm, byMode]) (fun u => by rw [hm]; rfl) (by rw [hm]; rfl) hk hs
  simpa only [State.advance, hq, State.goto, hm] using hstep

/-- The write of Configuration-2, the byte read with bit 1 set (R186). -/
theorem step_initWrcr2 {s : State} {more : List Answer} (hr : s.rst = false) (hm : s.mode = .legacy)
    (hq : s.seq = .initWrcr2) (hk : s.env.kind = .any) (hs : s.env.script = .ok [] :: more) :
    step s = .next
      { s with
        env := { s.env with script := more }
        trace := s.trace ++ [(.execWrite (transactionOf s.cfg .wrcr2 .legacy 0 1) [s.vOld ||| 0x02], .ok [])]
        vNew := s.vOld ||| 0x02
        seq := .initFlip } := by
  have hp : s.prepare = { s with vNew := s.vOld ||| 0x02 } := if_pos hq
  have hstep := step_write (i := .wrcr2L Config.cr2AddrMode (s.vOld ||| 0x02)) (c := .wrcr2) (m := .legacy) (a := 0)
    (data := [s.vOld ||| 0x02]) (td := transactionOf s.cfg .wrcr2 .legacy 0 1) hr
    (by simp [hp, State.issue, hq, hm, byMode]) rfl hm rfl hk hs
  simpa only [hp, State.advance, hq, State.goto] using hstep

/-- The end of INIT where a mismatch is not fatal (R189, R190). -/
theorem initConclude_tolerant {s : State} (h : s.vRb = s.vNew ∨ s.cfg.initMismatchFatal = false) :
    s.initConclude =
      { s with
        initMismatch := s.vRb != s.vNew
        rsp := ⟨0, 0, 0, BitVec.ofBool (s.vRb != s.vNew) ++ 0#7 ++ s.vOld ++ s.vNew ++ s.vRb, s.done, []⟩
        seq := .resp } := by
  by_cases hv : s.vRb = s.vNew
  · rw [initConclude_match hv, bne_eq_false_iff_eq.2 hv]
    rfl
  · rw [initConclude_tolerated hv (h.resolve_left hv), bne_iff_ne.2 hv]
    rfl

/-- The read-back in Octal mode and the comparison, where a mismatch is not fatal (R188 to R190). -/
theorem step_initVerify_tolerant {s : State} {rb pad : Byte} {more : List Answer} (hr : s.rst = false)
    (hm : s.mode = .octal) (hq : s.seq = .initVerify) (hk : s.env.kind = .any)
    (hs : s.env.script = .ok [rb, pad] :: more) (hfatal : rb = s.vNew ∨ s.cfg.initMismatchFatal = false) :
    step s = .next
      { s with
        env := { s.env with script := more }
        trace := s.trace ++ [(.execRead (transactionOf s.cfg .rdcr2 .octal 0 2), .ok [rb, pad])]
        vRb := rb
        initMismatch := rb != s.vNew
        rsp := ⟨0, 0, 0, BitVec.ofBool (rb != s.vNew) ++ 0#7 ++ s.vOld ++ s.vNew ++ rb, s.done, []⟩
        seq := .resp } := by
  rw [step_initVerify hr hq hm rfl (answerTo_script hk hs (by simp) rfl), initConclude_tolerant (by exact hfatal),
    next_script hk, hs]
  rfl

/-- The poll of INIT returns to the read of Configuration-2. -/
theorem run_initPoll {s : State} {p : Poll} {more : List Answer} (hr : s.rst = false) (hm : s.mode = .legacy)
    (hq : s.seq = .initPoll) (hk : s.env.kind = .any) (h0 : s.pollN = 0) (hp : PollReturns s.cfg .legacy p)
    (hs : s.env.script = p.answers ++ more) :
    run (p.busy.length + 1) s = .next
      { s with
        env := { s.env with script := more }
        trace := s.trace ++ p.history s.cfg .legacy
        vRb := byteAt p.last 0
        pollN := p.reads
        seq := .initRdcr2 } := by
  rw [poll_run hr (by simp [hq]) hk h0 (hm.symm ▸ hp) hs, hm]
  simp only [pollEnd, hq, if_true]

/-- INIT from the end of its poll to the response. -/
theorem run_initWrite {s : State} {old rb pad : Byte} {more : List Answer} (hr : s.rst = false) (hm : s.mode = .legacy)
    (hq : s.seq = .initRdcr2) (hk : s.env.kind = .any)
    (hs : s.env.script = .ok [old] :: .ok [] :: .ok [] :: .ok [rb, pad] :: more)
    (hfatal : rb = old ||| 0x02 ∨ s.cfg.initMismatchFatal = false) :
    run 6 s = .next
      { s with
        env := { s.env with script := more }
        mode := .octal
        initMismatch := rb != old ||| 0x02
        vOld := old
        vNew := old ||| 0x02
        vRb := rb
        trace := s.trace
          ++ [(.execRead (transactionOf s.cfg .rdcr2 .legacy 0 1), .ok [old]),
              (.execCmd (transactionOf s.cfg .wren .legacy 0 0), .ok []),
              (.execWrite (transactionOf s.cfg .wrcr2 .legacy 0 1) [old ||| 0x02], .ok []),
              (.execRead (transactionOf s.cfg .rdcr2 .octal 0 2), .ok [rb, pad])]
        rsp := ⟨0, 0, 0, BitVec.ofBool (rb != old ||| 0x02) ++ 0#7 ++ old ++ (old ||| 0x02) ++ rb, s.done, []⟩
        responses := s.responses ++
          [⟨0, 0, 0, BitVec.ofBool (rb != old ||| 0x02) ++ 0#7 ++ old ++ (old ||| 0x02) ++ rb, s.done, []⟩]
        seq := .idle } := by
  rw [run_step (step_initRdcr2 hr hm hq hk hs),
    run_step (step_initWren (by exact hr) (by exact hm) rfl (by exact hk) rfl),
    run_step (step_initWrcr2 (by exact hr) (by exact hm) rfl (by exact hk) rfl),
    run_step (step_initFlip (by exact hr) rfl),
    run_step (step_initVerify_tolerant (by exact hr) rfl rfl (by exact hk) rfl (by exact hfatal)),
    run_step (step_resp (by exact hr) rfl)]
  simp [run, State.deliver, State.initFlip]

/-- Settles O46: the reset of the chip, its poll, and the write of Configuration-2 with its read-back. -/
theorem initWhole : Obligations.InitWhole := by
  unfold Obligations.InitWhole
  intro s r rest p more old rb pad hready hm hw hk hh hcode hlow hhigh hp hscript hfatal m payload
  obtain ⟨hr, hs, hf⟩ := (ready_iff s).1 hready
  have haccept := initAccepted { s with host := rest } hs hf hm hw
  rw [run_step ((step_operation .init hr hs hh hcode hlow hhigh).trans haccept),
    run_step (step_initRsten (by exact hr) (by exact hm) rfl (by exact hk) (by exact hscript)),
    run_step (step_initRst (by exact hr) (by exact hm) rfl (by exact hk) rfl),
    show p.busy.length + 7 = p.busy.length + 1 + 6 from rfl,
    run_add (run_initPoll (by exact hr) (by exact hm) rfl (by exact hk) rfl (by exact hp)
      (List.append_assoc ..)),
    run_initWrite (by exact hr) (by exact hm) rfl (by exact hk) rfl (by exact hfatal)]
  simp [hs, m, payload]

end Sys2Proof.Machine

/-! PROGRAM from request to response (44_array_access.md R205, R206). -/

namespace Sys2Proof.Machine

/-- The page program of the current chunk. -/
theorem step_programPage {s : State} {more : List Answer} (hr : s.rst = false) (hm : s.mode = .octal)
    (hq : s.seq = .pgPp) (hpage : pageOk s.aCur s.chunkData.length = true) (hk : s.env.kind = .any)
    (hs : s.env.script = .ok [] :: more) :
    step s = .next
      { s with
        env := { s.env with script := more }
        trace := s.trace
          ++ [(.execWrite (transactionOf s.cfg .pp4b .octal s.aCur (BitVec.ofNat 32 s.chunkData.length)) s.chunkData,
                .ok [])]
        pollN := 0
        seq := .pgPoll } := by
  have hp : s.prepare = s := prepare_of_ne (by simp [hq])
  have hexec : exec (.pp4bO s.aCur s.chunkData) s = .next (s.sendWrite .pp4b .octal s.aCur s.chunkData) :=
    congrArg Host.Outcome.next (if_pos hpage)
  have hstep := step_write (i := .pp4bO s.aCur s.chunkData) hr (by simp [hp, State.issue, hq, hm, octalOnly])
    (by rw [hp]; exact hexec) hm (td := transactionOf s.cfg .pp4b .octal s.aCur (BitVec.ofNat 32 s.chunkData.length))
    rfl hk hs
  simpa only [hp, State.advance, hq, State.startPoll] using hstep

/-- The poll of a chunk returns to PG_ADV. -/
theorem run_pagePoll {s : State} {p : Poll} {more : List Answer} (hr : s.rst = false) (hm : s.mode = .octal)
    (hq : s.seq = .pgPoll) (hk : s.env.kind = .any) (h0 : s.pollN = 0) (hp : PollReturns s.cfg .octal p)
    (hs : s.env.script = p.answers ++ more) :
    run (p.busy.length + 1) s = .next
      { s with
        env := { s.env with script := more }
        trace := s.trace ++ p.history s.cfg .octal
        vRb := byteAt p.last 0
        pollN := p.reads
        seq := .pgAdv } := by
  rw [poll_run hr (by simp [hq]) hk h0 (hm.symm ▸ hp) hs, hm]
  simp [pollEnd, hq]

/-! ## One chunk -/

/-- The bytes of the chunk the splitter takes next: as many as its length, the buffer holding them all. -/
theorem ProgramRegs.chunkData {s : State} (h : ProgramRegs s) :
    (s.inFlight.wdata.drop s.off.toNat).take (chunkLen s.aCur.toNat s.nLeft.toNat) =
        (s.inFlight.wdata.drop (s.aCur.toNat - s.inFlight.addr.toNat)).take (chunkLen s.aCur.toNat s.nLeft.toNat) ∧
      ((s.inFlight.wdata.drop s.off.toNat).take (chunkLen s.aCur.toNat s.nLeft.toNat)).length =
        chunkLen s.aCur.toNat s.nLeft.toNat := by
  obtain ⟨hbuffer, hparts, haddress, -, -⟩ := h
  have hle := chunkLen_le_left s.aCur.toNat s.nLeft.toNat
  constructor
  · rw [haddress, Nat.add_sub_cancel_left]
  · rw [List.length_take, List.length_drop]
    omega

/-- A chunk from its Write Enable on. -/
theorem run_chunkWrite {s : State} {p : Poll} {more : List Answer} (hr : s.rst = false) (hm : s.mode = .octal)
    (hq : s.seq = .pgWren) (hk : s.env.kind = .any) (hpage : pageOk s.aCur s.chunkData.length = true)
    (hp : PollReturns s.cfg .octal p) (hs : s.env.script = [.ok [], .ok []] ++ p.answers ++ more) :
    run (p.busy.length + 4) s = .next (State.programAdvance
      { s with
        env := { s.env with script := more }
        trace := s.trace
          ++ [(.execCmd (transactionOf s.cfg .wren .octal 0 0), .ok []),
              (.execWrite (transactionOf s.cfg .pp4b .octal s.aCur (BitVec.ofNat 32 s.chunkData.length)) s.chunkData,
                .ok [])]
          ++ p.history s.cfg .octal
        vRb := byteAt p.last 0
        pollN := p.reads }) := by
  rw [run_step (step_wren (q' := .pgPp) hr hm hq (by simp) hk hs),
    run_step (step_programPage (by exact hr) (by exact hm) rfl (by exact hpage) (by exact hk) rfl),
    show p.busy.length + 2 = p.busy.length + 1 + 1 from rfl,
    run_add (run_pagePoll (by exact hr) (by exact hm) rfl (by exact hk) rfl (by exact hp) rfl),
    run_step (step_programAdvance (by exact hr) rfl)]
  simp [run, State.programAdvance, State.chunkData]

/-- One chunk: Write Enable, the page program, its poll, and PG_ADV. -/
theorem run_chunk {s : State} {p : Poll} {more : List Answer} (hr : s.rst = false) (hm : s.mode = .octal)
    (hq : s.seq = .pgSplit) (hk : s.env.kind = .any) (hregs : ProgramRegs s) (hleft : s.nLeft ≠ 0)
    (hp : PollReturns s.cfg .octal p) (hs : s.env.script = [.ok [], .ok []] ++ p.answers ++ more) :
    run (p.busy.length + 5) s = .next (State.programAdvance
      { s with
        chunk := BitVec.ofNat 9 (chunkLen s.aCur.toNat s.nLeft.toNat)
        env := { s.env with script := more }
        trace := s.trace ++ chunkHistory s.cfg s.inFlight.addr.toNat s.inFlight.wdata
          (s.aCur.toNat, chunkLen s.aCur.toNat s.nLeft.toNat) p
        vRb := byteAt p.last 0
        pollN := p.reads }) := by
  have hpos : 0 < s.nLeft.toNat := Nat.pos_of_ne_zero fun hz => hleft (BitVec.eq_of_toNat_eq hz)
  obtain ⟨hslice, hlen⟩ := hregs.chunkData
  have hdata : State.chunkData
      { s with chunk := BitVec.ofNat 9 (chunkLen s.aCur.toNat s.nLeft.toNat), seq := .pgWren } =
        (s.inFlight.wdata.drop s.off.toNat).take (chunkLen s.aCur.toNat s.nLeft.toNat) := by
    rw [State.chunkData, chunk_toNat]
  have hsplit := step_programSplit hr hq
  rw [programSplit_chunk hleft] at hsplit
  rw [run_step hsplit, run_chunkWrite (by exact hr) (by exact hm) rfl (by exact hk)
    (by rw [hdata, hlen]; exact chunk_pageOk hpos) (by exact hp) (by exact hs), hdata, hlen, hslice]
  simp [chunkHistory, State.programAdvance]

/-! ## All chunks -/

/-- PG_ADV does not wrap. -/
theorem ProgramRegs.programAdvance_toNat {s : State} (h : ProgramRegs s) (hle : s.chunk.toNat ≤ s.nLeft.toNat) :
    s.programAdvance.aCur.toNat = s.aCur.toNat + s.chunk.toNat ∧
      s.programAdvance.nLeft.toNat = s.nLeft.toNat - s.chunk.toNat := by
  obtain ⟨-, hparts, haddress, -, hrange⟩ := h
  have hcap : Config.capacity = 33554432 := rfl
  simp only [programAdvance_aCur, programAdvance_nLeft, BitVec.toNat_add, BitVec.toNat_sub, BitVec.toNat_setWidth]
  omega

/-- The chunks of a PROGRAM, from PG_SPLIT to PG_SPLIT with nothing left. -/
theorem run_chunks {a left : Nat} {s : State} {polls : List Poll} {more : List Answer} (hr : s.rst = false)
    (hm : s.mode = .octal) (hq : s.seq = .pgSplit) (hk : s.env.kind = .any) (hregs : ProgramRegs s)
    (ha : s.aCur.toNat = a) (hl : s.nLeft.toNat = left) (hn : polls.length = (chunks a left).length)
    (hp : ∀ p ∈ polls, PollReturns s.cfg .octal p)
    (hs : s.env.script = (polls.map fun p => [.ok [], .ok []] ++ p.answers).flatten ++ more) :
    ∃ t, run (polls.map fun p => p.busy.length + 5).sum s = .next t
      ∧ t = { s with
        aCur := s.aCur + s.nLeft
        nLeft := 0
        off := s.off + s.nLeft
        done := s.done + s.nLeft
        chunk := t.chunk
        pollN := t.pollN
        vRb := t.vRb
        env := { s.env with script := more }
        trace := s.trace
          ++ (List.zipWith (chunkHistory s.cfg s.inFlight.addr.toNat s.inFlight.wdata)
              (chunks a left) polls).flatten } := by
  induction a, left using chunks_induction generalizing s polls with
  | done a =>
    obtain rfl : polls = [] := by simpa using hn
    have hzero : s.nLeft = 0 := BitVec.eq_of_toNat_eq hl
    have hmore : more = s.env.script := by simpa using hs.symm
    have hself : ({ s with nLeft := 0#32 } : State) = s := by
      rw [show 0#32 = s.nLeft from hzero.symm]
    exact ⟨s, rfl, by simp [hmore, hzero, hself]⟩
  | chunk a left hpos ih =>
    rw [chunks_of_pos hpos] at hn ⊢
    obtain ⟨p, polls, rfl⟩ : ∃ p ps, polls = p :: ps := by
      cases polls with
      | nil => simp at hn
      | cons p ps => exact ⟨p, ps, rfl⟩
    have hleft : s.nLeft ≠ 0 := by rintro hz; rw [hz] at hl; simp at hl; omega
    have hrun := run_chunk hr hm hq hk hregs hleft (hp p (by simp)) (more := (polls.map fun p =>
      [.ok [], .ok []] ++ p.answers).flatten ++ more) (by rw [hs]; simp)
    rw [ha, hl] at hrun
    obtain ⟨u, hu⟩ : ∃ u : State, u =
        { s with
          chunk := BitVec.ofNat 9 (chunkLen a left)
          env := { s.env with script := (polls.map fun p => [.ok [], .ok []] ++ p.answers).flatten ++ more }
          trace := s.trace ++ chunkHistory s.cfg s.inFlight.addr.toNat s.inFlight.wdata (a, chunkLen a left) p
          vRb := byteAt p.last 0
          pollN := p.reads } := ⟨_, rfl⟩
    rw [← hu] at hrun
    have huregs : ProgramRegs u := by
      rw [hu]
      exact ⟨hregs.buffer, hregs.parts, hregs.address, hregs.doneIsOff, hregs.range⟩
    have hchunk : u.chunk.toNat = chunkLen a left := by rw [hu]; exact chunk_toNat a left
    have haddr : u.aCur.toNat = a := by rw [hu]; exact ha
    have hrest : u.nLeft.toNat = left := by rw [hu]; exact hl
    have hle : u.chunk.toNat ≤ u.nLeft.toNat := by rw [hchunk, hrest]; exact chunkLen_le_left a left
    obtain ⟨hnext, hfewer⟩ := huregs.programAdvance_toNat hle
    obtain ⟨t, hthen, ht⟩ := ih (s := u.programAdvance) (polls := polls) (by rw [hu]; exact hr)
      (by rw [hu]; exact hm) rfl (by rw [hu]; exact hk) (huregs.programAdvance hle) (by rw [hnext, haddr, hchunk])
      (by rw [hfewer, hrest, hchunk]) (by simpa using hn) (fun q h => by rw [hu]; exact hp q (by simp [h])) (by rw [hu]; rfl)
    refine ⟨t, by rw [List.map_cons, List.sum_cons, run_add hrun, hthen], ?_⟩
    rw [ht, hu]
    simp [State.programAdvance, hq]

/-- Settles O47: the chunks, then PG_SPLIT with nothing left responds. -/
theorem programWhole : Obligations.ProgramWhole := by
  unfold Obligations.ProgramWhole
  intro s r rest polls more hready hm hw hk hh hcode hlow hhigh hlen hrange hn hp hscript
  obtain ⟨hr, hs, hf⟩ := (ready_iff s).1 hready
  obtain ⟨-, -, haccept⟩ := (readAndProgramAccepted { s with host := rest } r.w1 r.w2 r.wdata hs hf hm hw).1 hrange
  have hstart := (step_operation (.program hlen) hr hs hh hcode hlow hhigh).trans haccept
  obtain ⟨u, hu⟩ : ∃ u : State, u =
      { s with
        host := rest, hop := 0x8, inFlight := ⟨r.w1, r.w2, r.wdata⟩, aCur := r.w1, nLeft := r.w2, off := 0, done := 0
        seq := .pgSplit } := ⟨_, rfl⟩
  have hregs : ProgramRegs u := by
    rw [hu]
    exact ⟨hlen, Nat.zero_add _, rfl, rfl, hrange⟩
  obtain ⟨t, hrun, ht⟩ := run_chunks (s := u) (a := r.w1.toNat) (left := r.w2.toNat) (polls := polls) (more := more)
    (by rw [hu]; exact hr) (by rw [hu]; exact hm) (by rw [hu]) (by rw [hu]; exact hk) hregs (by rw [hu]) (by rw [hu]) hn
    (by rw [hu]; exact hp) (by rw [hu]; exact hscript)
  rw [hu] at ht
  have hdone : step t = .next (t.respondOk 0 []) := by
    rw [step_programSplit (by rw [ht]; exact hr) (by rw [ht]), programSplit_finished (by rw [ht])]
  refine ⟨(t.respondOk 0 []).deliver, ?_, ?_⟩
  · have hresp : step (t.respondOk 0 []) = .next (t.respondOk 0 []).deliver :=
      step_resp (by rw [ht]; exact hr) rfl
    have hrun' : run ((polls.map fun p => p.busy.length + 5).sum + 2) u = .next (t.respondOk 0 []).deliver := by
      rw [run_add hrun, run_step hdone, run_step hresp]
      rfl
    rw [Nat.add_comm, run_step hstart]
    exact hu ▸ hrun'
  · rw [ht]
    simp [State.deliver, State.respondOk, hs]

end Sys2Proof.Machine

/-! The wire commands under the reference environment, the engine in the mode of the link (20_memory.md R73 to R76). -/

namespace Sys2Proof.Machine

/-! ## A recognised transaction -/

/-- The state after a recognised transaction. -/
theorem called_recognised {s : State} {c : Cmd} {td : TD} {data : List Byte} {call : Call}
    (hk : s.env.kind = .reference) (ht : call.transaction = some (td, data))
    (hrec : s.env.chip.recognise s.cfg td data = some c) :
    s.called call =
      { s with
        env := s.env.afterCommand s.trace call c td data
        trace := s.trace ++ [(call, s.answerTo call)] } := by
  rw [← next_recognised hk ht hrec]
  rfl

theorem reference_sendCommand {s : State} {c : Cmd} {m : Mode} {a : Word} {td : TD} (hk : s.env.kind = .reference)
    (hm : s.mode = m) (hb : build s.cfg c m a 0 = some td) (hrec : s.env.chip.recognise s.cfg td [] = some c) :
    s.sendCommand c m a =
      { s with
        env := s.env.afterCommand s.trace (.execCmd td) c td []
        trace := s.trace ++ [(.execCmd td, s.answerTo (.execCmd td))] } := by
  rw [sendCommand_ok hm hb (answerTo_recognised hk rfl hrec), called_recognised hk rfl hrec]

theorem reference_sendWrite {s : State} {c : Cmd} {m : Mode} {a : Word} {td : TD} {data : List Byte}
    (hk : s.env.kind = .reference) (hm : s.mode = m)
    (hb : build s.cfg c m a (BitVec.ofNat 32 data.length) = some td)
    (hrec : s.env.chip.recognise s.cfg td data = some c) :
    s.sendWrite c m a data =
      { s with
        env := s.env.afterCommand s.trace (.execWrite td data) c td data
        trace := s.trace ++ [(.execWrite td data, s.answerTo (.execWrite td data))] } := by
  rw [sendWrite_ok hm hb (answerTo_recognised hk rfl hrec), called_recognised hk rfl hrec]

/-- The answer to a recognised read of at least one byte begins with the chip's first byte. -/
theorem reference_answer_cons {s : State} {c : Cmd} {td : TD} {b : Byte} {bs : List Byte} (hk : s.env.kind = .reference)
    (hrec : s.env.chip.recognise s.cfg td [] = some c) (hbytes : s.env.chip.readBytes s.cfg c td = b :: bs)
    (hn : 0 < td.dlen.toNat) : ∃ pad, s.answerTo (.execRead td) = .ok (b :: pad) := by
  obtain ⟨k, hlen⟩ := Nat.exists_eq_add_one.mpr hn
  obtain ⟨pad, hpad⟩ := fitBytes_cons s.trace (.execRead td) k b bs
  refine ⟨pad, ?_⟩
  rw [answerTo_recognised hk rfl hrec, hbytes, ← hpad, ← hlen]
  rfl

theorem reference_readRegister {s : State} {c : Cmd} {m : Mode} {a : Word} {td : TD} {b : Byte}
    (hk : s.env.kind = .reference) (hm : s.mode = m)
    (hb : build s.cfg c m a (BitVec.ofNat 32 (wireLen s.cfg c m 1)) = some td) (hn : 0 < td.dlen.toNat)
    (hrec : s.env.chip.recognise s.cfg td [] = some c) (hbytes : s.env.chip.readBytes s.cfg c td = [b]) :
    s.readRegister c m a =
      { s with
        env := s.env.afterCommand s.trace (.execRead td) c td []
        trace := s.trace ++ [(.execRead td, s.answerTo (.execRead td))]
        vRb := b } := by
  obtain ⟨pad, ha⟩ := reference_answer_cons hk hrec hbytes hn
  rw [readRegister_complete hm hb ha, ha, next_recognised hk rfl hrec]

theorem reference_sendRead {s : State} {c : Cmd} {m : Mode} {a : Word} {n : Nat} {td : TD}
    (hk : s.env.kind = .reference) (hm : s.mode = m) (hb : build s.cfg c m a (BitVec.ofNat 32 n) = some td)
    (hn : td.dlen.toNat = n) (hrec : s.env.chip.recognise s.cfg td [] = some c)
    (hbytes : (s.env.chip.readBytes s.cfg c td).length = n) :
    s.sendRead c m a n n storeRbuf =
      { s with
        env := s.env.afterCommand s.trace (.execRead td) c td []
        trace := s.trace ++ [(.execRead td, .ok (s.env.chip.readBytes s.cfg c td))]
        rbuf := s.env.chip.readBytes s.cfg c td } := by
  have ha := answerTo_recognised hk rfl hrec (call := .execRead td)
  rw [fitBytes_self (by exact hbytes.trans hn.symm)] at ha
  rw [sendRead_rbuf_complete hm hb ha hbytes, next_recognised hk rfl hrec]

/-! ## Register commands -/

theorem byteAt_widen (v : Byte) (m : Mode) : byteAt (widen v m) 0 = v := by cases m <;> rfl

/-- A cycle of `b` busy reads holds WEL while it runs (log 24). -/
theorem startCycle_wel {chip : Chip} {b : Nat} (h : chip.wel = true) :
    (chip.startCycle b).wel = true ↔ (chip.startCycle b).busyLeft ≠ 0 := by
  simp [Chip.startCycle, h, Nat.pos_iff_ne_zero]

/-- RST directly after RSTEN is recognised in Legacy mode (20_memory.md R74). -/
theorem recognise_rst {cfg : Cfg} {chip : Chip} (hlink : chip.link = .legacy) (harmed : chip.rstArmed = true) :
    chip.recognise cfg (transactionOf cfg .rst .legacy 0 0) [] = some .rst := by
  have hrow := findCommand_row (cfg := cfg) (m := .legacy) (c := .rst) rfl (by simp)
  unfold Chip.recognise
  rw [show opcodeMode (transactionOf cfg .rst .legacy 0 0).isz = .legacy from rfl,
    show (transactionOf cfg .rst .legacy 0 0).opcode = 0x0099 from rfl, hrow]
  simp only
  rw [if_pos ⟨hlink.symm, by rw [hlink]; rfl, rfl, fun _ => ⟨harmed, hlink⟩⟩]

/-- Configuration-2 after a write (20_memory.md R74). -/
theorem writeCr2_cr2Byte {chip : Chip} (h : chip.wf = true) (a x : Word) (v : Byte) :
    (chip.writeCr2 a v).cr2Byte x = if x = a then v else chip.cr2Byte x := by
  rw [Chip.cr2Byte, Chip.writeCr2, read_write ((chip_wf_iff chip).1 h).2]
  simp only [BitVec.toNat_inj]
  rfl

theorem reference_wren {s : State} {m : Mode} (hk : s.env.kind = .reference) (hlink : s.env.chip.link = m)
    (hm : s.mode = m) :
    ∃ trace, s.sendCommand .wren m 0 =
      { s with
        env := { s.env with chip := { s.env.chip with wel := true, rstArmed := false } }
        trace := trace } := by
  obtain ⟨td, hb⟩ : ∃ td, build s.cfg .wren m 0 0 = some td := by cases m <;> exact ⟨_, rfl⟩
  exact ⟨_, reference_sendCommand hk hm hb (recognise_built (hlink ▸ hb) (by simp) (by simp) rfl)⟩

/-- WRCR2: with WEL the byte is written and a cycle starts; without, the command is ignored. -/
theorem reference_wrcr2 {s : State} {m : Mode} {a : Word} {v : Byte} (hk : s.env.kind = .reference)
    (hlink : s.env.chip.link = m) (hm : s.mode = m) :
    ∃ b trace, s.sendWrite .wrcr2 m a (widen v m) =
      { s with
        env :=
          if s.env.chip.wel then
            { s.env with
              chip := ({ s.env.chip.writeCr2 a v with rstArmed := false } : Chip).startCycle b
              busy := s.env.busy.tail }
          else { s.env with chip := { s.env.chip with rstArmed := false } }
        trace := trace } := by
  obtain ⟨td, hb⟩ : ∃ td, build s.cfg .wrcr2 m a (BitVec.ofNat 32 (widen v m).length) = some td := by
    cases m <;> exact ⟨_, rfl⟩
  refine ⟨s.env.nextBusy s.trace (.execWrite td (widen v m)),
    s.trace ++ [(.execWrite td (widen v m), s.answerTo (.execWrite td (widen v m)))], ?_⟩
  rw [reference_sendWrite hk hm hb (recognise_built (hlink ▸ hb) (by simp) (by simp) rfl)]
  cases hw : s.env.chip.wel <;>
    simp [Env.afterCommand, Chip.startsCycle, Chip.afterCommand, hw, build_addr hb, byteAt_widen, takesAddress]

/-- A register read's descriptor, its data phase not empty. -/
theorem build_registerRead {cfg : Cfg} {c : Cmd} (m : Mode) (a : Word) (hc : c ∈ [Cmd.rdsr, .rdcr2]) :
    ∃ td, build cfg c m a (BitVec.ofNat 32 (wireLen cfg c m 1)) = some td ∧ 0 < td.dlen.toNat := by
  have hne : c ≠ .rdid := by rintro rfl; simp at hc
  have some_td : ∃ td, build cfg c m a (BitVec.ofNat 32 (wireLen cfg c m 1)) = some td := by
    simp only [List.mem_cons, List.not_mem_nil, or_false] at hc
    rcases hc with rfl | rfl
    · exact build_rdsr_some ..
    · cases m
      · exact ⟨_, rfl⟩
      · exact ⟨_, build_rdcr2_octal cfg a⟩
  obtain ⟨td, hb⟩ := some_td
  have hdd : td.dd ≠ .none := by
    simp only [List.mem_cons, List.not_mem_nil, or_false] at hc
    rcases hc with rfl | rfl <;> simp [build_dd hb]
  refine ⟨td, hb, ?_⟩
  rw [build_dlen hb hdd]
  cases m
  · rw [wireLen_legacy]; decide
  · rw [wireLen_octal cfg hne]; decide

theorem reference_rdcr2 {s : State} {m : Mode} {a : Word} (hk : s.env.kind = .reference)
    (hlink : s.env.chip.link = m) (hm : s.mode = m) :
    (s.readRegister .rdcr2 m a).vRb = s.env.chip.cr2Byte a ∧
      (s.readRegister .rdcr2 m a).env = { s.env with chip := { s.env.chip with rstArmed := false } } := by
  obtain ⟨td, hb, hn⟩ := build_registerRead (cfg := s.cfg) (c := .rdcr2) m a (by simp)
  rw [reference_readRegister hk hm hb hn (recognise_built (hlink ▸ hb) (by simp) (by simp) rfl)
    (b := s.env.chip.cr2Byte a) (by rw [Chip.readBytes, build_addr hb rfl])]
  exact ⟨rfl, rfl⟩

/-- RDSR: the Status byte, and one busy read fewer (20_memory.md R74). -/
theorem reference_rdsr {s : State} {m : Mode} (hk : s.env.kind = .reference) (hlink : s.env.chip.link = m)
    (hm : s.mode = m) :
    ∃ trace, s.readRegister .rdsr m 0 =
      { s with
        env := { s.env with chip := { s.env.chip.afterStatusRead with rstArmed := false } }
        trace := trace
        vRb := s.env.chip.statusByte s.cfg } := by
  obtain ⟨td, hb, hn⟩ := build_registerRead (cfg := s.cfg) (c := .rdsr) m 0 (by simp)
  exact ⟨_, reference_readRegister hk hm hb hn (recognise_built (hlink ▸ hb) (by simp) (by simp) rfl) rfl⟩

theorem reference_rdid {s : State} {m : Mode} (hk : s.env.kind = .reference) (hlink : s.env.chip.link = m)
    (hm : s.mode = m) :
    (s.sendRead .rdid m 0 3 3 storeRbuf).rbuf = [s.env.chip.id.1, s.env.chip.id.2.1, s.env.chip.id.2.2] ∧
      (s.sendRead .rdid m 0 3 3 storeRbuf).env = { s.env with chip := { s.env.chip with rstArmed := false } } := by
  obtain ⟨td, hb⟩ : ∃ td, build s.cfg .rdid m 0 (BitVec.ofNat 32 3) = some td := by
    cases m
    · exact ⟨_, rfl⟩
    · exact ⟨_, build_rdid_octal s.cfg 0 _⟩
  have hn : td.dlen.toNat = 3 := by
    rw [build_dlen hb (by simp [build_dd hb])]
    rfl
  rw [reference_sendRead hk hm hb hn (recognise_built (hlink ▸ hb) (by simp) (by simp) rfl) rfl]
  exact ⟨rfl, rfl⟩

/-- RSTEN and then RST in Legacy mode (20_memory.md R74). -/
theorem reference_rsten_rst {s : State} (hk : s.env.kind = .reference) (hlink : s.env.chip.link = .legacy)
    (hm : s.mode = .legacy) :
    ∃ b, (∀ x rest, s.env.busy = x :: rest → b = x) ∧
      ((s.sendCommand .rsten .legacy 0).sendCommand .rst .legacy 0).env =
        { s.env with
          chip := ({ Chip.powerUp with arr := s.env.chip.arr, id := s.env.chip.id } : Chip).startCycle b
          busy := s.env.busy.tail } := by
  have hrsten := reference_sendCommand (c := .rsten) (a := 0) hk hm rfl
    (recognise_built (a := 0) (n := 0) (data := []) (by rw [hlink]; rfl) (by simp) (by simp) rfl)
  obtain ⟨u, hu⟩ : ∃ u, s.sendCommand .rsten .legacy 0 = u := ⟨_, rfl⟩
  rw [hu] at hrsten ⊢
  refine ⟨u.env.nextBusy u.trace (.execCmd (transactionOf u.cfg .rst .legacy 0 0)), ?_, ?_⟩
  · intro x rest hbusy
    rw [Env.nextBusy, hrsten]
    simp [Env.afterCommand, Chip.startsCycle, hbusy]
  · rw [reference_sendCommand (by rw [hrsten]; exact hk) (by rw [hrsten]; exact hm) rfl
      (recognise_rst (by rw [hrsten]; exact hlink) (by rw [hrsten]; rfl)), hrsten]
    simp [Env.afterCommand, Chip.startsCycle, Chip.afterCommand, hlink, Chip.powerUp]

/-- Settles O57: each command is recognised in the mode of the link, and its clause is what `Env.afterCommand` makes of
the chip; the two window calls are `Env.refNext`. -/
theorem referenceRegisters : Obligations.ReferenceRegisters := by
  unfold Obligations.ReferenceRegisters
  refine ⟨fun s m a v hk hlink hm hwf => ⟨?_, ?_, ?_, ?_, ?_, ?_⟩, fun s hk hr => ⟨fun hs => ?_, fun hs => ?_⟩⟩
  · obtain ⟨trace, he⟩ := reference_wren hk hlink hm
    exact ⟨s.sendCommand .wren m 0, by cases m <;> rfl, by rw [he]⟩
  · refine ⟨s.sendWrite .wrcr2 m a (widen v m), by cases m <;> rfl, ?_⟩
    obtain ⟨b, trace, he⟩ := reference_wrcr2 (a := a) (v := v) hk hlink hm
    refine ⟨fun hw => ?_, fun hw => ?_⟩
    · rw [he, if_pos hw]
      exact ⟨fun x => writeCr2_cr2Byte hwf a x v, hlink ▸ rfl, rfl, rfl, startCycle_wel hw⟩
    · rw [he, if_neg (by simp [hw])]
  · exact ⟨s.readRegister .rdcr2 m a, by cases m <;> rfl, reference_rdcr2 hk hlink hm⟩
  · exact ⟨s.sendRead .rdid m 0 3 3 storeRbuf, by cases m <;> rfl, reference_rdid hk hlink hm⟩
  · obtain ⟨trace, he⟩ := reference_rdsr hk hlink hm
    refine ⟨s.readRegister .rdsr m 0, by cases m <;> rfl, ?_⟩
    rw [he]
    refine ⟨?_, ?_⟩
    · simp [Chip.statusByte, Chip.wip, Nat.pos_iff_ne_zero]
    · simp [Chip.afterStatusRead, beq_eq_decide]
  · rintro rfl
    obtain ⟨b, hbusy, henv⟩ := reference_rsten_rst hk hlink hm
    refine ⟨_, _, rfl, rfl, ?_⟩
    rw [henv]
    refine ⟨rfl, rfl, rfl, rfl, rfl, rfl, fun x rest h => ⟨hbusy x rest h, ?_⟩⟩
    dsimp only
    rw [h]
    rfl
  · have ha : s.answerTo (.mmapEnable (templateRead s.cfg) (templateWrite s.cfg)) = .ok [] := by
      simp [State.answerTo, Env.answer, hk, Env.refAnswer, Call.transaction]
    refine ⟨_, step_windowEnable hr hs, ?_⟩
    rw [State.windowEnable, attempt_ok ha]
    refine ⟨rfl, ?_⟩
    show s.env.next s.cfg s.trace _ = _
    simp [Env.next, hk, Env.refNext, Call.transaction]
  · refine ⟨_, step_windowDisable hr hs, rfl, ?_⟩
    show s.env.next s.cfg s.trace _ = _
    simp [Env.next, hk, Env.refNext, Call.transaction]

end Sys2Proof.Machine

/-! Array reads, page programs and erases under the reference environment (20_memory.md R60, R75). -/

namespace Sys2Proof.Machine

theorem inRange_iff (a : Word) (n : Nat) : inRange a n = true ↔ a.toNat + n ≤ 0x02000000 := by
  simp [inRange]

/-! ## Reads and page programs -/

theorem reference_dtrd8 {s : State} {a n : Word} (hk : s.env.kind = .reference) (hlink : s.env.chip.link = .octal)
    (hm : s.mode = .octal) (hrange : a.toNat + n.toNat ≤ 0x02000000) :
    (s.sendRead .dtrd8 .octal a n.toNat n.toNat storeRbuf).rbuf =
        (List.range n.toNat).map (fun i => s.env.chip.arrayByte (a.toNat + i)) ∧
      (s.sendRead .dtrd8 .octal a n.toNat n.toNat storeRbuf).env =
        { s.env with chip := { s.env.chip with rstArmed := false } } := by
  obtain ⟨td, hb⟩ : ∃ td, build s.cfg .dtrd8 .octal a (BitVec.ofNat 32 n.toNat) = some td := ⟨_, rfl⟩
  have haddr : td.addr = a := build_addr hb rfl
  have hdlen : td.dlen = n := by
    rw [build_dlen hb (by simp [build_dd hb]), BitVec.ofNat_toNat, BitVec.setWidth_eq]
  rw [reference_sendRead hk hm hb (by rw [hdlen])
    (recognise_built (hlink ▸ hb) (by simp) (by simp)
      (by rw [arrayRangeOk, haddr, hdlen]; exact (inRange_iff _ _).2 hrange))
    (by simp [Chip.readBytes, Memory.readRange, hdlen])]
  exact ⟨by rw [Chip.readBytes, haddr, hdlen]; rfl, rfl⟩

/-- PP4B: with WEL its data is ANDed into its range and a cycle starts; without, the command is ignored. -/
theorem reference_pp4b {s : State} {a : Word} {data : List Byte} (hk : s.env.kind = .reference)
    (hlink : s.env.chip.link = .octal) (hm : s.mode = .octal) (hrange : a.toNat + data.length ≤ 0x02000000)
    (hpage : pageOk a data.length = true) :
    ∃ b, (s.sendWrite .pp4b .octal a data).env =
      if s.env.chip.wel then
        { s.env with
          chip := ({ s.env.chip with
            rstArmed := false, arr := Memory.program arrFill s.env.chip.arr a.toNat data } : Chip).startCycle b
          busy := s.env.busy.tail }
      else { s.env with chip := { s.env.chip with rstArmed := false } } := by
  obtain ⟨td, hb⟩ : ∃ td, build s.cfg .pp4b .octal a (BitVec.ofNat 32 data.length) = some td := ⟨_, rfl⟩
  have haddr : td.addr = a := build_addr hb rfl
  refine ⟨s.env.nextBusy s.trace (.execWrite td data), ?_⟩
  rw [reference_sendWrite hk hm hb (recognise_built (hlink ▸ hb) (by simp) (by simp)
    (by rw [arrayRangeOk, haddr]; exact (inRange_iff _ _).2 hrange))]
  dsimp only
  cases hw : s.env.chip.wel <;> simp [Env.afterCommand, Chip.startsCycle, Chip.afterCommand, hw, haddr, hpage]

/-- Settles O58: both commands are recognised in range; the bytes after a page program are `read_program`. -/
theorem referenceArray : Obligations.ReferenceArray := by
  unfold Obligations.ReferenceArray
  refine fun s a hk hlink hm hwf => ⟨fun n hrange => ?_, fun data hrange hpage => ?_⟩
  · exact ⟨_, rfl, reference_dtrd8 hk hlink hm hrange⟩
  · obtain ⟨b, henv⟩ := reference_pp4b hk hlink hm hrange hpage
    refine ⟨s.sendWrite .pp4b .octal a data, congrArg Host.Outcome.next (if_pos hpage), fun hw => ?_, fun hw => ?_⟩
    · rw [henv, if_pos hw]
      exact ⟨fun x => read_program ((chip_wf_iff _).1 hwf).1 hrange, rfl, rfl, hlink, startCycle_wel hw⟩
    · rw [henv, if_neg (by simp [hw])]

/-! ## Erases -/

/-- The unit of `size` bytes that contains `a` (R60). -/
theorem unit_iff {a : Word} {size x : Nat} (h : 0 < size) :
    unitStart a size ≤ x ∧ x < unitStart a size + size ↔ x / size = a.toNat / size := by
  rw [unitStart, Nat.div_eq_iff h]
  omega

/-- An erase command: with WEL its unit is cleared and a cycle starts; without, the command is ignored. -/
theorem reference_erase {s : State} {c : Cmd} {a : Word} {lo hi : Nat} (hk : s.env.kind = .reference)
    (hlink : s.env.chip.link = .octal) (hm : s.mode = .octal) (ha : a.toNat < 0x02000000)
    (hc : (c, lo, hi) ∈ [(Cmd.se, unitStart a 4096, unitStart a 4096 + 4096),
      (.be, unitStart a 65536, unitStart a 65536 + 65536), (.ce, 0, 0x02000000)]) :
    ∃ b, (s.sendCommand c .octal a).env =
      if s.env.chip.wel then
        { s.env with
          chip := ({ s.env.chip with rstArmed := false, arr := Memory.clear s.env.chip.arr lo hi } : Chip).startCycle b
          busy := s.env.busy.tail }
      else { s.env with chip := { s.env.chip with rstArmed := false } } := by
  have hrange : inRange a 1 = true := (inRange_iff a 1).2 ha
  simp only [List.mem_cons, Prod.mk.injEq, List.not_mem_nil, or_false] at hc
  obtain ⟨td, hb⟩ : ∃ td, build s.cfg c .octal a 0 = some td := by
    rcases hc with ⟨rfl, -⟩ | ⟨rfl, -⟩ | ⟨rfl, -⟩ <;> exact ⟨_, rfl⟩
  have hrec : s.env.chip.recognise s.cfg td [] = some c := by
    rcases hc with ⟨rfl, -⟩ | ⟨rfl, -⟩ | ⟨rfl, -⟩
    · exact recognise_built (hlink ▸ hb) (by simp) (by simp) (by rw [arrayRangeOk, build_addr hb rfl]; exact hrange)
    · exact recognise_built (hlink ▸ hb) (by simp) (by simp) (by rw [arrayRangeOk, build_addr hb rfl]; exact hrange)
    · exact recognise_built (hlink ▸ hb) (by simp) (by simp) rfl
  refine ⟨s.env.nextBusy s.trace (.execCmd td), ?_⟩
  rw [reference_sendCommand hk hm hb hrec]
  rcases hc with ⟨rfl, rfl, rfl⟩ | ⟨rfl, rfl, rfl⟩ | ⟨rfl, rfl, rfl⟩ <;> cases hw : s.env.chip.wel <;>
    simp [Env.afterCommand, Chip.startsCycle, Chip.afterCommand, hw, build_addr hb, takesAddress]

/-- Settles O59: the three erases clear a range, which is the unit of the address (`unit_iff`) or the array. -/
theorem referenceErases : Obligations.ReferenceErases := by
  unfold Obligations.ReferenceErases
  intro s a hk hlink hm ha p hp
  have erased {c : Cmd} {a : Word} {lo hi : Nat} {i : Instr} {unit : Nat → Bool} (ha : a.toNat < 0x02000000)
      (hc : (c, lo, hi) ∈ [(Cmd.se, unitStart a 4096, unitStart a 4096 + 4096),
        (.be, unitStart a 65536, unitStart a 65536 + 65536), (.ce, 0, 0x02000000)])
      (hunit : ∀ x, lo ≤ x ∧ x < hi ↔ unit x = true) (hx : exec i s = .next (s.sendCommand c .octal a)) :
      ∃ t, exec i s = .next t
        ∧ (s.env.chip.wel = true →
          (∀ x, t.env.chip.arrayByte x = if unit x then 0xFF else s.env.chip.arrayByte x)
          ∧ t.env.chip.cr2 = s.env.chip.cr2 ∧ t.env.chip.id = s.env.chip.id ∧ t.env.chip.link = .octal
          ∧ (t.env.chip.wel = true ↔ t.env.chip.busyLeft ≠ 0))
        ∧ (s.env.chip.wel = false → t.env = { s.env with chip := { s.env.chip with rstArmed := false } }) := by
    obtain ⟨b, henv⟩ := reference_erase hk hlink hm ha hc
    refine ⟨_, hx, fun hw => ?_, fun hw => ?_⟩
    · rw [henv, if_pos hw]
      refine ⟨fun x => ?_, rfl, rfl, hlink, startCycle_wel hw⟩
      simp only [← hunit]
      exact read_clear
    · rw [henv, if_neg (by simp [hw])]
  simp only [List.mem_cons, List.not_mem_nil, or_false] at hp
  rcases hp with rfl | rfl | rfl
  · exact erased (c := .se) (lo := unitStart a 4096) (hi := unitStart a 4096 + 4096) ha (by simp)
      (fun x => by rw [unit_iff (by decide), decide_eq_true_eq]) rfl
  · exact erased (c := .be) (lo := unitStart a 65536) (hi := unitStart a 65536 + 65536) ha (by simp)
      (fun x => by rw [unit_iff (by decide), decide_eq_true_eq]) rfl
  · exact erased (c := .ce) (a := 0) (lo := 0) (hi := 0x02000000) (by decide) (by simp) (fun x => by simp) rfl

end Sys2Proof.Machine

/-! A Configuration-2 write under the reference environment, from request to response (20_memory.md R74;
42_register_access.md R166, R171). -/

namespace Sys2Proof.Machine

/-! ## The poll of a chip that ends its cycle -/

/-- The chip with its cycle over. -/
def Chip.settled (chip : Chip) : Chip := { chip with busyLeft := 0, wel := false, rstArmed := false }

/-- A chip in whose Status byte WIP is to be seen: WEL is held by a running cycle alone (log 26). -/
def Chip.welInCycle (chip : Chip) : Prop := chip.wel = false ∨ chip.wip = true

theorem startCycle_welInCycle (chip : Chip) (b : Nat) : (chip.startCycle b).welInCycle := by
  rcases Nat.eq_zero_or_pos b with rfl | hb
  · exact .inl (Bool.and_false _)
  · exact .inr (decide_eq_true hb)

theorem afterStatusRead_welInCycle {chip : Chip} (h : chip.welInCycle) :
    ({ chip.afterStatusRead with rstArmed := false } : Chip).welInCycle := by
  rcases h with h | h
  · exact .inl (by simp [Chip.afterStatusRead, h])
  · have hpos : 0 < chip.busyLeft := of_decide_eq_true h
    by_cases hone : chip.busyLeft = 1
    · exact .inl (by simp [Chip.afterStatusRead, hone])
    · exact .inr (decide_eq_true (by dsimp only [Chip.afterStatusRead]; omega))

/-- A Status read of the poll in Octal mode. -/
theorem step_reference_poll {s : State} (hr : s.rst = false) (hq : s.seq ∈ [Seq.initPoll, .wc2Poll, .pgPoll, .erPoll])
    (hm : s.mode = .octal) (hk : s.env.kind = .reference) (hlink : s.env.chip.link = .octal) :
    ∃ trace, step s = .next (State.advance
      { s with
        env := { s.env with chip := { s.env.chip.afterStatusRead with rstArmed := false } }
        trace := trace
        vRb := s.env.chip.statusByte s.cfg }) := by
  obtain ⟨trace, he⟩ := reference_rdsr hk hlink hm
  have hi := issue_polling hq
  rw [hm] at hi
  refine ⟨trace, ?_⟩
  rw [step_call hr hi, prepare_of_ne (by rintro h; simp [h] at hq), ← he]
  rfl

/-- The Status read of WRITE_CFG2's poll, unbounded: the poll ends where the chip is not busy. -/
theorem step_reference_writePoll {s : State} (hr : s.rst = false) (hq : s.seq = .wc2Poll) (hm : s.mode = .octal)
    (hlim : s.cfg.pollLimit = 0) (hk : s.env.kind = .reference) (hlink : s.env.chip.link = .octal)
    (hwel : s.env.chip.welInCycle) :
    ∃ u : State, step s = .next (if s.env.chip.wip = false then u.respondOk 0 [] else u) ∧
      u = { s with
        env := { s.env with chip := { s.env.chip.afterStatusRead with rstArmed := false } }
        trace := u.trace
        vRb := u.vRb
        pollN := u.pollN } := by
  have hpolls : s.seq ∈ [Seq.initPoll, .wc2Poll, .pgPoll, .erPoll] := by simp [hq]
  obtain ⟨trace, hstep⟩ := step_reference_poll hr hpolls hm hk hlink
  have hwip : wipSet s.cfg (s.env.chip.statusByte s.cfg) = s.env.chip.wip := statusByte_wip _ (.inr hwel)
  rw [advance_polling (by exact hpolls), hwip] at hstep
  simp only [hlim, ne_eq, not_true_eq_false, false_and, if_false] at hstep
  refine ⟨{ s with
    env := { s.env with chip := { s.env.chip.afterStatusRead with rstArmed := false } }
    trace := trace
    vRb := s.env.chip.statusByte s.cfg
    pollN := s.pollN + 1 }, hstep.trans ?_, rfl⟩
  simp [pollEnd, hq]

/-- The poll of WRITE_CFG2: it ends with the cycle of the chip, whose contents it leaves alone. -/
theorem run_reference_poll {n : Nat} {s : State} (hr : s.rst = false) (hq : s.seq = .wc2Poll) (hm : s.mode = .octal)
    (hlim : s.cfg.pollLimit = 0) (hk : s.env.kind = .reference) (hlink : s.env.chip.link = .octal)
    (hn : s.env.chip.busyLeft = n) (hwel : s.env.chip.welInCycle) :
    ∃ u : State, run (n + 1) s = .next (u.respondOk 0 []) ∧
      u = { s with
        env := { s.env with chip := s.env.chip.settled }, trace := u.trace, vRb := u.vRb, pollN := u.pollN } := by
  induction n generalizing s with
  | zero =>
    obtain ⟨u, hstep, hu⟩ := step_reference_writePoll hr hq hm hlim hk hlink hwel
    have hwip : s.env.chip.wip = false := by simp [Chip.wip, hn]
    have hclear : s.env.chip.wel = false := by simpa [Chip.welInCycle, hwip] using hwel
    rw [if_pos hwip] at hstep
    refine ⟨u, run_step hstep, ?_⟩
    rw [hu]
    simp [Chip.afterStatusRead, Chip.settled, hn, hclear]
  | succ n ih =>
    obtain ⟨u, hstep, hu⟩ := step_reference_writePoll hr hq hm hlim hk hlink hwel
    have hwip : s.env.chip.wip = true := by simp [Chip.wip, hn]
    rw [hwip, if_neg (by simp)] at hstep
    obtain ⟨v, hrun, hv⟩ := ih (s := u) (by rw [hu]; exact hr) (by rw [hu]; exact hq) (by rw [hu]; exact hm)
      (by rw [hu]; exact hlim) (by rw [hu]; exact hk) (by rw [hu]; exact hlink)
      (by rw [hu]; simp [Chip.afterStatusRead, hn]) (by rw [hu]; exact afterStatusRead_welInCycle hwel)
    refine ⟨v, (run_step hstep).trans hrun, ?_⟩
    rw [hv, hu]
    simp [Chip.afterStatusRead, Chip.settled]

/-! ## The operation -/

/-- Write Enable and the write of WRITE_CFG2, and the start of its poll. -/
theorem run_reference_write {s : State} (hr : s.rst = false) (hq : s.seq = .wc2Wren) (hm : s.mode = .octal)
    (hk : s.env.kind = .reference) (hlink : s.env.chip.link = .octal) :
    ∃ (b : Nat) (u : State), run 2 s = .next u ∧
      u = { s with
        env := { s.env with
          chip := ({ s.env.chip.writeCr2 s.aCur s.vNew with wel := true, rstArmed := false } : Chip).startCycle b
          busy := s.env.busy.tail }
        trace := u.trace
        pollN := 0
        seq := .wc2Poll } := by
  obtain ⟨trace, hwren⟩ := reference_wren hk hlink hm
  have hfirst : step s = .next
      { s with
        env := { s.env with chip := { s.env.chip with wel := true, rstArmed := false } }
        trace := trace
        seq := .wc2Wr } := by
    rw [step_call (i := .wrenO) hr (by rw [prepare_of_ne (by simp [hq])]; simp [State.issue, hq, hm, byMode]),
      prepare_of_ne (by simp [hq])]
    show resume (.next (s.sendCommand .wren .octal 0)) = _
    rw [hwren]
    simp [resume, State.advance, hq, State.goto]
  obtain ⟨u, hu⟩ : ∃ u : State, u =
      { s with
        env := { s.env with chip := { s.env.chip with wel := true, rstArmed := false } }
        trace := trace
        seq := .wc2Wr } := ⟨_, rfl⟩
  rw [← hu] at hfirst
  have hum : u.mode = .octal := by rw [hu]; exact hm
  have huq : u.seq = .wc2Wr := by rw [hu]
  obtain ⟨b, trace', hwrite⟩ := reference_wrcr2 (s := u) (a := u.aCur) (v := u.vNew) (by rw [hu]; exact hk)
    (by rw [hu]; exact hlink) hum
  have hsecond : step u = .next (u.sendWrite .wrcr2 .octal u.aCur (widen u.vNew .octal)).advance := by
    rw [step_call (i := .wrcr2O u.aCur u.vNew) (by rw [hu]; exact hr)
      (by rw [prepare_of_ne (by simp [huq])]; simp [State.issue, huq, hum, byMode]), prepare_of_ne (by simp [huq])]
    rfl
  refine ⟨b, _, (run_step hfirst).trans (run_step hsecond), ?_⟩
  rw [hwrite, hu]
  simp [State.advance, State.startPoll, Chip.writeCr2]

/-- Settles O60: the write starts a cycle whose busy count bounds the steps of the poll. -/
theorem referenceWriteCompletes : Obligations.ReferenceWriteCompletes := by
  unfold Obligations.ReferenceWriteCompletes
  intro s r rest hready hm hw hlim hk hlink hwf hh hcode hlow hhigh
  obtain ⟨hr, hs, hf⟩ := (ready_iff s).1 hready
  obtain ⟨-, -, -, -, -, haccept⟩ :=
    registerOperationsAccepted { s with host := rest } r.w1 (valField r.w0) hs hf hm hw
  have hstart := (step_operation .writeCfg2 hr hs hh hcode hlow hhigh).trans haccept
  obtain ⟨v, hv⟩ : ∃ v : State, v =
      { s with
        host := rest, hop := 0x6, inFlight := ⟨r.w1, 0, []⟩, aCur := r.w1, vNew := valField r.w0, seq := .wc2Wren } :=
    ⟨_, rfl⟩
  obtain ⟨b, u, hwrite, hu⟩ := run_reference_write (s := v) (by rw [hv]; exact hr) (by rw [hv]) (by rw [hv]; exact hm)
    (by rw [hv]; exact hk) (by rw [hv]; exact hlink)
  rw [hv] at hu hwrite
  obtain ⟨w, hpoll, hend⟩ := run_reference_poll (s := u) (by rw [hu]; exact hr) (by rw [hu]) (by rw [hu]; exact hm)
    (by rw [hu]; exact hlim) (by rw [hu]; exact hk)
    (by rw [hu]; simp [Chip.startCycle, Chip.writeCr2, hlink]) rfl (by rw [hu]; exact startCycle_welInCycle _ b)
  rw [hu] at hend
  have hresp : step (w.respondOk 0 []) = .next (w.respondOk 0 []).deliver := step_resp (by rw [hend]; exact hr) rfl
  refine ⟨2 + ((u.env.chip.busyLeft + 1) + 1) + 1, (w.respondOk 0 []).deliver, ?_, rfl, ?_⟩
  · rw [run_step hstart, run_add hwrite, run_add hpoll, run_step hresp]
    rfl
  · rw [hend]
    refine ⟨rfl, ?_, rfl, rfl, rfl⟩
    exact (writeCr2_cr2Byte hwf r.w1 r.w1 (valField r.w0)).trans (if_pos rfl)

end Sys2Proof.Machine
